-- ==== Sys2Proof/Word.lean ====
section
/-! DEFINITION. The word types of the block: the byte of its memories (20_memory.md R60, R72), the
16-bit entry of its table RAMs and 16-bit latches (10_state.md R34, R35, R38) and the 32-bit word of its
host-visible registers (R22). All values are unsigned (00_scope.md R7). -/

namespace Sys2Proof

/-- A byte of IN, OUT or WINDOW (20_memory.md R60). -/
abbrev Byte := BitVec 8

/-- A 16-bit table entry or latch (10_state.md R35, R38). -/
abbrev Half := BitVec 16

/-- A 32-bit host-visible register (10_state.md R22). -/
abbrev Word := BitVec 32

end Sys2Proof
end

