-- ==== Sys2Proof/Config.lean ====
section
/-! DEFINITION. What is fixed for the block and what the spec leaves open: the fixed parameters of 00_scope.md
R6, the five OPEN parameters of 92_eei_decisions.md (`Params`), the byte an unlisted memory address reads
as, and the two opaque sources of free values. -/

namespace Sys2Proof.Config

/-- `WSIZE`, the window size in bytes (00_scope.md R6). -/
def wsize : Nat := 32768

/-- `MAXBITS`, the longest Huffman code (00_scope.md R6). -/
def maxBits : Nat := 15

/-- `LL_MAX`, the capacity of the literal/length alphabet (00_scope.md R6). -/
def llMax : Nat := 288

/-- `D_FIXED`, the size of the fixed distance alphabet (00_scope.md R6). -/
def dFixed : Nat := 30

/-- `CL_N`, the size of the code-length alphabet (00_scope.md R6). -/
def clN : Nat := 19

/-- `LENS_CAP`, the capacity of the dynamic code-length array (00_scope.md R6). -/
def lensCap : Nat := 320

/-- The modulus of the two Adler-32 sums (44_stream_driver_adler32.md R309). -/
def adlerMod : Nat := 65521

/-- The OPEN parameters of 92_eei_decisions.md, which a model takes as arguments (00_scope.md R6). They are held
in State as plain data and no step changes them; a statement about every state is a statement about
every setting. DESIGN CHOICE (log 2). -/
structure Params where
  /-- `REG_BASE`: the host address of register offset 0x00 (D2). -/
  regBase : Nat
  /-- `IN_BASE`: the host address of IN offset 0 (D3). -/
  inBase : Nat
  /-- `OUT_BASE`: the host address of OUT offset 0 (D4). -/
  outBase : Nat
  /-- `IN_MEM_SIZE`: the bytes of input buffer memory (D3). -/
  inMemSize : Nat
  /-- `OUT_MEM_SIZE`: the bytes of output buffer memory (D4). -/
  outMemSize : Nat
  deriving DecidableEq, Repr

/-- The legal ranges of the OPEN parameters (92_eei_decisions.md, table of named parameters). -/
def Params.legal (p : Params) : Bool :=
  p.regBase % 64 == 0 && decide (6 ≤ p.inMemSize) && decide (p.inMemSize ≤ 2 ^ 29)
    && decide (p.outMemSize ≤ 2 ^ 32 - 1)

/-- The setting State.reset carries: the largest legal memories at addresses that do not overlap.
DESIGN CHOICE (log 2): the spec leaves the five values to the platform. -/
def resetParams : Params :=
  { regBase := 0, inBase := 2 ^ 30, outBase := 2 ^ 32, inMemSize := 2 ^ 29, outMemSize := 2 ^ 32 - 1 }

/-- What an address with no entry reads as, in IN, OUT and WINDOW. DESIGN CHOICE (log 3): the spec leaves the
contents after power-on unspecified (93_implementation_defined.md U14, U17). -/
def unwrittenByte : Byte := 0

/-- The free value a read of a result register draws while BUSY = 1 (10_state.md R42: "a model draws it
freely"), one for each value of the draw counter in State. A read of FSM shows its bits 3:0. -/
opaque freeWord : Nat → Word

/-- The free value a read of a buffer byte returns while BUSY = 1 (10_state.md R42), one for each value of the
draw counter in State. -/
opaque freeByte : Nat → Byte

end Sys2Proof.Config
end

