-- ==== Sys2Proof/Machine/Memory.lean ====
section
/-! DEFINITION. Byte memories (IN, OUT and WINDOW, 20_memory.md R60) as lists of (address, byte) pairs in one
canonical form: addresses strictly rising, and no entry equal to what an unlisted address reads as. -/

namespace Sys2Proof.Machine

/-- A byte memory, keyed by the byte offset within its space (20_memory.md R60). -/
abbrev Memory := List Host.Cell

/-- `MemRead(M, addr, 1)` (20_memory.md R62, R64): one byte, with no side effect. -/
def Memory.read : Memory → Nat → Byte
  | [], _ => Config.unwrittenByte
  | (a, v) :: m, addr => if a = addr then v else Memory.read m addr

/-- `MemWrite(M, addr, 1, v)` (20_memory.md R63, R64): one byte, every other byte unchanged; it keeps the canonical
form. -/
def Memory.write : Memory → Nat → Byte → Memory
  | [], addr, v => if v = Config.unwrittenByte then [] else [(addr, v)]
  | (a, w) :: m, addr, v =>
    if a < addr then (a, w) :: Memory.write m addr v
    else if a = addr then
      if v = Config.unwrittenByte then m else (addr, v) :: m
    else
      if v = Config.unwrittenByte then (a, w) :: m else (addr, v) :: (a, w) :: m

/-- The canonical form from address `lo` up. -/
def Memory.wfFrom : Nat → Memory → Bool
  | _, [] => true
  | lo, (a, v) :: m => decide (lo ≤ a) && v != Config.unwrittenByte && Memory.wfFrom (a + 1) m

/-- The canonical form: addresses strictly rising, no entry equal to what an unlisted address reads as. -/
def Memory.wf (m : Memory) : Bool := Memory.wfFrom 0 m

/-- Every listed address lies below `size`, the size of the space. -/
def Memory.below (m : Memory) (size : Nat) : Bool := m.all fun c => decide (c.1 < size)

end Sys2Proof.Machine
end

