-- ==== Sys2Proof/Machine/BitReader.lean ====
section
/-! DEFINITION. The bit reader (40_bitstream_reader.md R120 to R127) over the input buffer, its region end E and the
bit cursor. The cursor is kept as the register IN_POS shows it: bits 2:0 are `bit_off`, bits 31:3 are
`byte_off` (10_state.md R30). -/

namespace Sys2Proof.Machine

/-- `byte_off`, the byte offset half of a cursor (10_state.md R30). -/
def byteOff (pos : Word) : Nat := pos.toNat / 8

/-- `bit_off`, the bit index half of a cursor (10_state.md R30). -/
def bitOff (pos : Word) : Nat := pos.toNat % 8

/-- The cursor `(byte, bit)` as IN_POS holds it (10_state.md R30). -/
def cursorAt (byte bit : Nat) : Word := BitVec.ofNat 32 (8 * byte + bit)

/-- What the bit reader works on: the input buffer, the input length N, the region end E and the cursor
(40_bitstream_reader.md R120, R121). -/
structure Reader where
  mem : Memory
  n : Nat
  stop : Nat
  pos : Word
  deriving DecidableEq, Repr

/-- The answer of a read: a value and the reader after it, or `raise InputExhausted` with the reader as it stands at
the raise (the bits consumed before the failing one stay consumed, R123). -/
inductive ReadResult (α : Type) where
  | ok (a : α) (r : Reader)
  | exhausted (r : Reader)
  deriving DecidableEq, Repr

/-- The bit under the cursor: bit `bit_off` of `IN[byte_off]`, least significant bit first (20_memory.md R65). -/
def bitAt (mem : Memory) (pos : Word) : Bool := (mem.read (byteOff pos)).getLsbD (bitOff pos)

/-- `get_bit()` (40_bitstream_reader.md R122). Adding one to the cursor word is R122's step: bit 7 of a byte carries
into `byte_off`. -/
def Reader.getBit (r : Reader) : ReadResult Bool :=
  if r.stop ≤ byteOff r.pos then .exhausted r
  else .ok (bitAt r.mem r.pos) { r with pos := r.pos + 1 }

/-- `get_bits(n)` (40_bitstream_reader.md R123): the first bit read is bit 0 of the value. -/
def Reader.getBits : (n : Nat) → Reader → ReadResult (BitVec n)
  | 0, r => .ok 0#0 r
  | n + 1, r =>
    match r.getBit with
    | .exhausted r1 => .exhausted r1
    | .ok b r1 =>
      match Reader.getBits n r1 with
      | .exhausted r2 => .exhausted r2
      | .ok v r2 => .ok (v.concat b) r2

/-- `align()` on a cursor (40_bitstream_reader.md R125). -/
def alignPos (pos : Word) : Word := if bitOff pos = 0 then pos else cursorAt (byteOff pos + 1) 0

/-- `align()` (40_bitstream_reader.md R125): it reads no bit and raises nothing. -/
def Reader.align (r : Reader) : Reader := { r with pos := alignPos r.pos }

/-- The reader `k` bits further on (40_bitstream_reader.md R126). -/
def Reader.skip (r : Reader) (k : Nat) : Reader := { r with pos := r.pos + BitVec.ofNat 32 k }

end Sys2Proof.Machine
end

