-- ==== Sys2Proof/Machine/Huffman.lean ====
section
/-! DEFINITION. The canonical Huffman decoder (41_huffman.md R140 to R152): the table RAM, its construction from code
lengths, symbol decode, and the two constant tables. -/

namespace Sys2Proof.Machine

/-- A table RAM (10_state.md R35, 41_huffman.md R140): `counts[0..15]` and `symbols`, 16-bit entries each. -/
structure HuffTable where
  counts : List Half
  symbols : List Half
  deriving DecidableEq, Repr

/-- A table as the decoder reads it: the entries as numbers (41_huffman.md R140). -/
structure Huff where
  counts : List Nat
  symbols : List Nat
  deriving DecidableEq, Repr

/-- The contents of a table RAM, as the decoder reads them. -/
def HuffTable.code (t : HuffTable) : Huff :=
  { counts := t.counts.map BitVec.toNat, symbols := t.symbols.map BitVec.toNat }

/-- A table RAM with `cap` symbol entries, all zero. -/
def HuffTable.zero (cap : Nat) : HuffTable :=
  { counts := List.replicate 16 0, symbols := List.replicate cap 0 }

/-- Step 1 of the build, counts (41_huffman.md R142). -/
def lengthCounts (lengths : List Nat) : List Nat :=
  (lengths.foldl (fun counts l => counts.modify l (· + 1)) (List.replicate 16 0)).set 0 0

/-- Step 2 of the build, offsets (41_huffman.md R143): each entry is the sum of the counts before it. -/
def offsetsFrom (acc : Nat) : List Nat → List Nat
  | [] => []
  | c :: counts => acc :: offsetsFrom (acc + c) counts

/-- Step 3 of the build, placement (41_huffman.md R144), from symbol `s` on. -/
def placeSymbols : (lengths : List Nat) → (s : Nat) → (offset : List Nat) → (symbols : List Half) → List Half
  | [], _, _, symbols => symbols
  | l :: lengths, s, offset, symbols =>
    if l = 0 then placeSymbols lengths (s + 1) offset symbols
    else
      placeSymbols lengths (s + 1) (offset.modify l (· + 1))
        (symbols.set (offset.getD l 0) (BitVec.ofNat 16 s))

/-- `build(T, lengths, nsym)` with `nsym = lengths.length` (41_huffman.md R141 to R144). `old` is the table's contents
before: the symbol entries past the placed ones keep stale values (R145). -/
def buildTable (old : HuffTable) (lengths : List Nat) : HuffTable :=
  { counts := (lengthCounts lengths).map (BitVec.ofNat 16)
    symbols := placeSymbols lengths 0 (offsetsFrom 0 (lengthCounts lengths)) old.symbols }

/-- The answer of `decode(T)`: a symbol, `raise InputExhausted` or `raise HuffmanDecodeOutOfRange`, with the reader as
it then stands (41_huffman.md R146). -/
inductive SymResult where
  | ok (sym : Nat) (r : Reader)
  | exhausted (r : Reader)
  | noCode (r : Reader)
  deriving DecidableEq, Repr

/-- The loop of `decode(T)` (41_huffman.md R146) from the current length on: the counts still to try, `base`, `offs`
and the reader. An index outside the symbol entries (R148) raises HuffmanDecodeOutOfRange. -/
def decodeFrom (symbols : List Nat) : (counts : List Nat) → (base offs : Nat) → Reader → SymResult
  | [], _, _, r => .noCode r
  | c :: counts, base, offs, r =>
    match r.getBit with
    | .exhausted r1 => .exhausted r1
    | .ok b r1 =>
      if 2 * offs + b.toNat < c then
        match symbols[base + (2 * offs + b.toNat)]? with
        | some sym => .ok sym r1
        | none => .noCode r1
      else decodeFrom symbols counts (base + c) (2 * offs + b.toNat - c) r1

/-- `decode(T)` (41_huffman.md R146): lengths 1 to 15. -/
def decodeSym (t : Huff) (r : Reader) : SymResult :=
  decodeFrom t.symbols ((t.counts.drop 1).take Config.maxBits) 0 0 r

/-- `FIXED_LIT` (41_huffman.md R150), a constant of the block (R149). -/
def fixedLit : Huff :=
  { counts := [0, 0, 0, 0, 0, 0, 0, 24, 152, 112, 0, 0, 0, 0, 0, 0]
    symbols := List.range' 256 24 ++ List.range' 0 144 ++ List.range' 280 8 ++ List.range' 144 112 }

/-- `FIXED_DIST` (41_huffman.md R151), a constant of the block (R149). -/
def fixedDist : Huff :=
  { counts := [0, 0, 0, 0, 0, 30, 0, 0, 0, 0, 0, 0, 0, 0, 0, 0], symbols := List.range' 0 30 }

/-- The code lengths `FIXED_LIT` is built from (41_huffman.md R150). -/
def fixedLitLengths : List Nat :=
  List.replicate 144 8 ++ List.replicate 112 9 ++ List.replicate 24 7 ++ List.replicate 8 8

/-- The code lengths `FIXED_DIST` is built from (41_huffman.md R151). -/
def fixedDistLengths : List Nat := List.replicate Config.dFixed 5

/-- `P`, the number of symbols with a code (41_huffman.md R145). -/
def Huff.coded (t : Huff) : Nat := ((t.counts.drop 1).take Config.maxBits).sum

/-- A code value of `len` bits as a bit string, most significant bit first (30_encoding.md R92, 20_memory.md R67). -/
def codeBits : (len value : Nat) → List Bool
  | 0, _ => []
  | len + 1, value => codeBits len (value / 2) ++ [value % 2 == 1]

/-- The canonical code of the symbol at index `idx` of the symbol entries (41_huffman.md R145): the counts still to
try, the first code value of the current length and that length. No code where the value does not fit
its length. -/
def codeFrom : (counts : List Nat) → (idx first len : Nat) → Option (List Bool)
  | [], _, _, _ => none
  | c :: counts, idx, first, len =>
    if idx < c then
      if first + idx < 2 ^ len then some (codeBits len (first + idx)) else none
    else codeFrom counts (idx - c) (2 * (first + c)) (len + 1)

/-- The canonical code of a symbol in a table, if it has one (41_huffman.md R145). -/
def codeOf (t : Huff) (sym : Nat) : Option (List Bool) :=
  match (t.symbols.take t.coded).idxOf? sym with
  | none => none
  | some idx => codeFrom ((t.counts.drop 1).take Config.maxBits) idx 0 1

end Sys2Proof.Machine
end

