-- ==== Sys2Proof/Machine/State.lean ====
section
/-! DEFINITION. The state of the block (10_state.md): every host-visible register, every latch, table RAM and
memory, the engine's position, and the host's moves; the reasons a step can stop; and the state after
reset (70_reset_and_hazards.md R360). -/

namespace Sys2Proof.Machine

/-- The values of the FSM register (10_state.md R31). -/
inductive Fsm where
  | idle | zlibHeader | blockHeader | stored | fixed | dynamicHeader | dynamic | trailer | done | error
  deriving DecidableEq, Repr

/-- The active-table selector `tables` (10_state.md R40). -/
inductive TableSel where
  | fixed | dynamic
  deriving DecidableEq, Repr

/-- Which instruction the engine reads next: the control point of the pseudocode of 42_block_dispatch.md,
43_lz77_window_emitter.md and 44_stream_driver_adler32.md, finer than FSM where one FSM state holds several
instructions. It means something only while BUSY = 1. The model's own state, DESIGN CHOICE (log 1). -/
inductive Expect where
  | zlibHdr | blkHdr | storedLen | storedByte | dynHdr | clCodelen | clSym | litLen | dist | trailer
  deriving DecidableEq, Repr

/-- The error kinds (60_exceptions.md R330). -/
inductive JobError where
  | unsupportedMethod | unsupportedWindowSize | headerChecksumInvalid | presetDictionaryUnsupported
  | invalidBlockType | lengthMismatch | repeatWithNoPrior | huffmanDecodeOutOfRange | inputExhausted
  | checksumMismatch | distanceTooFar | codeLengthOverrun | outputOverflow
  deriving DecidableEq, Repr

/-- A move of the host (70_reset_and_hazards.md R372), in bus terms (20_memory.md R60, R61). `pass` lets the engine take
its next step; the other moves let it take none. -/
inductive HostMove where
  /-- The host does nothing; the engine takes its next step, if it has one. -/
  | pass
  /-- A write of `width` bytes at a host address. -/
  | busWrite (addr width : Nat) (value : Word)
  /-- A read of `width` bytes at a host address. -/
  | busRead (addr width : Nat)
  /-- A reset of the block (70_reset_and_hazards.md R360, R361). -/
  | reset
  deriving DecidableEq, Repr

/-- The reasons a step stops with a fault. -/
inductive Fault where
  /-- Raised by a host move at an address in none of REG, IN and OUT: no such location of the block exists
  (20_memory.md R60, R61). Safe: the model stops where the spec says nothing. -/
  | noSuchHostAddress
  deriving DecidableEq, Repr

/-- The reasons a step is refused. -/
inductive Refusal where
  /-- Raised by an arm of `exec` whose instruction has no meaning yet. No arm raises it. Safe. -/
  | notModelled (mnemonic : String)
  /-- Raised by a host access to REG of a width other than 4 or at an offset that is not a multiple of 4: "the model
  refuses it" (20_memory.md R61). Safe. -/
  | regAccess
  /-- Raised by a host access to IN or OUT wider than a byte: the spec gives these spaces byte accesses only
  (20_memory.md R60, R72). Safe. -/
  | bufferAccess
  /-- Raised by a host write to IN or OUT while BUSY = 1: the host has no such move (20_memory.md R78,
  93_implementation_defined.md U22 "must refuse"). Safe. -/
  | hostWriteWhileBusy
  /-- Raised by the fetch of a code-length symbol above 18, which no table the block builds holds
  (42_block_dispatch.md R190, 93_implementation_defined.md U3 "refuse"). Safe. -/
  | noClSymbol
  deriving DecidableEq, Repr

/-- The state of the block and of the host's side of it. -/
structure State where
  /-- CTRL.STORED_ALIGN (R23). -/
  storedAlign : Bool
  /-- STATUS.BUSY (R24). -/
  busy : Bool
  /-- STATUS.DONE (R24). -/
  done : Bool
  /-- STATUS.ERROR (R24). -/
  error : Bool
  /-- STATUS.ERRCODE (R24). -/
  errcode : BitVec 4
  /-- IN_LEN (R25). -/
  inLen : Word
  /-- OUT_CAP (R26). -/
  outCap : Word
  /-- OUT_LEN, the emitted count (R27). -/
  outLen : Word
  /-- ADLER bits 15:0, the sum `a` (R28, R34). -/
  adlerA : Half
  /-- ADLER bits 31:16, the sum `b` (R28, R34). -/
  adlerB : Half
  /-- TRAILER (R29). -/
  trailer : Word
  /-- The bit cursor as IN_POS shows it: `byte_off` in bits 31:3, `bit_off` in bits 2:0 (R30). -/
  inPos : Word
  /-- FSM (R31). -/
  fsm : Fsm
  /-- The job latch `N` (R39). -/
  n : Word
  /-- The job latch `CAP` (R39). -/
  cap : Word
  /-- The job latch `ALIGN` (R39). -/
  align : Bool
  /-- The job latch `E` (R39). -/
  e : Word
  /-- The window write pointer `wp` (R33). -/
  wp : BitVec 15
  /-- `CL_T`, 19 symbol entries (R35). -/
  clT : HuffTable
  /-- `LIT_T`, 288 symbol entries (R35). -/
  litT : HuffTable
  /-- `DIST_T`, 288 symbol entries (R35). -/
  distT : HuffTable
  /-- `CL_LENS[0..18]` (R37). -/
  clLens : List (BitVec 3)
  /-- `LENS[0..319]` (R37). -/
  lens : List (BitVec 4)
  /-- The block latch `bfinal` (R38). -/
  bfinal : Bool
  /-- The block latch `btype` (R38). -/
  btype : BitVec 2
  /-- The dynamic-header latch `HLIT` (R38). -/
  hlit : BitVec 9
  /-- The dynamic-header latch `HDIST` (R38). -/
  hdist : BitVec 6
  /-- The dynamic-header latch `HCLEN` (R38). -/
  hclen : BitVec 5
  /-- The code-length index `num` (R38). -/
  num : BitVec 9
  /-- The stored-block latch `LEN` (R38). -/
  len : Half
  /-- The stored-block latch `NLEN` (R38). -/
  nlen : Half
  /-- The match latch `length` (R38). -/
  length : BitVec 9
  /-- The match latch `distance` (R38). -/
  distance : Half
  /-- The active-table selector `tables` (R40). -/
  tables : TableSel
  /-- The input buffer IN (20_memory.md R60). -/
  inMem : Memory
  /-- The output buffer OUT (20_memory.md R60). -/
  outMem : Memory
  /-- WINDOW[0..32767] (R33). -/
  window : Memory
  /-- Which instruction the engine reads next. The model's own (log 1). -/
  expect : Expect
  /-- How many bytes of a stored block remain: the loop counter of 42_block_dispatch.md R179. The model's own (log 1). -/
  storedLeft : Nat
  /-- The loop index `i` of 42_block_dispatch.md R182. The model's own (log 1). -/
  clIndex : Nat
  /-- The OPEN parameters (00_scope.md R6). The model's own place for them (log 2). -/
  params : Config.Params
  /-- The host's pending moves, the next one first. The model's own (log 4). -/
  hostMoves : List HostMove
  /-- The value the host's last read returned. The model's own (log 4). -/
  busData : Word
  /-- How many free values have been drawn. The model's own (log 5). -/
  draws : Nat
  deriving DecidableEq, Repr

/-- The state right after reset (70_reset_and_hazards.md R360). The state the spec leaves unspecified there holds zeros,
empty memories and the first constructors: DESIGN CHOICE (log 6). No job runs and no program is in place. -/
def State.reset : State where
  storedAlign := false
  busy := false
  done := false
  error := false
  errcode := 0
  inLen := 0
  outCap := 0
  outLen := 0
  adlerA := 1
  adlerB := 0
  trailer := 0
  inPos := 0
  fsm := .idle
  n := 0
  cap := 0
  align := false
  e := 0
  wp := 0
  clT := HuffTable.zero 19
  litT := HuffTable.zero 288
  distT := HuffTable.zero 288
  clLens := List.replicate 19 0
  lens := List.replicate 320 0
  bfinal := false
  btype := 0
  hlit := 0
  hdist := 0
  hclen := 0
  num := 0
  len := 0
  nlen := 0
  length := 0
  distance := 0
  tables := .fixed
  inMem := []
  outMem := []
  window := []
  expect := .zlibHdr
  storedLeft := 0
  clIndex := 0
  params := Config.resetParams
  hostMoves := []
  busData := 0
  draws := 0

/-- What a step of this machine answers. -/
abbrev Outcome := Host.Outcome State Fault Refusal

end Sys2Proof.Machine
end

