-- ==== Sys2Proof/Machine/Operands.lean ====
section
/-! DEFINITION. Operand forms: the base-plus-extra idiom and the length and distance tables (40_bitstream_reader.md
R124, 43_lz77_window_emitter.md R279, R280), the code-length order (30_encoding.md R96), and the words the
host-visible registers read as (10_state.md R22 to R32). -/

namespace Sys2Proof.Machine

/-- `get_bits_base(n, base)` once its n bits are read (40_bitstream_reader.md R124): the base plus the extra bits. With
no extra bits it is the base. -/
def basePlus {n : Nat} (base : Nat) (extra : BitVec n) : Nat := base + extra.toNat

/-- `LBASE[0..28]`, indexed by symbol - 257 (43_lz77_window_emitter.md R279). -/
def lengthBases : List Nat :=
  [3, 4, 5, 6, 7, 8, 9, 10, 11, 13, 15, 17, 19, 23, 27, 31, 35, 43, 51, 59, 67, 83, 99, 115, 131, 163, 195, 227, 258]

/-- `LBASE[i]` (43_lz77_window_emitter.md R279). -/
def lbase (i : Nat) : Nat := lengthBases.getD i 0

/-- `LEXTRA[0..28]` (43_lz77_window_emitter.md R279); the decoder reads these widths. -/
def lengthExtras : List Nat :=
  [0, 0, 0, 0, 0, 0, 0, 0, 1, 1, 1, 1, 2, 2, 2, 2, 3, 3, 3, 3, 4, 4, 4, 4, 5, 5, 5, 5, 0]

/-- `DBASE[0..29]`, indexed by the distance symbol (43_lz77_window_emitter.md R280). -/
def distanceBases : List Nat :=
  [1, 2, 3, 4, 5, 7, 9, 13, 17, 25, 33, 49, 65, 97, 129, 193, 257, 385, 513, 769, 1025, 1537, 2049, 3073, 4097,
   6145, 8193, 12289, 16385, 24577]

/-- `DBASE[d]` (43_lz77_window_emitter.md R280). -/
def dbase (d : Nat) : Nat := distanceBases.getD d 0

/-- `DEXTRA[0..29]` (43_lz77_window_emitter.md R280); the decoder reads these widths. -/
def distanceExtras : List Nat :=
  [0, 0, 0, 0, 1, 1, 2, 2, 3, 3, 4, 4, 5, 5, 6, 6, 7, 7, 8, 8, 9, 9, 10, 10, 11, 11, 12, 12, 13, 13]

/-- `CL_ORDER` (30_encoding.md R96, 42_block_dispatch.md R182). -/
def clOrder : List Nat := [16, 17, 18, 0, 8, 7, 9, 6, 10, 5, 11, 4, 12, 3, 13, 2, 14, 1, 15]

/-- CTRL as the host reads it (10_state.md R23): START and the reserved bits read 0. -/
def State.ctrlWord (s : State) : Word := BitVec.ofNat 32 (2 * s.storedAlign.toNat)

/-- STATUS as the host reads it (10_state.md R24): BUSY, DONE, ERROR in bits 2:0, ERRCODE in bits 7:4. -/
def State.statusWord (s : State) : Word :=
  BitVec.ofNat 32 (s.busy.toNat + 2 * s.done.toNat + 4 * s.error.toNat + 16 * s.errcode.toNat)

/-- ADLER as the host reads it (10_state.md R28): `(b << 16) | a`. -/
def State.adlerWord (s : State) : Word := s.adlerB ++ s.adlerA

/-- The number of an FSM state (10_state.md R31). -/
def Fsm.value : Fsm → Nat
  | .idle => 0
  | .zlibHeader => 1
  | .blockHeader => 2
  | .stored => 3
  | .fixed => 4
  | .dynamicHeader => 5
  | .dynamic => 6
  | .trailer => 7
  | .done => 8
  | .error => 9

/-- FSM as the host reads it (10_state.md R31). -/
def State.fsmWord (s : State) : Word := BitVec.ofNat 32 s.fsm.value

/-- `LT`, the literal/length table the selector names (10_state.md R40). -/
def State.lt (s : State) : Huff :=
  match s.tables with
  | .fixed => fixedLit
  | .dynamic => s.litT.code

/-- `DT`, the distance table the selector names (10_state.md R40). -/
def State.dt (s : State) : Huff :=
  match s.tables with
  | .fixed => fixedDist
  | .dynamic => s.distT.code

/-- `HLIT + HDIST`, the number of code lengths of a dynamic block (42_block_dispatch.md R184), computed exactly
(00_scope.md R9). -/
def State.lensTotal (s : State) : Nat := s.hlit.toNat + s.hdist.toNat

/-- The bit reader of the running job (40_bitstream_reader.md R121). -/
def State.reader (s : State) : Reader := { mem := s.inMem, n := s.n.toNat, stop := s.e.toNat, pos := s.inPos }

end Sys2Proof.Machine
end

