-- ==== Sys2Proof/Machine/Flags.lean ====
section
/-! DEFINITION. The flags of the block, which are STATUS.BUSY, DONE and ERROR with ERRCODE (10_state.md R41), each set in
one place; and the Adler-32 sums (44_stream_driver_adler32.md R309, R310). -/

namespace Sys2Proof.Machine

/-- The number of an error kind in STATUS.ERRCODE (60_exceptions.md R330). -/
def JobError.code : JobError → BitVec 4
  | .unsupportedMethod => 1
  | .unsupportedWindowSize => 2
  | .headerChecksumInvalid => 3
  | .presetDictionaryUnsupported => 4
  | .invalidBlockType => 5
  | .lengthMismatch => 6
  | .repeatWithNoPrior => 7
  | .huffmanDecodeOutOfRange => 8
  | .inputExhausted => 9
  | .checksumMismatch => 10
  | .distanceTooFar => 11
  | .codeLengthOverrun => 12
  | .outputOverflow => 13

/-- STATUS at the start of a job (44_stream_driver_adler32.md R301). -/
def State.setBusy (s : State) : State := { s with busy := true, done := false, error := false, errcode := 0 }

/-- STATUS at success (44_stream_driver_adler32.md R314). -/
def State.setDone (s : State) : State := { s with busy := false, done := true }

/-- STATUS at an error (60_exceptions.md R331). -/
def State.setError (x : JobError) (s : State) : State :=
  { s with busy := false, error := true, done := false, errcode := x.code }

/-- The sum `a` after a byte (44_stream_driver_adler32.md R310). -/
def adlerNextA (a : Half) (v : Byte) : Half := BitVec.ofNat 16 ((a.toNat + v.toNat) % Config.adlerMod)

/-- The sum `b` after a byte, from the new `a` (44_stream_driver_adler32.md R310). -/
def adlerNextB (b newA : Half) : Half := BitVec.ofNat 16 ((b.toNat + newA.toNat) % Config.adlerMod)

/-- `adler_update(v)` (44_stream_driver_adler32.md R310). -/
def adlerUpdate (v : Byte) (s : State) : State :=
  { s with adlerA := adlerNextA s.adlerA v, adlerB := adlerNextB s.adlerB (adlerNextA s.adlerA v) }

end Sys2Proof.Machine
end

