-- ==== Sys2Proof/Machine/Ops.lean ====
section
/-! DEFINITION. The shared operations of the meanings: error entry (60_exceptions.md R331), `emit` and `copy`
(43_lz77_window_emitter.md R212, R277), the start of a job (44_stream_driver_adler32.md R301), the end of a
block body (42_block_dispatch.md R176), and the pieces of a dynamic header (42_block_dispatch.md R183, R191). -/

namespace Sys2Proof.Machine

/-- `raise X` (60_exceptions.md R331): the one exception of the block, taken in one place. The job ends, STATUS and FSM
say so, and nothing else changes. There is no return from it (R346). -/
def raise (x : JobError) (s : State) : State := { s.setError x with fsm := .error }

/-- A piece of a rule's pseudocode: it goes on, or it has raised an error in the state it had then (R331: no later line
runs). -/
inductive Run where
  | go (s : State)
  | raised (x : JobError) (s : State)
  deriving DecidableEq, Repr

/-- The state a rule leaves: of a raise, the error entry (60_exceptions.md R331). -/
def Run.state : Run → State
  | .go s => s
  | .raised x s => raise x s

/-- `emit(v)` (43_lz77_window_emitter.md R212): the capacity check before any write, then OUT, WINDOW, `wp`, OUT_LEN and
the checksum. -/
def emit (v : Byte) (s : State) : Run :=
  if s.cap ≤ s.outLen then .raised .outputOverflow s
  else
    .go (adlerUpdate v
      { s with
        outMem := s.outMem.write s.outLen.toNat v
        window := s.window.write s.wp.toNat v
        wp := s.wp + 1
        outLen := s.outLen + 1 })

/-- `(wp - distance) mod 32768`, where a back-reference reads the window (43_lz77_window_emitter.md R277). -/
def State.copySource (s : State) : Nat := (s.wp.toNat + 2 * Config.wsize - s.distance.toNat) % Config.wsize

/-- `copy()` (43_lz77_window_emitter.md R277): the given number of bytes, one at a time; an OutputOverflow leaves the
bytes before it emitted. -/
def copy : Nat → State → Run
  | 0, s => .go s
  | k + 1, s =>
    match emit (s.window.read s.copySource) s with
    | .go s1 => copy k s1
    | .raised x s1 => .raised x s1

/-- `job_init()` (44_stream_driver_adler32.md R301): `E <- max(2, N - 4)`, computed on naturals. -/
def jobInit (s : State) : State :=
  { s.setBusy with
    n := s.inLen
    cap := s.outCap
    align := s.storedAlign
    e := BitVec.ofNat 32 (max 2 (s.inLen.toNat - 4))
    outLen := 0
    wp := 0
    adlerA := 1
    adlerB := 0
    trailer := 0
    inPos := cursorAt 0 0
    fsm := .zlibHeader
    expect := .zlibHdr }

/-- The end of a block body (42_block_dispatch.md R176, R170). -/
def endOfBody (s : State) : State :=
  if s.bfinal then { s with fsm := .trailer, expect := .trailer }
  else { s with fsm := .blockHeader, expect := .blkHdr }

/-- A block header read (42_block_dispatch.md R171). -/
def latchBlock (bfinal : Bool) (btype : BitVec 2) (s : State) : State := { s with bfinal := bfinal, btype := btype }

/-- The clearing of both code-length arrays (42_block_dispatch.md R181). -/
def clearLens (s : State) : State :=
  { s with clLens := List.replicate Config.clN 0, lens := List.replicate Config.lensCap 0 }

/-- `LENS[num] <- v; num <- num + 1`, `rep` times (42_block_dispatch.md R185 to R188): the entries from `num` on that lie
in the array are `v`. -/
def writeLens (rep : Nat) (v : BitVec 4) (s : State) : State :=
  { s with
    lens := s.lens.take s.num.toNat ++ List.replicate (min rep (s.lens.length - s.num.toNat)) v
      ++ s.lens.drop (s.num.toNat + rep)
    num := BitVec.ofNat 9 (s.num.toNat + rep) }

/-- The table split and build (42_block_dispatch.md R191) and the start of the dynamic body (R192). -/
def buildDynamic (s : State) : State :=
  { s with
    litT := buildTable s.litT ((s.lens.take s.hlit.toNat).map BitVec.toNat)
    distT := buildTable s.distT (((s.lens.drop s.hlit.toNat).take s.hdist.toNat).map BitVec.toNat)
    tables := .dynamic
    fsm := .dynamic
    expect := .litLen }

/-- The test of the code-length loop, `while num < HLIT + HDIST` (42_block_dispatch.md R184): one more symbol, or the
tables. -/
def nextClSym (s : State) : State :=
  if s.num.toNat < s.lensTotal then { s with expect := .clSym } else buildDynamic s

/-- A repeat of a code length (42_block_dispatch.md R186 to R188): the overrun check before any entry is written (R189),
then the entries and the loop test. -/
def repeatLens (rep : Nat) (v : BitVec 4) (s : State) : Run :=
  if s.lensTotal < s.num.toNat + rep then .raised .codeLengthOverrun s
  else .go (nextClSym (writeLens rep v s))

/-- The length step of a length code (43_lz77_window_emitter.md R214): the latch, and the distance symbol next. -/
def lengthStep (length : Nat) (s : State) : State := { s with length := BitVec.ofNat 9 length, expect := .dist }

/-- The distance step of a distance code (43_lz77_window_emitter.md R214): the latch, `check_distance()` (R276), `copy()`
(R277), and the next literal/length symbol. -/
def distanceStep (distance : Nat) (s : State) : Run :=
  let s1 := { s with distance := BitVec.ofNat 16 distance }
  if s1.outLen.toNat < s1.distance.toNat ∨ Config.wsize < s1.distance.toNat then .raised .distanceTooFar s1
  else
    match copy s1.length.toNat s1 with
    | .go s2 => .go { s2 with expect := .litLen }
    | .raised x s2 => .raised x s2

/-- The state a meaning leaves is the next state of the machine: an error the spec describes is taken, not a stop. -/
def Run.outcome (r : Run) : Outcome := .next r.state

end Sys2Proof.Machine
end

