-- ==== Sys2Proof/Machine/Block.lean ====
section
/-! DEFINITION. The meanings of the block headers and of the stored block's instructions (42_block_dispatch.md R170 to
R179). -/

namespace Sys2Proof.Machine

/-- BLK_STORED (R171, R172). -/
def execBlkStored (bfinal : Bool) (s : State) : Outcome :=
  (Run.go { latchBlock bfinal 0 s with fsm := .stored, expect := .storedLen }).outcome

/-- BLK_FIXED (R171, R173) and the start of its body (R180). -/
def execBlkFixed (bfinal : Bool) (s : State) : Outcome :=
  (Run.go { latchBlock bfinal 1 s with fsm := .fixed, tables := .fixed, expect := .litLen }).outcome

/-- BLK_DYNAMIC (R171, R174). -/
def execBlkDynamic (bfinal : Bool) (s : State) : Outcome :=
  (Run.go { latchBlock bfinal 2 s with fsm := .dynamicHeader, expect := .dynHdr }).outcome

/-- BLK_RESERVED (R171, R175): InvalidBlockType, whatever BFINAL is. -/
def execBlkReserved (bfinal : Bool) (s : State) : Outcome :=
  (Run.raised .invalidBlockType (latchBlock bfinal 3 s)).outcome

/-- STORED_LEN (R178): both fields are latched, then NLEN is compared with the complement of LEN. With LEN = 0 the body
ends at once (R179, R176). -/
def execStoredLen (len nlen : BitVec 16) (s : State) : Outcome :=
  let s1 := { s with len := len, nlen := nlen }
  if nlen.toNat ≠ 0xFFFF - len.toNat then (Run.raised .lengthMismatch s1).outcome
  else if len = 0 then (Run.go (endOfBody { s1 with storedLeft := 0 })).outcome
  else (Run.go { s1 with storedLeft := len.toNat, expect := .storedByte }).outcome

/-- STORED_BYTE (R179): the byte is emitted as a literal is; after the last one the body ends (R176). -/
def execStoredByte (data : BitVec 8) (s : State) : Outcome :=
  match emit data s with
  | .raised x s1 => (Run.raised x s1).outcome
  | .go s1 =>
    if s1.storedLeft ≤ 1 then (Run.go (endOfBody { s1 with storedLeft := 0 })).outcome
    else (Run.go { s1 with storedLeft := s1.storedLeft - 1 }).outcome

end Sys2Proof.Machine
end

