-- ==== Sys2Proof/Machine/Distance.lean ====
section
/-! DEFINITION. The meanings of the distance codes (43_lz77_window_emitter.md R245 to R275): each latches its base plus its
extra bits (R280), checks the distance (R276) and replays the match (R277). -/

namespace Sys2Proof.Machine

/-- DIST_0 (R245): distance 1. -/
def execDist0 (s : State) : Outcome := (distanceStep (dbase 0) s).outcome

/-- DIST_1 (R246): distance 2. -/
def execDist1 (s : State) : Outcome := (distanceStep (dbase 1) s).outcome

/-- DIST_2 (R247): distance 3. -/
def execDist2 (s : State) : Outcome := (distanceStep (dbase 2) s).outcome

/-- DIST_3 (R248): distance 4. -/
def execDist3 (s : State) : Outcome := (distanceStep (dbase 3) s).outcome

/-- DIST_4 (R249): distances 5 to 6. -/
def execDist4 (extra : BitVec 1) (s : State) : Outcome := (distanceStep (basePlus (dbase 4) extra) s).outcome

/-- DIST_5 (R250): distances 7 to 8. -/
def execDist5 (extra : BitVec 1) (s : State) : Outcome := (distanceStep (basePlus (dbase 5) extra) s).outcome

/-- DIST_6 (R251): distances 9 to 12. -/
def execDist6 (extra : BitVec 2) (s : State) : Outcome := (distanceStep (basePlus (dbase 6) extra) s).outcome

/-- DIST_7 (R252): distances 13 to 16. -/
def execDist7 (extra : BitVec 2) (s : State) : Outcome := (distanceStep (basePlus (dbase 7) extra) s).outcome

/-- DIST_8 (R253): distances 17 to 24. -/
def execDist8 (extra : BitVec 3) (s : State) : Outcome := (distanceStep (basePlus (dbase 8) extra) s).outcome

/-- DIST_9 (R254): distances 25 to 32. -/
def execDist9 (extra : BitVec 3) (s : State) : Outcome := (distanceStep (basePlus (dbase 9) extra) s).outcome

/-- DIST_10 (R255): distances 33 to 48. -/
def execDist10 (extra : BitVec 4) (s : State) : Outcome := (distanceStep (basePlus (dbase 10) extra) s).outcome

/-- DIST_11 (R256): distances 49 to 64. -/
def execDist11 (extra : BitVec 4) (s : State) : Outcome := (distanceStep (basePlus (dbase 11) extra) s).outcome

/-- DIST_12 (R257): distances 65 to 96. -/
def execDist12 (extra : BitVec 5) (s : State) : Outcome := (distanceStep (basePlus (dbase 12) extra) s).outcome

/-- DIST_13 (R258): distances 97 to 128. -/
def execDist13 (extra : BitVec 5) (s : State) : Outcome := (distanceStep (basePlus (dbase 13) extra) s).outcome

/-- DIST_14 (R259): distances 129 to 192. -/
def execDist14 (extra : BitVec 6) (s : State) : Outcome := (distanceStep (basePlus (dbase 14) extra) s).outcome

/-- DIST_15 (R260): distances 193 to 256. -/
def execDist15 (extra : BitVec 6) (s : State) : Outcome := (distanceStep (basePlus (dbase 15) extra) s).outcome

/-- DIST_16 (R261): distances 257 to 384. -/
def execDist16 (extra : BitVec 7) (s : State) : Outcome := (distanceStep (basePlus (dbase 16) extra) s).outcome

/-- DIST_17 (R262): distances 385 to 512. -/
def execDist17 (extra : BitVec 7) (s : State) : Outcome := (distanceStep (basePlus (dbase 17) extra) s).outcome

/-- DIST_18 (R263): distances 513 to 768. -/
def execDist18 (extra : BitVec 8) (s : State) : Outcome := (distanceStep (basePlus (dbase 18) extra) s).outcome

/-- DIST_19 (R264): distances 769 to 1024. -/
def execDist19 (extra : BitVec 8) (s : State) : Outcome := (distanceStep (basePlus (dbase 19) extra) s).outcome

/-- DIST_20 (R265): distances 1025 to 1536. -/
def execDist20 (extra : BitVec 9) (s : State) : Outcome := (distanceStep (basePlus (dbase 20) extra) s).outcome

/-- DIST_21 (R266): distances 1537 to 2048. -/
def execDist21 (extra : BitVec 9) (s : State) : Outcome := (distanceStep (basePlus (dbase 21) extra) s).outcome

/-- DIST_22 (R267): distances 2049 to 3072. -/
def execDist22 (extra : BitVec 10) (s : State) : Outcome := (distanceStep (basePlus (dbase 22) extra) s).outcome

/-- DIST_23 (R268): distances 3073 to 4096. -/
def execDist23 (extra : BitVec 10) (s : State) : Outcome := (distanceStep (basePlus (dbase 23) extra) s).outcome

/-- DIST_24 (R269): distances 4097 to 6144. -/
def execDist24 (extra : BitVec 11) (s : State) : Outcome := (distanceStep (basePlus (dbase 24) extra) s).outcome

/-- DIST_25 (R270): distances 6145 to 8192. -/
def execDist25 (extra : BitVec 11) (s : State) : Outcome := (distanceStep (basePlus (dbase 25) extra) s).outcome

/-- DIST_26 (R271): distances 8193 to 12288. -/
def execDist26 (extra : BitVec 12) (s : State) : Outcome := (distanceStep (basePlus (dbase 26) extra) s).outcome

/-- DIST_27 (R272): distances 12289 to 16384. -/
def execDist27 (extra : BitVec 12) (s : State) : Outcome := (distanceStep (basePlus (dbase 27) extra) s).outcome

/-- DIST_28 (R273): distances 16385 to 24576. -/
def execDist28 (extra : BitVec 13) (s : State) : Outcome := (distanceStep (basePlus (dbase 28) extra) s).outcome

/-- DIST_29 (R274): distances 24577 to 32768. -/
def execDist29 (extra : BitVec 13) (s : State) : Outcome := (distanceStep (basePlus (dbase 29) extra) s).outcome

/-- DIST_RESERVED (R275): HuffmanDecodeOutOfRange, for either symbol; no byte is copied. -/
def execDistReserved (_sym : BitVec 5) (s : State) : Outcome := (Run.raised .huffmanDecodeOutOfRange s).outcome

end Sys2Proof.Machine
end

