-- ==== Sys2Proof/Machine/Dynamic.lean ====
section
/-! DEFINITION. The meanings of the dynamic header's instructions (42_block_dispatch.md R181 to R192). -/

namespace Sys2Proof.Machine

/-- DYN_HDR (R181): the arrays are cleared and the three counts latched. -/
def execDynHdr (hlit hdist : BitVec 5) (hclen : BitVec 4) (s : State) : Outcome :=
  (Run.go
    { clearLens s with
      hlit := BitVec.ofNat 9 (basePlus 257 hlit)
      hdist := BitVec.ofNat 6 (basePlus 1 hdist)
      hclen := BitVec.ofNat 5 (basePlus 4 hclen)
      clIndex := 0
      expect := .clCodelen }).outcome

/-- CL_CODELEN (R182): one entry of `CL_LENS` in `CL_ORDER`; after the HCLEN-th, `CL_T` is built (R183) and the
code-length loop begins (R184). -/
def execClCodelen (length : BitVec 3) (s : State) : Outcome :=
  let s1 := { s with clLens := s.clLens.set (clOrder.getD s.clIndex Config.clN) length, clIndex := s.clIndex + 1 }
  if s1.clIndex < s1.hclen.toNat then (Run.go s1).outcome
  else (Run.go { s1 with clT := buildTable s1.clT (s1.clLens.map BitVec.toNat), num := 0, expect := .clSym }).outcome

/-- CL_LEN (R185): one code length; then the loop test (R184). -/
def execClLen (sym : BitVec 4) (s : State) : Outcome := (Run.go (nextClSym (writeLens 1 sym s))).outcome

/-- CL_REP_PREV (R186): RepeatWithNoPrior at the first code length, otherwise 3 + extra copies of the previous one (R189
before any is written). -/
def execClRepPrev (extra : BitVec 2) (s : State) : Outcome :=
  if s.num = 0 then (Run.raised .repeatWithNoPrior s).outcome
  else (repeatLens (basePlus 3 extra) (s.lens.getD (s.num.toNat - 1) 0) s).outcome

/-- CL_REP_ZERO3 (R187): 3 + extra zeros. -/
def execClRepZero3 (extra : BitVec 3) (s : State) : Outcome := (repeatLens (basePlus 3 extra) 0 s).outcome

/-- CL_REP_ZERO11 (R188): 11 + extra zeros. -/
def execClRepZero11 (extra : BitVec 7) (s : State) : Outcome := (repeatLens (basePlus 11 extra) 0 s).outcome

end Sys2Proof.Machine
end

