-- ==== Sys2Proof/Machine/Length.lean ====
section
/-! DEFINITION. The meanings of the length codes (43_lz77_window_emitter.md R215 to R243): each latches its base plus its
extra bits (R279) and awaits the distance symbol (R214). -/

namespace Sys2Proof.Machine

/-- LEN_257 (R215): length 3. -/
def execLen257 (s : State) : Outcome := (Run.go (lengthStep (lbase 0) s)).outcome

/-- LEN_258 (R216): length 4. -/
def execLen258 (s : State) : Outcome := (Run.go (lengthStep (lbase 1) s)).outcome

/-- LEN_259 (R217): length 5. -/
def execLen259 (s : State) : Outcome := (Run.go (lengthStep (lbase 2) s)).outcome

/-- LEN_260 (R218): length 6. -/
def execLen260 (s : State) : Outcome := (Run.go (lengthStep (lbase 3) s)).outcome

/-- LEN_261 (R219): length 7. -/
def execLen261 (s : State) : Outcome := (Run.go (lengthStep (lbase 4) s)).outcome

/-- LEN_262 (R220): length 8. -/
def execLen262 (s : State) : Outcome := (Run.go (lengthStep (lbase 5) s)).outcome

/-- LEN_263 (R221): length 9. -/
def execLen263 (s : State) : Outcome := (Run.go (lengthStep (lbase 6) s)).outcome

/-- LEN_264 (R222): length 10. -/
def execLen264 (s : State) : Outcome := (Run.go (lengthStep (lbase 7) s)).outcome

/-- LEN_265 (R223): lengths 11 to 12. -/
def execLen265 (extra : BitVec 1) (s : State) : Outcome := (Run.go (lengthStep (basePlus (lbase 8) extra) s)).outcome

/-- LEN_266 (R224): lengths 13 to 14. -/
def execLen266 (extra : BitVec 1) (s : State) : Outcome := (Run.go (lengthStep (basePlus (lbase 9) extra) s)).outcome

/-- LEN_267 (R225): lengths 15 to 16. -/
def execLen267 (extra : BitVec 1) (s : State) : Outcome := (Run.go (lengthStep (basePlus (lbase 10) extra) s)).outcome

/-- LEN_268 (R226): lengths 17 to 18. -/
def execLen268 (extra : BitVec 1) (s : State) : Outcome := (Run.go (lengthStep (basePlus (lbase 11) extra) s)).outcome

/-- LEN_269 (R227): lengths 19 to 22. -/
def execLen269 (extra : BitVec 2) (s : State) : Outcome := (Run.go (lengthStep (basePlus (lbase 12) extra) s)).outcome

/-- LEN_270 (R228): lengths 23 to 26. -/
def execLen270 (extra : BitVec 2) (s : State) : Outcome := (Run.go (lengthStep (basePlus (lbase 13) extra) s)).outcome

/-- LEN_271 (R229): lengths 27 to 30. -/
def execLen271 (extra : BitVec 2) (s : State) : Outcome := (Run.go (lengthStep (basePlus (lbase 14) extra) s)).outcome

/-- LEN_272 (R230): lengths 31 to 34. -/
def execLen272 (extra : BitVec 2) (s : State) : Outcome := (Run.go (lengthStep (basePlus (lbase 15) extra) s)).outcome

/-- LEN_273 (R231): lengths 35 to 42. -/
def execLen273 (extra : BitVec 3) (s : State) : Outcome := (Run.go (lengthStep (basePlus (lbase 16) extra) s)).outcome

/-- LEN_274 (R232): lengths 43 to 50. -/
def execLen274 (extra : BitVec 3) (s : State) : Outcome := (Run.go (lengthStep (basePlus (lbase 17) extra) s)).outcome

/-- LEN_275 (R233): lengths 51 to 58. -/
def execLen275 (extra : BitVec 3) (s : State) : Outcome := (Run.go (lengthStep (basePlus (lbase 18) extra) s)).outcome

/-- LEN_276 (R234): lengths 59 to 66. -/
def execLen276 (extra : BitVec 3) (s : State) : Outcome := (Run.go (lengthStep (basePlus (lbase 19) extra) s)).outcome

/-- LEN_277 (R235): lengths 67 to 82. -/
def execLen277 (extra : BitVec 4) (s : State) : Outcome := (Run.go (lengthStep (basePlus (lbase 20) extra) s)).outcome

/-- LEN_278 (R236): lengths 83 to 98. -/
def execLen278 (extra : BitVec 4) (s : State) : Outcome := (Run.go (lengthStep (basePlus (lbase 21) extra) s)).outcome

/-- LEN_279 (R237): lengths 99 to 114. -/
def execLen279 (extra : BitVec 4) (s : State) : Outcome := (Run.go (lengthStep (basePlus (lbase 22) extra) s)).outcome

/-- LEN_280 (R238): lengths 115 to 130. -/
def execLen280 (extra : BitVec 4) (s : State) : Outcome := (Run.go (lengthStep (basePlus (lbase 23) extra) s)).outcome

/-- LEN_281 (R239): lengths 131 to 162. -/
def execLen281 (extra : BitVec 5) (s : State) : Outcome := (Run.go (lengthStep (basePlus (lbase 24) extra) s)).outcome

/-- LEN_282 (R240): lengths 163 to 194. -/
def execLen282 (extra : BitVec 5) (s : State) : Outcome := (Run.go (lengthStep (basePlus (lbase 25) extra) s)).outcome

/-- LEN_283 (R241): lengths 195 to 226. -/
def execLen283 (extra : BitVec 5) (s : State) : Outcome := (Run.go (lengthStep (basePlus (lbase 26) extra) s)).outcome

/-- LEN_284 (R242): lengths 227 to 258. -/
def execLen284 (extra : BitVec 5) (s : State) : Outcome := (Run.go (lengthStep (basePlus (lbase 27) extra) s)).outcome

/-- LEN_285 (R243): length 258. -/
def execLen285 (s : State) : Outcome := (Run.go (lengthStep (lbase 28) s)).outcome

end Sys2Proof.Machine
end

