-- ==== Sys2Proof/Machine/Literal.lean ====
section
/-! DEFINITION. The meanings of the literal/length symbols that are no length code (43_lz77_window_emitter.md R211, R213,
R244). -/

namespace Sys2Proof.Machine

/-- LIT (R211): the symbol is emitted as a byte. -/
def execLit (sym : BitVec 8) (s : State) : Outcome :=
  match emit sym s with
  | .go s1 => (Run.go { s1 with expect := .litLen }).outcome
  | .raised x s1 => (Run.raised x s1).outcome

/-- EOB (R213): the block's body ends (42_block_dispatch.md R176). -/
def execEob (s : State) : Outcome := (Run.go (endOfBody s)).outcome

/-- LL_RESERVED (R244): HuffmanDecodeOutOfRange, for either symbol. -/
def execLlReserved (_sym : BitVec 9) (s : State) : Outcome := (Run.raised .huffmanDecodeOutOfRange s).outcome

end Sys2Proof.Machine
end

