-- ==== Sys2Proof/Machine/Stream.lean ====
section
/-! DEFINITION. The meanings of the stream driver's instructions (44_stream_driver_adler32.md): HOST_START, ZLIB_HDR and
ADLER_TRAILER. -/

namespace Sys2Proof.Machine

/-- HOST_START (R300): ignored while BUSY = 1; otherwise STORED_ALIGN is stored, then `job_init()` runs (R301). -/
def execHostStart (word : BitVec 32) (s : State) : Outcome :=
  if s.busy then .next s else .next (jobInit { s with storedAlign := word.getLsbD 1 })

/-- The header checks in their order: CM (R303), CINFO (R304), FDICT (R305), FCHECK (R306). FLEVEL is not checked (R307). -/
def headerCheck (cmf flg : BitVec 8) : Option JobError :=
  if cmf.toNat % 16 ≠ 8 then some .unsupportedMethod
  else if 7 < cmf.toNat / 16 then some .unsupportedWindowSize
  else if flg.getLsbD 5 then some .presetDictionaryUnsupported
  else if (cmf.toNat * 256 + flg.toNat) % 31 ≠ 0 then some .headerChecksumInvalid
  else none

/-- ZLIB_HDR (R302 to R308): the first check that fails raises its error; an accepted header puts the cursor at (2, 0)
and the block loop begins. -/
def execZlibHdr (cmf flg : BitVec 8) (s : State) : Outcome :=
  match headerCheck cmf flg with
  | some x => (Run.raised x s).outcome
  | none => (Run.go { s with inPos := cursorAt 2 0, fsm := .blockHeader, expect := .blkHdr }).outcome

/-- ADLER_TRAILER (R312 to R314): TRAILER takes the value; if it is not ADLER the job ends in ChecksumMismatch, else in
DONE. -/
def execAdlerTrailer (value : BitVec 32) (s : State) : Outcome :=
  if value ≠ s.adlerWord then (Run.raised .checksumMismatch { s with trailer := value }).outcome
  else (Run.go { State.setDone { s with trailer := value } with fsm := .done }).outcome

end Sys2Proof.Machine
end

