-- ==== Sys2Proof/Syntax.lean ====
section
/-! DEFINITION. The instructions of the block: one constructor for each row of spec/opcode_table.json, with
the operands the row's format gives it (30_encoding.md R93 to R100, R103). A Huffman-coded instruction is its
symbol and the extra bits that follow its code; the code itself belongs to the table in use. -/

namespace Sys2Proof

/-- The instruction set (30_encoding.md R103). -/
inductive Instr where
  /-- ZLIB_HDR (F-ZH, R93): the two header bytes CMF and FLG. -/
  | zlibHdr (cmf flg : BitVec 8)
  /-- BLK_STORED (F-BH, R94): a block header with BTYPE = 0 and the given BFINAL. -/
  | blkStored (bfinal : Bool)
  /-- BLK_FIXED (F-BH, R94): a block header with BTYPE = 1. -/
  | blkFixed (bfinal : Bool)
  /-- BLK_DYNAMIC (F-BH, R94): a block header with BTYPE = 2. -/
  | blkDynamic (bfinal : Bool)
  /-- BLK_RESERVED (F-BH, R94): a block header with BTYPE = 3. -/
  | blkReserved (bfinal : Bool)
  /-- STORED_LEN (F-ST, R95): the fields LEN and NLEN. -/
  | storedLen (len nlen : BitVec 16)
  /-- STORED_BYTE (F-ST, R95): one data byte of a stored block. -/
  | storedByte (data : BitVec 8)
  /-- DYN_HDR (F-DH, R96): the fields HLIT - 257, HDIST - 1 and HCLEN - 4. -/
  | dynHdr (hlit hdist : BitVec 5) (hclen : BitVec 4)
  /-- CL_CODELEN (F-DH, R96): one 3-bit code-length code length. -/
  | clCodelen (length : BitVec 3)
  /-- CL_LEN (F-CL, R97): the code-length symbols 0 to 15. -/
  | clLen (sym : BitVec 4)
  /-- CL_REP_PREV (F-CL, R97): code-length symbol 16 and its 2 extra bits. -/
  | clRepPrev (extra : BitVec 2)
  /-- CL_REP_ZERO3 (F-CL, R97): code-length symbol 17 and its 3 extra bits. -/
  | clRepZero3 (extra : BitVec 3)
  /-- CL_REP_ZERO11 (F-CL, R97): code-length symbol 18 and its 7 extra bits. -/
  | clRepZero11 (extra : BitVec 7)
  /-- LIT (F-LL, R98): the literal/length symbols 0 to 255. -/
  | lit (sym : BitVec 8)
  /-- EOB (F-LL, R98): literal/length symbol 256. -/
  | eob
  /-- LEN_257 (F-LL, R98): length code 257, no extra bits (43_lz77_window_emitter.md R215). -/
  | len257
  /-- LEN_258 (F-LL, R98): length code 258, no extra bits (43_lz77_window_emitter.md R216). -/
  | len258
  /-- LEN_259 (F-LL, R98): length code 259, no extra bits (43_lz77_window_emitter.md R217). -/
  | len259
  /-- LEN_260 (F-LL, R98): length code 260, no extra bits (43_lz77_window_emitter.md R218). -/
  | len260
  /-- LEN_261 (F-LL, R98): length code 261, no extra bits (43_lz77_window_emitter.md R219). -/
  | len261
  /-- LEN_262 (F-LL, R98): length code 262, no extra bits (43_lz77_window_emitter.md R220). -/
  | len262
  /-- LEN_263 (F-LL, R98): length code 263, no extra bits (43_lz77_window_emitter.md R221). -/
  | len263
  /-- LEN_264 (F-LL, R98): length code 264, no extra bits (43_lz77_window_emitter.md R222). -/
  | len264
  /-- LEN_265 (F-LL, R98): length code 265 and its extra bits, 1 wide (43_lz77_window_emitter.md R223). -/
  | len265 (extra : BitVec 1)
  /-- LEN_266 (F-LL, R98): length code 266 and its extra bits, 1 wide (43_lz77_window_emitter.md R224). -/
  | len266 (extra : BitVec 1)
  /-- LEN_267 (F-LL, R98): length code 267 and its extra bits, 1 wide (43_lz77_window_emitter.md R225). -/
  | len267 (extra : BitVec 1)
  /-- LEN_268 (F-LL, R98): length code 268 and its extra bits, 1 wide (43_lz77_window_emitter.md R226). -/
  | len268 (extra : BitVec 1)
  /-- LEN_269 (F-LL, R98): length code 269 and its extra bits, 2 wide (43_lz77_window_emitter.md R227). -/
  | len269 (extra : BitVec 2)
  /-- LEN_270 (F-LL, R98): length code 270 and its extra bits, 2 wide (43_lz77_window_emitter.md R228). -/
  | len270 (extra : BitVec 2)
  /-- LEN_271 (F-LL, R98): length code 271 and its extra bits, 2 wide (43_lz77_window_emitter.md R229). -/
  | len271 (extra : BitVec 2)
  /-- LEN_272 (F-LL, R98): length code 272 and its extra bits, 2 wide (43_lz77_window_emitter.md R230). -/
  | len272 (extra : BitVec 2)
  /-- LEN_273 (F-LL, R98): length code 273 and its extra bits, 3 wide (43_lz77_window_emitter.md R231). -/
  | len273 (extra : BitVec 3)
  /-- LEN_274 (F-LL, R98): length code 274 and its extra bits, 3 wide (43_lz77_window_emitter.md R232). -/
  | len274 (extra : BitVec 3)
  /-- LEN_275 (F-LL, R98): length code 275 and its extra bits, 3 wide (43_lz77_window_emitter.md R233). -/
  | len275 (extra : BitVec 3)
  /-- LEN_276 (F-LL, R98): length code 276 and its extra bits, 3 wide (43_lz77_window_emitter.md R234). -/
  | len276 (extra : BitVec 3)
  /-- LEN_277 (F-LL, R98): length code 277 and its extra bits, 4 wide (43_lz77_window_emitter.md R235). -/
  | len277 (extra : BitVec 4)
  /-- LEN_278 (F-LL, R98): length code 278 and its extra bits, 4 wide (43_lz77_window_emitter.md R236). -/
  | len278 (extra : BitVec 4)
  /-- LEN_279 (F-LL, R98): length code 279 and its extra bits, 4 wide (43_lz77_window_emitter.md R237). -/
  | len279 (extra : BitVec 4)
  /-- LEN_280 (F-LL, R98): length code 280 and its extra bits, 4 wide (43_lz77_window_emitter.md R238). -/
  | len280 (extra : BitVec 4)
  /-- LEN_281 (F-LL, R98): length code 281 and its extra bits, 5 wide (43_lz77_window_emitter.md R239). -/
  | len281 (extra : BitVec 5)
  /-- LEN_282 (F-LL, R98): length code 282 and its extra bits, 5 wide (43_lz77_window_emitter.md R240). -/
  | len282 (extra : BitVec 5)
  /-- LEN_283 (F-LL, R98): length code 283 and its extra bits, 5 wide (43_lz77_window_emitter.md R241). -/
  | len283 (extra : BitVec 5)
  /-- LEN_284 (F-LL, R98): length code 284 and its extra bits, 5 wide (43_lz77_window_emitter.md R242). -/
  | len284 (extra : BitVec 5)
  /-- LEN_285 (F-LL, R98): length code 285, no extra bits (43_lz77_window_emitter.md R243). -/
  | len285
  /-- LL_RESERVED (F-LL, R98): the literal/length symbols 286 and 287. -/
  | llReserved (sym : BitVec 9)
  /-- DIST_0 (F-D, R99): distance code 0, no extra bits (43_lz77_window_emitter.md R245). -/
  | dist0
  /-- DIST_1 (F-D, R99): distance code 1, no extra bits (43_lz77_window_emitter.md R246). -/
  | dist1
  /-- DIST_2 (F-D, R99): distance code 2, no extra bits (43_lz77_window_emitter.md R247). -/
  | dist2
  /-- DIST_3 (F-D, R99): distance code 3, no extra bits (43_lz77_window_emitter.md R248). -/
  | dist3
  /-- DIST_4 (F-D, R99): distance code 4 and its extra bits, 1 wide (43_lz77_window_emitter.md R249). -/
  | dist4 (extra : BitVec 1)
  /-- DIST_5 (F-D, R99): distance code 5 and its extra bits, 1 wide (43_lz77_window_emitter.md R250). -/
  | dist5 (extra : BitVec 1)
  /-- DIST_6 (F-D, R99): distance code 6 and its extra bits, 2 wide (43_lz77_window_emitter.md R251). -/
  | dist6 (extra : BitVec 2)
  /-- DIST_7 (F-D, R99): distance code 7 and its extra bits, 2 wide (43_lz77_window_emitter.md R252). -/
  | dist7 (extra : BitVec 2)
  /-- DIST_8 (F-D, R99): distance code 8 and its extra bits, 3 wide (43_lz77_window_emitter.md R253). -/
  | dist8 (extra : BitVec 3)
  /-- DIST_9 (F-D, R99): distance code 9 and its extra bits, 3 wide (43_lz77_window_emitter.md R254). -/
  | dist9 (extra : BitVec 3)
  /-- DIST_10 (F-D, R99): distance code 10 and its extra bits, 4 wide (43_lz77_window_emitter.md R255). -/
  | dist10 (extra : BitVec 4)
  /-- DIST_11 (F-D, R99): distance code 11 and its extra bits, 4 wide (43_lz77_window_emitter.md R256). -/
  | dist11 (extra : BitVec 4)
  /-- DIST_12 (F-D, R99): distance code 12 and its extra bits, 5 wide (43_lz77_window_emitter.md R257). -/
  | dist12 (extra : BitVec 5)
  /-- DIST_13 (F-D, R99): distance code 13 and its extra bits, 5 wide (43_lz77_window_emitter.md R258). -/
  | dist13 (extra : BitVec 5)
  /-- DIST_14 (F-D, R99): distance code 14 and its extra bits, 6 wide (43_lz77_window_emitter.md R259). -/
  | dist14 (extra : BitVec 6)
  /-- DIST_15 (F-D, R99): distance code 15 and its extra bits, 6 wide (43_lz77_window_emitter.md R260). -/
  | dist15 (extra : BitVec 6)
  /-- DIST_16 (F-D, R99): distance code 16 and its extra bits, 7 wide (43_lz77_window_emitter.md R261). -/
  | dist16 (extra : BitVec 7)
  /-- DIST_17 (F-D, R99): distance code 17 and its extra bits, 7 wide (43_lz77_window_emitter.md R262). -/
  | dist17 (extra : BitVec 7)
  /-- DIST_18 (F-D, R99): distance code 18 and its extra bits, 8 wide (43_lz77_window_emitter.md R263). -/
  | dist18 (extra : BitVec 8)
  /-- DIST_19 (F-D, R99): distance code 19 and its extra bits, 8 wide (43_lz77_window_emitter.md R264). -/
  | dist19 (extra : BitVec 8)
  /-- DIST_20 (F-D, R99): distance code 20 and its extra bits, 9 wide (43_lz77_window_emitter.md R265). -/
  | dist20 (extra : BitVec 9)
  /-- DIST_21 (F-D, R99): distance code 21 and its extra bits, 9 wide (43_lz77_window_emitter.md R266). -/
  | dist21 (extra : BitVec 9)
  /-- DIST_22 (F-D, R99): distance code 22 and its extra bits, 10 wide (43_lz77_window_emitter.md R267). -/
  | dist22 (extra : BitVec 10)
  /-- DIST_23 (F-D, R99): distance code 23 and its extra bits, 10 wide (43_lz77_window_emitter.md R268). -/
  | dist23 (extra : BitVec 10)
  /-- DIST_24 (F-D, R99): distance code 24 and its extra bits, 11 wide (43_lz77_window_emitter.md R269). -/
  | dist24 (extra : BitVec 11)
  /-- DIST_25 (F-D, R99): distance code 25 and its extra bits, 11 wide (43_lz77_window_emitter.md R270). -/
  | dist25 (extra : BitVec 11)
  /-- DIST_26 (F-D, R99): distance code 26 and its extra bits, 12 wide (43_lz77_window_emitter.md R271). -/
  | dist26 (extra : BitVec 12)
  /-- DIST_27 (F-D, R99): distance code 27 and its extra bits, 12 wide (43_lz77_window_emitter.md R272). -/
  | dist27 (extra : BitVec 12)
  /-- DIST_28 (F-D, R99): distance code 28 and its extra bits, 13 wide (43_lz77_window_emitter.md R273). -/
  | dist28 (extra : BitVec 13)
  /-- DIST_29 (F-D, R99): distance code 29 and its extra bits, 13 wide (43_lz77_window_emitter.md R274). -/
  | dist29 (extra : BitVec 13)
  /-- DIST_RESERVED (F-D, R99): the distance symbols 30 and 31. -/
  | distReserved (sym : BitVec 5)
  /-- ADLER_TRAILER (F-TR, R100): the 32-bit trailer value. -/
  | adlerTrailer (value : BitVec 32)
  /-- HOST_START (HOST, R103): the word the host writes to CTRL, with its START bit set. -/
  | hostStart (word : BitVec 32)
  deriving DecidableEq, Repr

end Sys2Proof
end

