-- ==== Sys2Proof/WellFormed.lean ====
section
/-! DEFINITION. Well-formed instructions: the constraints on operands that the operands' widths do not already
give (30_encoding.md R98, R99; opcode_table.json rows LL_RESERVED, DIST_RESERVED, HOST_START). -/

namespace Sys2Proof

/-- The checks an instruction passes before it has an encoding: LL_RESERVED stands for the symbols 286 and 287,
DIST_RESERVED for 30 and 31 (30_encoding.md R98, R99), and HOST_START is a word whose START bit is 1
(44_stream_driver_adler32.md R300). Every other operand is legal at every value of its width. -/
def Instr.wf : Instr → Bool
  | .zlibHdr _ _ => true
  | .blkStored _ => true
  | .blkFixed _ => true
  | .blkDynamic _ => true
  | .blkReserved _ => true
  | .storedLen _ _ => true
  | .storedByte _ => true
  | .dynHdr _ _ _ => true
  | .clCodelen _ => true
  | .clLen _ => true
  | .clRepPrev _ => true
  | .clRepZero3 _ => true
  | .clRepZero11 _ => true
  | .lit _ => true
  | .eob => true
  | .len257 => true
  | .len258 => true
  | .len259 => true
  | .len260 => true
  | .len261 => true
  | .len262 => true
  | .len263 => true
  | .len264 => true
  | .len265 _ => true
  | .len266 _ => true
  | .len267 _ => true
  | .len268 _ => true
  | .len269 _ => true
  | .len270 _ => true
  | .len271 _ => true
  | .len272 _ => true
  | .len273 _ => true
  | .len274 _ => true
  | .len275 _ => true
  | .len276 _ => true
  | .len277 _ => true
  | .len278 _ => true
  | .len279 _ => true
  | .len280 _ => true
  | .len281 _ => true
  | .len282 _ => true
  | .len283 _ => true
  | .len284 _ => true
  | .len285 => true
  | .llReserved sym => sym == 286 || sym == 287
  | .dist0 => true
  | .dist1 => true
  | .dist2 => true
  | .dist3 => true
  | .dist4 _ => true
  | .dist5 _ => true
  | .dist6 _ => true
  | .dist7 _ => true
  | .dist8 _ => true
  | .dist9 _ => true
  | .dist10 _ => true
  | .dist11 _ => true
  | .dist12 _ => true
  | .dist13 _ => true
  | .dist14 _ => true
  | .dist15 _ => true
  | .dist16 _ => true
  | .dist17 _ => true
  | .dist18 _ => true
  | .dist19 _ => true
  | .dist20 _ => true
  | .dist21 _ => true
  | .dist22 _ => true
  | .dist23 _ => true
  | .dist24 _ => true
  | .dist25 _ => true
  | .dist26 _ => true
  | .dist27 _ => true
  | .dist28 _ => true
  | .dist29 _ => true
  | .distReserved sym => sym == 30 || sym == 31
  | .adlerTrailer _ => true
  | .hostStart word => word.getLsbD 0

end Sys2Proof
end

