-- ==== Sys2Proof/Decode.lean ====
section
/-! DEFINITION. The decoder and the encoder of the stream (30_encoding.md). What decodes depends on the part of the
stream the cursor stands in (`Format`) and on the tables in use (R105); `decode` is total on any bytes and
names what it rejects. `encode` is its converse, written from the same encoding tables. At the end:
the reading of an opcode-table number as an instruction. -/

namespace Sys2Proof

open Sys2Proof.Machine

/-- The encoding the next instruction has: the formats of 30_encoding.md R93 to R100, F-ST and F-DH in their two
parts, with what changes decoding (R105): the table in use, STORED_ALIGN, and for F-CL whether a
previous code length exists (42_block_dispatch.md R186). -/
inductive Format where
  /-- F-ZH, R93. -/
  | zlibHdr
  /-- F-BH, R94. -/
  | blkHdr
  /-- F-ST, R95: the optional padding, LEN and NLEN. -/
  | storedLen (align : Bool)
  /-- F-ST, R95: one data byte. -/
  | storedByte
  /-- F-DH, R96: the three counts. -/
  | dynHdr
  /-- F-DH, R96: one code-length code length. -/
  | clCodelen
  /-- F-CL, R97: a symbol of `CL_T`; `first` says that no code length precedes it. -/
  | clSym (t : Huff) (first : Bool)
  /-- F-LL, R98: a symbol of `LT`. -/
  | litLen (t : Huff)
  /-- F-D, R99: a symbol of `DT`. -/
  | dist (t : Huff)
  /-- F-TR, R100. -/
  | trailer
  deriving DecidableEq, Repr

/-- What the decoder answers: an instruction and the reader after it; or, by name, why there is none. -/
inductive DecodeResult where
  /-- The instruction and the reader after its last bit. -/
  | ok (i : Instr) (r : Reader)
  /-- InputExhausted (40_bitstream_reader.md R122), with the plain fields already read whole. -/
  | exhausted (got : List Nat) (r : Reader)
  /-- HuffmanDecodeOutOfRange: no code after 15 bits (41_huffman.md R146), or a symbol outside the alphabet. -/
  | noCode (r : Reader)
  /-- A code-length symbol above 18 (42_block_dispatch.md R190: it never happens). -/
  | noClSymbol (r : Reader)
  deriving DecidableEq, Repr

/-- The extra bits that follow a symbol (30_encoding.md R105), read by `get_bits(n)`. -/
def withExtra (n : Nat) (make : BitVec n → Instr) (r : Reader) : DecodeResult :=
  match r.getBits n with
  | .ok v r1 => .ok (make v) r1
  | .exhausted r1 => .exhausted [] r1

/-- The block header of a BTYPE value (30_encoding.md R94). -/
def blkInstr (bfinal : Bool) (btype : BitVec 2) : Instr :=
  match btype.toNat with
  | 0 => .blkStored bfinal
  | 1 => .blkFixed bfinal
  | 2 => .blkDynamic bfinal
  | _ => .blkReserved bfinal

/-- The instruction of a code-length symbol (30_encoding.md R97). At the first code length the extra bits of symbol 16
are not read (42_block_dispatch.md R186). -/
def clInstr (first : Bool) (sym : Nat) (r : Reader) : DecodeResult :=
  if sym ≤ 15 then .ok (.clLen (BitVec.ofNat 4 sym)) r
  else if sym = 16 then (if first then .ok (.clRepPrev 0) r else withExtra 2 .clRepPrev r)
  else if sym = 17 then withExtra 3 .clRepZero3 r
  else if sym = 18 then withExtra 7 .clRepZero11 r
  else .noClSymbol r

/-- The instruction of a literal/length symbol (30_encoding.md R98, 43_lz77_window_emitter.md R279). -/
def litLenInstr (sym : Nat) (r : Reader) : DecodeResult :=
  if sym < 256 then .ok (.lit (BitVec.ofNat 8 sym)) r
  else
    match sym with
    | 256 => .ok .eob r
    | 257 => .ok .len257 r
    | 258 => .ok .len258 r
    | 259 => .ok .len259 r
    | 260 => .ok .len260 r
    | 261 => .ok .len261 r
    | 262 => .ok .len262 r
    | 263 => .ok .len263 r
    | 264 => .ok .len264 r
    | 265 => withExtra 1 .len265 r
    | 266 => withExtra 1 .len266 r
    | 267 => withExtra 1 .len267 r
    | 268 => withExtra 1 .len268 r
    | 269 => withExtra 2 .len269 r
    | 270 => withExtra 2 .len270 r
    | 271 => withExtra 2 .len271 r
    | 272 => withExtra 2 .len272 r
    | 273 => withExtra 3 .len273 r
    | 274 => withExtra 3 .len274 r
    | 275 => withExtra 3 .len275 r
    | 276 => withExtra 3 .len276 r
    | 277 => withExtra 4 .len277 r
    | 278 => withExtra 4 .len278 r
    | 279 => withExtra 4 .len279 r
    | 280 => withExtra 4 .len280 r
    | 281 => withExtra 5 .len281 r
    | 282 => withExtra 5 .len282 r
    | 283 => withExtra 5 .len283 r
    | 284 => withExtra 5 .len284 r
    | 285 => .ok .len285 r
    | _ => if sym ≤ 287 then .ok (.llReserved (BitVec.ofNat 9 sym)) r else .noCode r

/-- The instruction of a distance symbol (30_encoding.md R99, 43_lz77_window_emitter.md R280). -/
def distInstr (sym : Nat) (r : Reader) : DecodeResult :=
  match sym with
  | 0 => .ok .dist0 r
  | 1 => .ok .dist1 r
  | 2 => .ok .dist2 r
  | 3 => .ok .dist3 r
  | 4 => withExtra 1 .dist4 r
  | 5 => withExtra 1 .dist5 r
  | 6 => withExtra 2 .dist6 r
  | 7 => withExtra 2 .dist7 r
  | 8 => withExtra 3 .dist8 r
  | 9 => withExtra 3 .dist9 r
  | 10 => withExtra 4 .dist10 r
  | 11 => withExtra 4 .dist11 r
  | 12 => withExtra 5 .dist12 r
  | 13 => withExtra 5 .dist13 r
  | 14 => withExtra 6 .dist14 r
  | 15 => withExtra 6 .dist15 r
  | 16 => withExtra 7 .dist16 r
  | 17 => withExtra 7 .dist17 r
  | 18 => withExtra 8 .dist18 r
  | 19 => withExtra 8 .dist19 r
  | 20 => withExtra 9 .dist20 r
  | 21 => withExtra 9 .dist21 r
  | 22 => withExtra 10 .dist22 r
  | 23 => withExtra 10 .dist23 r
  | 24 => withExtra 11 .dist24 r
  | 25 => withExtra 11 .dist25 r
  | 26 => withExtra 12 .dist26 r
  | 27 => withExtra 12 .dist27 r
  | 28 => withExtra 13 .dist28 r
  | 29 => withExtra 13 .dist29 r
  | _ => if sym ≤ 31 then .ok (.distReserved (BitVec.ofNat 5 sym)) r else .noCode r

/-- A Huffman-coded instruction: one symbol (41_huffman.md R146), then what the symbol stands for. -/
def decodeCoded (t : Huff) (instr : Nat → Reader → DecodeResult) (r : Reader) : DecodeResult :=
  match decodeSym t r with
  | .ok sym r1 => instr sym r1
  | .exhausted r1 => .exhausted [] r1
  | .noCode r1 => .noCode r1

/-- Format F-BH (30_encoding.md R94, 42_block_dispatch.md R171): BFINAL, then BTYPE. -/
def decodeBlkHdr (r : Reader) : DecodeResult :=
  match r.getBit with
  | .exhausted r1 => .exhausted [] r1
  | .ok bfinal r1 =>
    match r1.getBits 2 with
    | .exhausted r2 => .exhausted [bfinal.toNat] r2
    | .ok btype r2 => .ok (blkInstr bfinal btype) r2

/-- Format F-ST, LEN then NLEN (30_encoding.md R95, 42_block_dispatch.md R178). -/
def decodeStoredLen (r : Reader) : DecodeResult :=
  match r.getBits 16 with
  | .exhausted r1 => .exhausted [] r1
  | .ok len r1 =>
    match r1.getBits 16 with
    | .exhausted r2 => .exhausted [len.toNat] r2
    | .ok nlen r2 => .ok (.storedLen len nlen) r2

/-- Format F-DH, the three counts (30_encoding.md R96, 42_block_dispatch.md R181). -/
def decodeDynHdr (r : Reader) : DecodeResult :=
  match r.getBits 5 with
  | .exhausted r1 => .exhausted [] r1
  | .ok hlit r1 =>
    match r1.getBits 5 with
    | .exhausted r2 => .exhausted [hlit.toNat] r2
    | .ok hdist r2 =>
      match r2.getBits 4 with
      | .exhausted r3 => .exhausted [hlit.toNat, hdist.toNat] r3
      | .ok hclen r3 => .ok (.dynHdr hlit hdist hclen) r3

/-- The trailer value: the four bytes of IN at offsets N - 4 to N - 1, the first the most significant
(30_encoding.md R100, 20_memory.md R70). -/
def trailerValue (mem : Memory) (n : Nat) : BitVec 32 :=
  mem.read (n - 4) ++ mem.read (n - 3) ++ mem.read (n - 2) ++ mem.read (n - 1)

/-- The decoder: the instruction at the cursor, in the format the engine expects. The zlib header and the trailer are
whole bytes and do not move the cursor (44_stream_driver_adler32.md R302, R312); the padding of a stored
block is skipped first when `align` is set (42_block_dispatch.md R177). -/
def decode : Format → Reader → DecodeResult
  | .zlibHdr, r => if r.n < 2 then .exhausted [] r else .ok (.zlibHdr (r.mem.read 0) (r.mem.read 1)) r
  | .blkHdr, r => decodeBlkHdr r
  | .storedLen align, r => decodeStoredLen (if align then r.align else r)
  | .storedByte, r => withExtra 8 .storedByte r
  | .dynHdr, r => decodeDynHdr r
  | .clCodelen, r => withExtra 3 .clCodelen r
  | .clSym t first, r => decodeCoded t (clInstr first) r
  | .litLen t, r => decodeCoded t litLenInstr r
  | .dist t, r => decodeCoded t distInstr r
  | .trailer, r => .ok (.adlerTrailer (trailerValue r.mem r.n)) r

/-- The host's command: a word written to CTRL is HOST_START exactly when its START bit is 1
(44_stream_driver_adler32.md R300). -/
def decodeHost (w : Word) : Option Instr := if w.getLsbD 0 then some (.hostStart w) else none

/-! ### The encoder -/

/-- The column "format" of opcode_table.json (30_encoding.md R108), F-ST and F-DH in their two parts. -/
inductive Row where
  | zlibHdr | blkHdr | storedLen | storedByte | dynHdr | clCodelen | clSym | litLen | dist | trailer | host
  deriving DecidableEq, Repr

/-- The row format a decoding format reads. -/
def Format.row : Format → Row
  | .zlibHdr => .zlibHdr
  | .blkHdr => .blkHdr
  | .storedLen _ => .storedLen
  | .storedByte => .storedByte
  | .dynHdr => .dynHdr
  | .clCodelen => .clCodelen
  | .clSym _ _ => .clSym
  | .litLen _ => .litLen
  | .dist _ => .dist
  | .trailer => .trailer

/-- A plain field as a bit string in read order, bit 0 first (20_memory.md R66). -/
def fieldBits {n : Nat} (v : BitVec n) : List Bool := (List.range n).map v.getLsbD

/-- The parts of an encoding: its row format, the symbol of a Huffman-coded row, and the plain bits (the fields of a
plain row, the extra bits after a symbol), in read order (30_encoding.md R91, R92). -/
structure Parts where
  row : Row
  sym : Nat
  bits : List Bool
  deriving DecidableEq, Repr

/-- The parts of each instruction's encoding (30_encoding.md R93 to R100). The bytes of the trailer stand most
significant first (R100). -/
def Instr.parts : Instr → Parts
  | .zlibHdr cmf flg => ⟨.zlibHdr, 0, fieldBits cmf ++ fieldBits flg⟩
  | .blkStored f => ⟨.blkHdr, 0, f :: fieldBits (0 : BitVec 2)⟩
  | .blkFixed f => ⟨.blkHdr, 0, f :: fieldBits (1 : BitVec 2)⟩
  | .blkDynamic f => ⟨.blkHdr, 0, f :: fieldBits (2 : BitVec 2)⟩
  | .blkReserved f => ⟨.blkHdr, 0, f :: fieldBits (3 : BitVec 2)⟩
  | .storedLen len nlen => ⟨.storedLen, 0, fieldBits len ++ fieldBits nlen⟩
  | .storedByte b => ⟨.storedByte, 0, fieldBits b⟩
  | .dynHdr hl hd hc => ⟨.dynHdr, 0, fieldBits hl ++ (fieldBits hd ++ fieldBits hc)⟩
  | .clCodelen v => ⟨.clCodelen, 0, fieldBits v⟩
  | .clLen sym => ⟨.clSym, sym.toNat, []⟩
  | .clRepPrev e => ⟨.clSym, 16, fieldBits e⟩
  | .clRepZero3 e => ⟨.clSym, 17, fieldBits e⟩
  | .clRepZero11 e => ⟨.clSym, 18, fieldBits e⟩
  | .lit sym => ⟨.litLen, sym.toNat, []⟩
  | .eob => ⟨.litLen, 256, []⟩
  | .len257 => ⟨.litLen, 257, []⟩
  | .len258 => ⟨.litLen, 258, []⟩
  | .len259 => ⟨.litLen, 259, []⟩
  | .len260 => ⟨.litLen, 260, []⟩
  | .len261 => ⟨.litLen, 261, []⟩
  | .len262 => ⟨.litLen, 262, []⟩
  | .len263 => ⟨.litLen, 263, []⟩
  | .len264 => ⟨.litLen, 264, []⟩
  | .len265 e => ⟨.litLen, 265, fieldBits e⟩
  | .len266 e => ⟨.litLen, 266, fieldBits e⟩
  | .len267 e => ⟨.litLen, 267, fieldBits e⟩
  | .len268 e => ⟨.litLen, 268, fieldBits e⟩
  | .len269 e => ⟨.litLen, 269, fieldBits e⟩
  | .len270 e => ⟨.litLen, 270, fieldBits e⟩
  | .len271 e => ⟨.litLen, 271, fieldBits e⟩
  | .len272 e => ⟨.litLen, 272, fieldBits e⟩
  | .len273 e => ⟨.litLen, 273, fieldBits e⟩
  | .len274 e => ⟨.litLen, 274, fieldBits e⟩
  | .len275 e => ⟨.litLen, 275, fieldBits e⟩
  | .len276 e => ⟨.litLen, 276, fieldBits e⟩
  | .len277 e => ⟨.litLen, 277, fieldBits e⟩
  | .len278 e => ⟨.litLen, 278, fieldBits e⟩
  | .len279 e => ⟨.litLen, 279, fieldBits e⟩
  | .len280 e => ⟨.litLen, 280, fieldBits e⟩
  | .len281 e => ⟨.litLen, 281, fieldBits e⟩
  | .len282 e => ⟨.litLen, 282, fieldBits e⟩
  | .len283 e => ⟨.litLen, 283, fieldBits e⟩
  | .len284 e => ⟨.litLen, 284, fieldBits e⟩
  | .len285 => ⟨.litLen, 285, []⟩
  | .llReserved sym => ⟨.litLen, sym.toNat, []⟩
  | .dist0 => ⟨.dist, 0, []⟩
  | .dist1 => ⟨.dist, 1, []⟩
  | .dist2 => ⟨.dist, 2, []⟩
  | .dist3 => ⟨.dist, 3, []⟩
  | .dist4 e => ⟨.dist, 4, fieldBits e⟩
  | .dist5 e => ⟨.dist, 5, fieldBits e⟩
  | .dist6 e => ⟨.dist, 6, fieldBits e⟩
  | .dist7 e => ⟨.dist, 7, fieldBits e⟩
  | .dist8 e => ⟨.dist, 8, fieldBits e⟩
  | .dist9 e => ⟨.dist, 9, fieldBits e⟩
  | .dist10 e => ⟨.dist, 10, fieldBits e⟩
  | .dist11 e => ⟨.dist, 11, fieldBits e⟩
  | .dist12 e => ⟨.dist, 12, fieldBits e⟩
  | .dist13 e => ⟨.dist, 13, fieldBits e⟩
  | .dist14 e => ⟨.dist, 14, fieldBits e⟩
  | .dist15 e => ⟨.dist, 15, fieldBits e⟩
  | .dist16 e => ⟨.dist, 16, fieldBits e⟩
  | .dist17 e => ⟨.dist, 17, fieldBits e⟩
  | .dist18 e => ⟨.dist, 18, fieldBits e⟩
  | .dist19 e => ⟨.dist, 19, fieldBits e⟩
  | .dist20 e => ⟨.dist, 20, fieldBits e⟩
  | .dist21 e => ⟨.dist, 21, fieldBits e⟩
  | .dist22 e => ⟨.dist, 22, fieldBits e⟩
  | .dist23 e => ⟨.dist, 23, fieldBits e⟩
  | .dist24 e => ⟨.dist, 24, fieldBits e⟩
  | .dist25 e => ⟨.dist, 25, fieldBits e⟩
  | .dist26 e => ⟨.dist, 26, fieldBits e⟩
  | .dist27 e => ⟨.dist, 27, fieldBits e⟩
  | .dist28 e => ⟨.dist, 28, fieldBits e⟩
  | .dist29 e => ⟨.dist, 29, fieldBits e⟩
  | .distReserved sym => ⟨.dist, sym.toNat, []⟩
  | .adlerTrailer t =>
    ⟨.trailer, 0, fieldBits (t.extractLsb' 24 8) ++ fieldBits (t.extractLsb' 16 8)
      ++ fieldBits (t.extractLsb' 8 8) ++ fieldBits (t.extractLsb' 0 8)⟩
  | .hostStart w => ⟨.host, 0, fieldBits w⟩

/-- A Huffman-coded encoding: the canonical code of the symbol, then the extra bits. -/
def encodeCoded (t : Huff) (p : Parts) : Option (List Bool) :=
  match codeOf t p.sym with
  | none => none
  | some code => some (code ++ p.bits)

/-- The encoder: the bits of an instruction in a format, in read order; none where the instruction has no encoding
there (another format, an ill-formed instruction, a symbol with no code in the table). Padding before LEN
is not part of it. At the first code length CL_REP_PREV is its code alone (42_block_dispatch.md R186). -/
def encode (f : Format) (i : Instr) : Option (List Bool) :=
  if i.wf && i.parts.row == f.row then
    match f with
    | .clSym t first =>
      if first && i.parts.sym == 16 then (if i = .clRepPrev 0 then codeOf t 16 else none)
      else encodeCoded t i.parts
    | .litLen t => encodeCoded t i.parts
    | .dist t => encodeCoded t i.parts
    | _ => some i.parts.bits
  else none

/-- The next bits of a reader, in read order, are `bits`, each of them within the region (40_bitstream_reader.md R122). -/
def Machine.Reader.sees : List Bool → Reader → Prop
  | [], _ => True
  | b :: bits, r => r.getBit = .ok b (r.skip 1) ∧ Machine.Reader.sees bits (r.skip 1)

/-! ### Opcode-table numbers -/

/-- The number a bit string stands for, its first bit bit 0. -/
def bitsValue : List Bool → Nat
  | [] => 0
  | b :: bits => b.toNat + 2 * bitsValue bits

/-- The bytes that hold a bit string from bit 0 of the first byte on, the last byte filled up with zeros
(20_memory.md R65), and three zero bytes after them. -/
def packBits (bits : List Bool) : List Byte :=
  (List.range (bits.length / 8 + 4)).map fun k => BitVec.ofNat 8 (bitsValue ((bits.drop (8 * k)).take 8))

/-- A memory holding `bytes` from address `base` on. -/
def storeBytes (mem : Memory) (base : Nat) : List Byte → Memory
  | [] => mem
  | b :: bytes => storeBytes (mem.write base b) (base + 1) bytes

/-- The code-length table a loaded CL symbol is spelled with: every symbol 0 to 18 has the 5-bit code of its value. -/
def loadClTable : HuffTable :=
  { counts := [0, 0, 0, 0, 0, 19, 0, 0, 0, 0, 0, 0, 0, 0, 0, 0], symbols := (List.range 19).map (BitVec.ofNat 16) }

/-- The distance table a loaded D symbol is spelled with: every symbol 0 to 31 has the 5-bit code of its value. -/
def loadDistTable : HuffTable :=
  { counts := [0, 0, 0, 0, 0, 32, 0, 0, 0, 0, 0, 0, 0, 0, 0, 0],
    symbols := (List.range 32).map (BitVec.ofNat 16) ++ List.replicate 256 0 }

/-- Which row format a number of opcode_table.json is read in. The numbers of different rows coincide (0 is
BLK_STORED, CL_LEN 0, LIT 0 and DIST_0), because what a bit string means depends on the engine's state;
one of them is taken. DESIGN CHOICE (log 11). -/
def tableRow (nbits w : Nat) : Option Row :=
  if nbits = 0 then some .trailer
  else if 2 ^ nbits ≤ w then none
  else if nbits ≤ 8 then
    if w = 1 then some .host
    else if w = 0 ∨ w = 2 ∨ w = 4 ∨ w = 6 then some .blkHdr
    else if w = 16 ∨ w = 17 then some .clSym
    else if w < 32 then some .dist
    else some .storedByte
  else if nbits ≤ 16 then
    if 256 ≤ w ∧ w < 288 then some .litLen
    else if w % 16 = 8 ∧ w / 128 % 2 = 0 ∧ w / 8192 % 2 = 0 then some .zlibHdr
    else if w < 256 then some .litLen
    else if w < 16384 then some .dynHdr
    else none
  else if nbits ≤ 24 then
    if w = 18 then some .clSym else if 16 ≤ w ∧ w < 32 then some .dist else none
  else if nbits ≤ 32 then
    if 24 ≤ w ∧ w < 32 then some .dist
    else if w / 65536 = 65535 - w % 65536 then some .storedLen
    else some .trailer
  else none

/-- The bits of an opcode-table number as the hardware stores them: a plain row's value from its bit 0 on
(30_encoding.md R91), a coded row's symbol as its code in the table of the load (R92), a trailer's bytes most
significant first; every bit above is 0. -/
def loadBits (row : Row) (w : Nat) : List Bool :=
  match row with
  | .clSym => ((codeOf loadClTable.code w).getD [])
  | .litLen => ((codeOf fixedLit w).getD [])
  | .dist => ((codeOf loadDistTable.code w).getD [])
  | .trailer => (Instr.adlerTrailer (BitVec.ofNat 32 w)).parts.bits
  | .zlibHdr => fieldBits (BitVec.ofNat 16 w)
  | .blkHdr => fieldBits (BitVec.ofNat 3 w)
  | .storedLen => fieldBits (BitVec.ofNat 32 w)
  | .storedByte => fieldBits (BitVec.ofNat 8 w)
  | .dynHdr => fieldBits (BitVec.ofNat 14 w)
  | .clCodelen => fieldBits (BitVec.ofNat 3 w)
  | .host => fieldBits (BitVec.ofNat 32 w)

/-- The decoding format an opcode-table number is loaded for; none for the host's command. -/
def loadFormat : Row → Option Format
  | .zlibHdr => some .zlibHdr
  | .blkHdr => some .blkHdr
  | .storedLen => some (.storedLen false)
  | .storedByte => some .storedByte
  | .dynHdr => some .dynHdr
  | .clCodelen => some .clCodelen
  | .clSym => some (.clSym loadClTable.code true)
  | .litLen => some (.litLen fixedLit)
  | .dist => some (.dist loadDistTable.code)
  | .trailer => some .trailer
  | .host => none

/-- Where the bytes of a loaded instruction stand in IN: the zlib header at offset 0, anything else at offset 2
(44_stream_driver_adler32.md R302, R308); the trailer's four bytes are the last of IN. -/
def loadBase (row : Row) : Nat := if row = .zlibHdr then 0 else 2

/-- The input length N of a loaded instruction: its bytes and four more, so that the bit region covers it
(40_bitstream_reader.md R121); a trailer is the last four of six bytes. -/
def loadLength (row : Row) (w : Nat) : Nat :=
  if row = .trailer then 6 else 2 + (packBits (loadBits row w)).length + 4

/-- The reader over a loaded instruction. -/
def loadReader (row : Row) (w : Nat) : Reader :=
  { mem := storeBytes [] (loadBase row) (packBits (loadBits row w)), n := loadLength row w,
    stop := loadLength row w - 4, pos := if row = .zlibHdr then 0 else cursorAt 2 0 }

/-- The instruction the decoder reads from an opcode-table number (bit 0 the least significant bit of the first
word), laid out as the hardware stores it. -/
def decodeTableWord (nbits w : Nat) : Option Instr :=
  match tableRow nbits w with
  | none => none
  | some row =>
    match loadFormat row with
    | none => decodeHost (BitVec.ofNat 32 w)
    | some f =>
      match decode f (loadReader row w) with
      | .ok i _ => some i
      | _ => none

end Sys2Proof
end

