-- ==== Sys2Proof/Machine/HostPort.lean ====
section
/-! DEFINITION. The host's side of the block: register reads and writes (10_state.md R22 to R32, 20_memory.md R61), the
buffer memories (20_memory.md R60, R78), what the host sees during a job (10_state.md R42), and reset
(70_reset_and_hazards.md R360, R361). -/

namespace Sys2Proof.Machine

/-- What happens next: an instruction to run on a state, or an outcome already settled. -/
inductive Action where
  | run (i : Instr) (s : State)
  | settled (o : Outcome)

/-- Where a host address leads (20_memory.md R60): an offset of REG, IN or OUT, or nowhere. -/
inductive Target where
  | reg (offset : Nat)
  | input (offset : Nat)
  | output (offset : Nat)
  | nowhere
  deriving DecidableEq, Repr

/-- The location at a host address: REG, IN and OUT stand at REG_BASE, IN_BASE and OUT_BASE (20_memory.md R60, R74). Where
a platform lets them overlap, REG comes first and then IN: DESIGN CHOICE (log 2). -/
def route (p : Config.Params) (addr : Nat) : Target :=
  if p.regBase ≤ addr ∧ addr < p.regBase + 64 then .reg (addr - p.regBase)
  else if p.inBase ≤ addr ∧ addr < p.inBase + p.inMemSize then .input (addr - p.inBase)
  else if p.outBase ≤ addr ∧ addr < p.outBase + p.outMemSize then .output (addr - p.outBase)
  else .nowhere

/-- A value a write-any-read-legal length register keeps: `min(v, size)` (10_state.md R25, R26). -/
def legalLength (v : Word) (size : Nat) : Word := BitVec.ofNat 32 (min v.toNat size)

/-- A host write of a register (10_state.md R23 to R32): CTRL starts a job or stores STORED_ALIGN; IN_LEN and OUT_CAP keep
the legal value; every other offset, and every write while BUSY = 1 (70_reset_and_hazards.md R365), is
ignored. -/
def writeReg (offset : Nat) (v : Word) (s : State) : Action :=
  if offset = 0x00 then
    match decodeHost v with
    | some i => .run i s
    | none => .settled (.next (if s.busy then s else { s with storedAlign := v.getLsbD 1 }))
  else if s.busy then .settled (.next s)
  else if offset = 0x08 then .settled (.next { s with inLen := legalLength v s.params.inMemSize })
  else if offset = 0x0C then .settled (.next { s with outCap := legalLength v s.params.outMemSize })
  else .settled (.next s)

/-- What a read of a result register shows of a drawn value: all 32 bits, but of FSM the state field in bits 3:0 only;
its bits 31:4 read 0 at any time (10_state.md R31, 93_implementation_defined.md U23). -/
def drawnReg (offset : Nat) (v : Word) : Word := if offset = 0x20 then (v.setWidth 4).setWidth 32 else v

/-- A draw of a result register: any value its bits can show (10_state.md R42). -/
def drawReg (offset : Nat) (s : State) : State :=
  { s with busData := drawnReg offset (Config.freeWord s.draws), draws := s.draws + 1 }

/-- A draw of a buffer byte: any value (10_state.md R42). -/
def drawByte (s : State) : State :=
  { s with busData := (Config.freeByte s.draws).setWidth 32, draws := s.draws + 1 }

/-- The value of a register the host may read at any time (10_state.md R23 to R26, R32): CTRL, STATUS, IN_LEN, OUT_CAP and
the reserved offsets; none for the result registers. -/
def steadyReg (offset : Nat) (s : State) : Option Word :=
  if offset = 0x00 then some s.ctrlWord
  else if offset = 0x04 then some s.statusWord
  else if offset = 0x08 then some s.inLen
  else if offset = 0x0C then some s.outCap
  else if 0x24 ≤ offset then some 0
  else none

/-- The value of a result register (10_state.md R27 to R31). -/
def resultReg (offset : Nat) (s : State) : Word :=
  if offset = 0x10 then s.outLen
  else if offset = 0x14 then s.adlerWord
  else if offset = 0x18 then s.trailer
  else if offset = 0x1C then s.inPos
  else s.fsmWord

/-- A host read of a register: no side effect on the block (20_memory.md R73); a result register read while BUSY = 1
returns a draw (10_state.md R42). -/
def readReg (offset : Nat) (s : State) : State :=
  match steadyReg offset s with
  | some v => { s with busData := v }
  | none => if s.busy then drawReg offset s else { s with busData := resultReg offset s }

/-- A host write at a host address (20_memory.md R60, R61, R78). -/
def busWrite (addr width : Nat) (v : Word) (s : State) : Action :=
  match route s.params addr with
  | .reg o => if width ≠ 4 ∨ o % 4 ≠ 0 then .settled (.refused .regAccess) else writeReg o v s
  | .input o =>
    if width ≠ 1 then .settled (.refused .bufferAccess)
    else if s.busy then .settled (.refused .hostWriteWhileBusy)
    else .settled (.next { s with inMem := s.inMem.write o (v.setWidth 8) })
  | .output o =>
    if width ≠ 1 then .settled (.refused .bufferAccess)
    else if s.busy then .settled (.refused .hostWriteWhileBusy)
    else .settled (.next { s with outMem := s.outMem.write o (v.setWidth 8) })
  | .nowhere => .settled (.fault .noSuchHostAddress)

/-- A host read at a host address (20_memory.md R60, R61, R73, 10_state.md R42). A buffer byte read while BUSY = 1 is a
draw; for IN the spec gives the host reads while idle only, and the draw is the model's (DESIGN CHOICE, log 7). -/
def busRead (addr width : Nat) (s : State) : Action :=
  match route s.params addr with
  | .reg o => if width ≠ 4 ∨ o % 4 ≠ 0 then .settled (.refused .regAccess) else .settled (.next (readReg o s))
  | .input o =>
    if width ≠ 1 then .settled (.refused .bufferAccess)
    else if s.busy then .settled (.next (drawByte s))
    else .settled (.next { s with busData := (s.inMem.read o).setWidth 32 })
  | .output o =>
    if width ≠ 1 then .settled (.refused .bufferAccess)
    else if s.busy then .settled (.next (drawByte s))
    else .settled (.next { s with busData := (s.outMem.read o).setWidth 32 })
  | .nowhere => .settled (.fault .noSuchHostAddress)

/-- A reset of the block (70_reset_and_hazards.md R360, R361): every register as after reset; IN and OUT are not changed; a
running job ends with no DONE and no ERROR. The platform's parameters and the host's side stay. -/
def resetBlock (s : State) : State :=
  { State.reset with
    inMem := s.inMem
    outMem := s.outMem
    params := s.params
    hostMoves := s.hostMoves
    busData := s.busData
    draws := s.draws }

end Sys2Proof.Machine
end

