-- ==== Sys2Proof/Machine/Fetch.lean ====
section
/-! DEFINITION. Which action a step takes: the host's next move, or the instruction the engine reads at its cursor
(20_memory.md R75, R76; 42_block_dispatch.md R170); and the placing of one instruction where the next step
reads it. -/

namespace Sys2Proof.Machine

/-- The format of the next instruction of a running job (30_encoding.md R105), from the engine's control point, the tables
in use and the latch ALIGN. -/
def State.format (s : State) : Format :=
  match s.expect with
  | .zlibHdr => .zlibHdr
  | .blkHdr => .blkHdr
  | .storedLen => .storedLen s.align
  | .storedByte => .storedByte
  | .dynHdr => .dynHdr
  | .clCodelen => .clCodelen
  | .clSym => .clSym s.clT.code (s.num == 0)
  | .litLen => .litLen s.lt
  | .dist => .dist s.dt
  | .trailer => .trailer

/-- The latches written by a plain field group that runs out of input part-way: `bfinal` (42_block_dispatch.md R171), LEN
(R178), the cleared arrays and the counts read so far (R181). -/
def latchPart (f : Format) (got : List Nat) (s : State) : State :=
  match f, got with
  | .blkHdr, [bfinal] => { s with bfinal := bfinal == 1 }
  | .storedLen _, [len] => { s with len := BitVec.ofNat 16 len }
  | .dynHdr, [] => clearLens s
  | .dynHdr, [hlit] => { clearLens s with hlit := BitVec.ofNat 9 (257 + hlit) }
  | .dynHdr, [hlit, hdist] =>
    { clearLens s with hlit := BitVec.ofNat 9 (257 + hlit), hdist := BitVec.ofNat 6 (1 + hdist) }
  | _, _ => s

/-- The engine's next action: it decodes the instruction at the cursor, which then stands after the instruction's bits
(40_bitstream_reader.md R126); a read past the region or a code that is none raises its error there (R341,
R340 of 60_exceptions.md). Outside a job the engine takes no step (60_exceptions.md R352). -/
def engineAction (s : State) : Action :=
  if s.busy then
    match decode s.format s.reader with
    | .ok i r => .run i { s with inPos := r.pos }
    | .exhausted got r => .settled (.next (raise .inputExhausted (latchPart s.format got { s with inPos := r.pos })))
    | .noCode r => .settled (.next (raise .huffmanDecodeOutOfRange { s with inPos := r.pos }))
    | .noClSymbol _ => .settled (.refused .noClSymbol)
  else .settled (.next s)

/-- One move of the host (70_reset_and_hazards.md R372). -/
def hostAction (m : HostMove) (s : State) : Action :=
  match m with
  | .pass => engineAction s
  | .busWrite addr width v => busWrite addr width v s
  | .busRead addr width => busRead addr width s
  | .reset => .settled (.next (resetBlock s))

/-- The next action: the host's pending move, if there is one, and otherwise the engine's (10_state.md R20). The pending
moves say how the two agents interleave: DESIGN CHOICE (log 4). -/
def nextAction (s : State) : Action :=
  match s.hostMoves with
  | [] => engineAction s
  | m :: moves => hostAction m { s with hostMoves := moves }

/-- The engine's control point for a row format. -/
def Row.expect : Row → Expect
  | .zlibHdr => .zlibHdr
  | .blkHdr => .blkHdr
  | .storedLen => .storedLen
  | .storedByte => .storedByte
  | .dynHdr => .dynHdr
  | .clCodelen => .clCodelen
  | .clSym => .clSym
  | .litLen => .litLen
  | .dist => .dist
  | .trailer => .trailer
  | .host => .zlibHdr

/-- FSM at a control point, the tables being fixed for a literal and dynamic for a distance (10_state.md R31). -/
def Row.fsm : Row → Fsm
  | .zlibHdr => .zlibHeader
  | .blkHdr => .blockHeader
  | .storedLen => .stored
  | .storedByte => .stored
  | .dynHdr => .dynamicHeader
  | .clCodelen => .dynamicHeader
  | .clSym => .dynamicHeader
  | .litLen => .fixed
  | .dist => .dynamic
  | .trailer => .trailer
  | .host => .idle

/-- The state with a loaded stream instruction where the engine reads next: a running job whose input is the instruction
(its bytes, its length), the control point, and the table that spells a coded symbol. -/
def placeInstr (row : Row) (w : Nat) (s : State) : State :=
  { s with
    busy := true
    done := false
    error := false
    errcode := 0
    inMem := (loadReader row w).mem
    inLen := BitVec.ofNat 32 (loadLength row w)
    n := BitVec.ofNat 32 (loadLength row w)
    e := BitVec.ofNat 32 (loadLength row w - 4)
    align := false
    storedAlign := false
    inPos := (loadReader row w).pos
    fsm := Row.fsm row
    expect := Row.expect row
    num := if row = .clSym then 0 else s.num
    clT := if row = .clSym then loadClTable else s.clT
    distT := if row = .dist then loadDistTable else s.distT
    tables := if row = .litLen then .fixed else if row = .dist then .dynamic else s.tables
    hostMoves := .pass :: s.hostMoves }

/-- The state with an opcode-table number placed where the next step reads its instruction: a stream instruction at the
engine's cursor, the host's command as its next move. -/
def placeWord (nbits w : Nat) (s : State) : State :=
  match tableRow nbits w with
  | none => s
  | some row =>
    if row = .host then { s with hostMoves := .busWrite s.params.regBase 4 (BitVec.ofNat 32 w) :: s.hostMoves }
    else placeInstr row w s

end Sys2Proof.Machine
end

