-- ==== Sys2Proof/Machine/Step.lean ====
section
/-! DEFINITION. One step of the machine, and the state with one instruction placed where the next step reads it. -/

namespace Sys2Proof.Machine

/-- What an action answers: of an instruction, its meaning on the state the fetch left. -/
def Action.outcome : Action → Host.Outcome State Fault Refusal
  | .run i s => exec i s
  | .settled o => o

/-- One step: the next action (10_state.md R20, 20_memory.md R75). An instruction is one step, an instruction of the stream
as well as HOST_START; so is every other move of the host. -/
def step (s : State) : Host.Outcome State Fault Refusal :=
  (nextAction s).outcome

/-- The state with an instruction of the opcode table placed where `step` reads its next instruction. -/
def State.withFetchWord (s : State) (nbits w : Nat) : State := placeWord nbits w s

end Sys2Proof.Machine
end

