-- ==== Sys2Proof/Safety.lean ====
section
/-! DEFINITION. What a claim about the block may rely on: the invariant of its states (`State.Inv`, in parts), the output a
job has produced, and the memory frame. Rules that hold "at every step boundary" are stated in these terms. -/

namespace Sys2Proof

/-- The host addresses of REG, IN and OUT do not overlap (20_memory.md R60, R74). -/
def Config.Params.disjoint (p : Config.Params) : Prop :=
  ∀ a : Nat,
    let inReg := p.regBase ≤ a ∧ a < p.regBase + 64
    let inIn := p.inBase ≤ a ∧ a < p.inBase + p.inMemSize
    let inOut := p.outBase ≤ a ∧ a < p.outBase + p.outMemSize
    ¬ (inReg ∧ inIn) ∧ ¬ (inReg ∧ inOut) ∧ ¬ (inIn ∧ inOut)

end Sys2Proof

namespace Sys2Proof.Machine

/-- The memories have the canonical form. -/
def State.memoriesCanonical (s : State) : Prop := s.inMem.wf = true ∧ s.outMem.wf = true ∧ s.window.wf = true

/-- The memories list only addresses of their spaces (20_memory.md R60). -/
def State.memoriesInSpace (s : State) : Prop :=
  s.inMem.below s.params.inMemSize = true ∧ s.outMem.below s.params.outMemSize = true
    ∧ s.window.below Config.wsize = true

/-- A table RAM has 16 counts and `cap` symbol entries, each a symbol below `bound` (10_state.md R35). -/
def HuffTable.sized (t : HuffTable) (cap bound : Nat) : Prop :=
  t.counts.length = 16 ∧ t.symbols.length = cap ∧ ∀ x ∈ t.symbols, x.toNat < bound

/-- The RAMs have their sizes and their symbols lie in their alphabets (10_state.md R35, R37; 42_block_dispatch.md R190). -/
def State.ramsSized (s : State) : Prop :=
  s.clT.sized 19 19 ∧ s.litT.sized 288 288 ∧ s.distT.sized 288 32 ∧ s.clLens.length = 19 ∧ s.lens.length = 320

/-- The length registers hold legal values (10_state.md R25, R26). -/
def State.lengthsLegal (s : State) : Prop :=
  s.inLen.toNat ≤ s.params.inMemSize ∧ s.outCap.toNat ≤ s.params.outMemSize

/-- The Adler-32 sums are reduced (10_state.md R28). -/
def State.sumsReduced (s : State) : Prop := s.adlerA.toNat < Config.adlerMod ∧ s.adlerB.toNat < Config.adlerMod

/-- The write pointer follows the emitted count (10_state.md R33). -/
def State.pointerFollows (s : State) : Prop := s.wp.toNat = s.outLen.toNat % Config.wsize

/-- The legal combinations of (BUSY, DONE, ERROR) with FSM and ERRCODE (10_state.md R24, R31; 60_exceptions.md R330). -/
def State.statusLegal (s : State) : Prop :=
  (s.busy = false ∧ s.done = false ∧ s.error = false ∧ s.errcode = 0 ∧ s.fsm = .idle)
  ∨ (s.busy = true ∧ s.done = false ∧ s.error = false ∧ s.errcode = 0
      ∧ s.fsm ≠ .idle ∧ s.fsm ≠ .done ∧ s.fsm ≠ .error)
  ∨ (s.busy = false ∧ s.done = true ∧ s.error = false ∧ s.errcode = 0 ∧ s.fsm = .done)
  ∨ (s.busy = false ∧ s.done = false ∧ s.error = true ∧ 1 ≤ s.errcode.toNat ∧ s.errcode.toNat ≤ 13 ∧ s.fsm = .error)

/-- During a job the latches equal the registers (10_state.md R39), and the output fits (43_lz77_window_emitter.md R212). -/
def State.latchesFollow (s : State) : Prop :=
  s.n = s.inLen ∧ s.cap = s.outCap ∧ s.align = s.storedAlign ∧ s.e.toNat = max 2 (s.n.toNat - 4)
    ∧ s.outLen.toNat ≤ s.cap.toNat

/-- During a job the cursor lies in the bit region from the accepted header on (40_bitstream_reader.md R127), past its
start once a block header has been read. -/
def State.cursorInRegion (s : State) : Prop :=
  if s.expect = .zlibHdr then s.inPos = 0 ∧ s.outLen = 0
  else if s.expect = .blkHdr then 16 ≤ s.inPos.toNat ∧ s.inPos.toNat ≤ 8 * s.e.toNat
  else 16 < s.inPos.toNat ∧ s.inPos.toNat ≤ 8 * s.e.toNat

/-- The dynamic-header latches are in their ranges (10_state.md R38). -/
def State.countsLegal (s : State) : Prop :=
  257 ≤ s.hlit.toNat ∧ s.hlit.toNat ≤ 288 ∧ 1 ≤ s.hdist.toNat ∧ s.hdist.toNat ≤ 32
    ∧ 4 ≤ s.hclen.toNat ∧ s.hclen.toNat ≤ 19

/-- FSM and `tables` inside a Huffman-coded body (42_block_dispatch.md R180, R192). -/
def State.bodyOf (s : State) : Prop :=
  (s.fsm = .fixed ∧ s.tables = .fixed) ∨ (s.fsm = .dynamic ∧ s.tables = .dynamic)

/-- During a job FSM and the latches agree with the control point. -/
def State.controlLegal (s : State) : Prop :=
  match s.expect with
  | .zlibHdr => s.fsm = .zlibHeader
  | .blkHdr => s.fsm = .blockHeader
  | .storedLen => s.fsm = .stored
  | .storedByte => s.fsm = .stored ∧ 1 ≤ s.storedLeft ∧ s.storedLeft ≤ s.len.toNat
  | .dynHdr => s.fsm = .dynamicHeader
  | .clCodelen => s.fsm = .dynamicHeader ∧ s.countsLegal ∧ s.clIndex < s.hclen.toNat
  | .clSym => s.fsm = .dynamicHeader ∧ s.countsLegal ∧ s.num.toNat < s.lensTotal
  | .litLen => s.bodyOf
  | .dist => s.bodyOf ∧ 3 ≤ s.length.toNat ∧ s.length.toNat ≤ 258
  | .trailer => s.fsm = .trailer ∧ s.bfinal = true

/-- The invariant of the block's states: it holds at reset and every step keeps it. -/
structure State.Inv (s : State) : Prop where
  params : s.params.legal = true
  canonical : s.memoriesCanonical
  inSpace : s.memoriesInSpace
  rams : s.ramsSized
  lengths : s.lengthsLegal
  sums : s.sumsReduced
  pointer : s.pointerFollows
  status : s.statusLegal
  latches : s.busy = true → s.latchesFollow
  cursor : s.busy = true → s.cursorInRegion
  control : s.busy = true → s.controlLegal

/-- `OUT[0 .. OUT_LEN)`, what the job has produced so far (10_state.md R27). -/
def State.output (s : State) : List Byte := (List.range s.outLen.toNat).map s.outMem.read

/-- The Adler-32 sums after the bytes of a list, from `a` and `b` (44_stream_driver_adler32.md R309): computed on
numbers. -/
def adlerSums (a b : Nat) : List Byte → Nat × Nat
  | [] => (a, b)
  | v :: vs => adlerSums ((a + v.toNat) % 65521) ((b + (a + v.toNat) % 65521) % 65521) vs

/-- ADLER is the Adler-32 of the output so far (44_stream_driver_adler32.md R311). -/
def State.checksumOfOutput (s : State) : Prop := (s.adlerA.toNat, s.adlerB.toNat) = adlerSums 1 0 s.output

/-- The window holds the last bytes of the output (43_lz77_window_emitter.md R278). -/
def State.windowMirrors (s : State) : Prop :=
  ∀ k, 1 ≤ k → k ≤ Config.wsize → k ≤ s.outLen.toNat →
    s.window.read ((s.wp.toNat + Config.wsize - k) % Config.wsize) = s.outMem.read (s.outLen.toNat - k)

/-- Every byte of IN, OUT and WINDOW reads as before. -/
def State.sameBytes (s t : State) : Prop :=
  (∀ a, t.inMem.read a = s.inMem.read a) ∧ (∀ a, t.outMem.read a = s.outMem.read a)
    ∧ (∀ a, t.window.read a = s.window.read a)

/-- The engine acts in this step: no host move is pending, or the host passes. -/
def State.engineTurn (s : State) : Prop := s.hostMoves = [] ∨ ∃ moves, s.hostMoves = .pass :: moves

/-- What a piece of output leaves (43_lz77_window_emitter.md R212, 44_stream_driver_adler32.md R309): the bytes `bs` stand in
OUT from OUT_LEN on and in WINDOW from `wp` on (mod 32768), every other byte of both reads as before, the
counts advance, and the sums are those after `bs`. -/
def State.appended (s t : State) (bs : List Byte) : Prop :=
  t.outLen.toNat = s.outLen.toNat + bs.length
  ∧ t.wp.toNat = (s.wp.toNat + bs.length) % 32768
  ∧ (∀ k, k < bs.length → t.outMem.read (s.outLen.toNat + k) = bs.getD k 0)
  ∧ (∀ a, a < s.outLen.toNat ∨ s.outLen.toNat + bs.length ≤ a → t.outMem.read a = s.outMem.read a)
  ∧ (∀ k, k < bs.length → t.window.read ((s.wp.toNat + k) % 32768) = bs.getD k 0)
  ∧ (∀ a, (∀ k, k < bs.length → a ≠ (s.wp.toNat + k) % 32768) → t.window.read a = s.window.read a)
  ∧ (t.adlerA.toNat, t.adlerB.toNat) = adlerSums s.adlerA.toNat s.adlerB.toNat bs

/-- `u` is `t` but for what `emit` writes (43_lz77_window_emitter.md R212: OUT, WINDOW, `wp`, OUT_LEN, ADLER). -/
def State.sameButOutput (t u : State) : Prop :=
  u = { t with
    outMem := u.outMem
    window := u.window
    wp := u.wp
    outLen := u.outLen
    adlerA := u.adlerA
    adlerB := u.adlerB }

/-- The bytes a match of the latched length at distance `d` replays: the last `d` bytes of the window, repeated with period
`d` (43_lz77_window_emitter.md R277). -/
def State.replay (s : State) (d : Nat) : List Byte :=
  (List.range s.length.toNat).map fun k => s.window.read ((s.wp.toNat + 32768 - d + k % d) % 32768)

/-- The distance a distance code stands for (43_lz77_window_emitter.md R245 to R274). -/
def matchDistance : Instr → Option Nat
  | .dist0 => some 1
  | .dist1 => some 2
  | .dist2 => some 3
  | .dist3 => some 4
  | .dist4 e => some (5 + e.toNat)
  | .dist5 e => some (7 + e.toNat)
  | .dist6 e => some (9 + e.toNat)
  | .dist7 e => some (13 + e.toNat)
  | .dist8 e => some (17 + e.toNat)
  | .dist9 e => some (25 + e.toNat)
  | .dist10 e => some (33 + e.toNat)
  | .dist11 e => some (49 + e.toNat)
  | .dist12 e => some (65 + e.toNat)
  | .dist13 e => some (97 + e.toNat)
  | .dist14 e => some (129 + e.toNat)
  | .dist15 e => some (193 + e.toNat)
  | .dist16 e => some (257 + e.toNat)
  | .dist17 e => some (385 + e.toNat)
  | .dist18 e => some (513 + e.toNat)
  | .dist19 e => some (769 + e.toNat)
  | .dist20 e => some (1025 + e.toNat)
  | .dist21 e => some (1537 + e.toNat)
  | .dist22 e => some (2049 + e.toNat)
  | .dist23 e => some (3073 + e.toNat)
  | .dist24 e => some (4097 + e.toNat)
  | .dist25 e => some (6145 + e.toNat)
  | .dist26 e => some (8193 + e.toNat)
  | .dist27 e => some (12289 + e.toNat)
  | .dist28 e => some (16385 + e.toNat)
  | .dist29 e => some (24577 + e.toNat)
  | _ => none

/-- The instructions that write output: STORED_BYTE, LIT and the distance codes (43_lz77_window_emitter.md R212: `emit` is
called by R179, R211 and R277 and by nothing else). -/
def emitsOutput (i : Instr) : Bool :=
  match i with
  | .storedByte _ => true
  | .lit _ => true
  | i => (matchDistance i).isSome

/-- The code-length entries after a write of `rep` copies of `v` at `num`, and where the code-length loop goes on
(42_block_dispatch.md R184 to R188): one more symbol while `num < HLIT + HDIST`, else the two tables are built from the
entries (R191) and the dynamic body begins (R192). Nothing else changes. -/
def State.lengthsWritten (s t : State) (rep : Nat) (v : BitVec 4) : Prop :=
  t.lens.length = s.lens.length
  ∧ (∀ j, j < s.lens.length →
      t.lens.getD j 0 = if s.num.toNat ≤ j ∧ j < s.num.toNat + rep then v else s.lens.getD j 0)
  ∧ t.num.toNat = s.num.toNat + rep
  ∧ (s.num.toNat + rep < s.hlit.toNat + s.hdist.toNat →
      t = { s with lens := t.lens, num := t.num, expect := .clSym })
  ∧ (s.num.toNat + rep = s.hlit.toNat + s.hdist.toNat →
      t = { s with
        lens := t.lens
        num := t.num
        litT := buildTable s.litT ((t.lens.take s.hlit.toNat).map BitVec.toNat)
        distT := buildTable s.distT (((t.lens.drop s.hlit.toNat).take s.hdist.toNat).map BitVec.toNat)
        tables := .dynamic
        fsm := .dynamic
        expect := .litLen })

/-- The number of symbols of a nonzero length (41_huffman.md R142). -/
def lenCount (lengths : List Nat) (len : Nat) : Nat := if len = 0 then 0 else lengths.count len

/-- `first[L]` of 41_huffman.md R145. -/
def firstCode (lengths : List Nat) : Nat → Nat
  | 0 => 0
  | len + 1 => 2 * (firstCode lengths len + lenCount lengths len)

/-- The Kraft sum of 41_huffman.md R145, in units of 2^-15. -/
def kraftSum (lengths : List Nat) : Nat := (lengths.map fun l => if l = 0 then 0 else 2 ^ (15 - l)).sum

/-- The symbols with a code, ordered by (length, symbol) (41_huffman.md R145). -/
def codedSymbols (lengths : List Nat) : List Nat :=
  (List.range' 1 15).flatMap fun len => (List.range lengths.length).filter fun s => lengths.getD s 0 == len

/-- What the host can read of a finished job (70_reset_and_hazards.md R371). -/
structure Observed where
  status : Word
  outLen : Word
  adler : Word
  trailer : Word
  inPos : Word
  fsm : Word
  output : List Byte
  deriving DecidableEq, Repr

/-- The observable result of a job (70_reset_and_hazards.md R371). -/
def State.observed (s : State) : Observed :=
  { status := s.statusWord
    outLen := s.outLen
    adler := s.adlerWord
    trailer := s.trailer
    inPos := s.inPos
    fsm := s.fsmWord
    output := s.output }

/-- STATUS and FSM after an instruction that is not ADLER_TRAILER or HOST_START: the flags as before, or those of an error
(60_exceptions.md R331). -/
def State.flagsKeptOrError (s t : State) : Prop :=
  (t.busy = s.busy ∧ t.done = s.done ∧ t.error = s.error ∧ t.errcode = s.errcode)
  ∨ (t.busy = false ∧ t.done = false ∧ t.error = true ∧ 1 ≤ t.errcode.toNat ∧ t.errcode.toNat ≤ 13 ∧ t.fsm = .error)

/-- `t` is `s` but for STATUS, FSM and the engine's control point. -/
def State.sameData (s t : State) : Prop :=
  t = { s with
    busy := t.busy
    done := t.done
    error := t.error
    errcode := t.errcode
    fsm := t.fsm
    expect := t.expect }

/-- What an instruction of the stream may write beside STATUS, FSM and the control point: the fields its rule names under
"State written" (42_block_dispatch.md, 43_lz77_window_emitter.md, 44_stream_driver_adler32.md). `u` is the
state before with those fields taken from the state after; the cursor has been moved by the fetch. -/
def writtenBy (i : Instr) (s t : State) : State :=
  match i with
  | .zlibHdr _ _ => { s with inPos := t.inPos }
  | .blkStored _ => { s with bfinal := t.bfinal, btype := t.btype }
  | .blkFixed _ => { s with bfinal := t.bfinal, btype := t.btype, tables := t.tables }
  | .blkDynamic _ => { s with bfinal := t.bfinal, btype := t.btype }
  | .blkReserved _ => { s with bfinal := t.bfinal, btype := t.btype }
  | .storedLen _ _ => { s with len := t.len, nlen := t.nlen, storedLeft := t.storedLeft }
  | .storedByte _ =>
    { s with
      outMem := t.outMem
      window := t.window
      wp := t.wp
      outLen := t.outLen
      adlerA := t.adlerA
      adlerB := t.adlerB
      storedLeft := t.storedLeft }
  | .dynHdr _ _ _ =>
    { s with
      clLens := t.clLens
      lens := t.lens
      hlit := t.hlit
      hdist := t.hdist
      hclen := t.hclen
      clIndex := t.clIndex }
  | .clCodelen _ => { s with clLens := t.clLens, clIndex := t.clIndex, clT := t.clT, num := t.num }
  | .clLen _ => { s with lens := t.lens, num := t.num, litT := t.litT, distT := t.distT, tables := t.tables }
  | .clRepPrev _ => { s with lens := t.lens, num := t.num, litT := t.litT, distT := t.distT, tables := t.tables }
  | .clRepZero3 _ => { s with lens := t.lens, num := t.num, litT := t.litT, distT := t.distT, tables := t.tables }
  | .clRepZero11 _ => { s with lens := t.lens, num := t.num, litT := t.litT, distT := t.distT, tables := t.tables }
  | .lit _ =>
    { s with
      outMem := t.outMem
      window := t.window
      wp := t.wp
      outLen := t.outLen
      adlerA := t.adlerA
      adlerB := t.adlerB }
  | .eob => s
  | .llReserved _ => s
  | .distReserved _ => s
  | .adlerTrailer _ => { s with trailer := t.trailer }
  | .hostStart _ => t
  | i =>
    match matchDistance i with
    | none => { s with length := t.length }
    | some _ =>
      { s with
        outMem := t.outMem
        window := t.window
        wp := t.wp
        outLen := t.outLen
        adlerA := t.adlerA
        adlerB := t.adlerB
        distance := t.distance }

end Sys2Proof.Machine
end

