-- ==== Sys2Proof/Certificates/Slice0/Obligations.lean ====
section
/-! DEFINITION. The statements about the model, one for each entry of OBLIGATIONS.json, and the shape of the rules of the length
and distance codes (43_lz77_window_emitter.md R215 to R274). -/

namespace Sys2Proof.Machine

/-- The rule of a length code (43_lz77_window_emitter.md R215 to R243): its symbol has the fixed code `code`; when the symbol decodes,
its `n` extra bits follow and make the instruction; the instruction latches `length = base + extra` (R279), awaits the distance
symbol (R214) and changes nothing else. -/
def lengthCodeRule (sym n base : Nat) (make : BitVec n → Instr) (code : List Bool) : Prop :=
  codeOf fixedLit sym = some code
  ∧ (∀ (t : Huff) (r r1 : Reader), decodeSym t r = .ok sym r1 →
      (∀ e r2, r1.getBits n = .ok e r2 → decode (.litLen t) r = .ok (make e) r2)
      ∧ (∀ r2, r1.getBits n = .exhausted r2 → decode (.litLen t) r = .exhausted [] r2))
  ∧ ∀ (e : BitVec n) (s : State), ∃ length : BitVec 9, length.toNat = base + e.toNat
      ∧ exec (make e) s = .next { s with length := length, expect := .dist }

/-- The rule of a distance code (43_lz77_window_emitter.md R245 to R274): its symbol has the fixed code `code`; when the symbol
decodes, its `n` extra bits follow and make the instruction; the instruction latches `distance = base + extra` (R280). Beyond
OUT_LEN it raises DistanceTooFar (R276). Otherwise, with room in OUT, it appends the replayed bytes (R277) and changes nothing
else. -/
def distanceCodeRule (sym n base : Nat) (make : BitVec n → Instr) (code : List Bool) : Prop :=
  codeOf fixedDist sym = some code
  ∧ (∀ (t : Huff) (r r1 : Reader), decodeSym t r = .ok sym r1 →
      (∀ e r2, r1.getBits n = .ok e r2 → decode (.dist t) r = .ok (make e) r2)
      ∧ (∀ r2, r1.getBits n = .exhausted r2 → decode (.dist t) r = .exhausted [] r2))
  ∧ (∀ (e : BitVec n) (s : State), ∃ distance : BitVec 16, distance.toNat = base + e.toNat
      ∧ (s.outLen.toNat < base + e.toNat →
          exec (make e) s = .next (raise .distanceTooFar { s with distance := distance }))
      ∧ (s.outMem.wf = true → s.window.wf = true → base + e.toNat ≤ s.outLen.toNat →
          s.outLen.toNat + s.length.toNat ≤ s.cap.toNat →
          ∃ t, exec (make e) s = .next t ∧ s.appended t (s.replay (base + e.toNat))
            ∧ State.sameButOutput { s with distance := distance, expect := .litLen } t))

end Sys2Proof.Machine

open Sys2Proof Sys2Proof.Machine

/-- Words of the spec decode as it says: the header 78 9C; 03 is a final fixed block header and 07 a final reserved one
(R171, R175); 03 00 FC FF is STORED_LEN 3 (R178); 0x3C1D is HLIT 286, HDIST 1, HCLEN 19 (R181); with the code-length
table of R183 bit 0 is CL symbol 0 and bits 1,1,1 are symbol 16 with extra 3; 10010001 is literal 0x61 (R146); 0000000
is EOB; 0001001 then 1 is LEN_265 with extra 1 (R223); 11101 then thirteen ones is DIST_29 with extra 8191 (R274); 00
00 00 01 is the trailer 1; a CTRL word 1 is HOST_START. Rests on R93, R94, R95, R96, R97, R98, R99, R100, R171, R178,
R181, R274. -/
def Obligations.SpecWordsDecode : Prop :=
  let rd (bytes : List Byte) : Reader :=
    { mem := storeBytes [] 2 bytes, n := bytes.length + 6, stop := bytes.length + 2, pos := cursorAt 2 0 }
  let whole (bytes : List Byte) : Reader := { mem := storeBytes [] 0 bytes, n := bytes.length, stop := 2, pos := 0 }
  let clT : Huff := { counts := [0, 2, 0, 0, 0, 0, 0, 0, 0, 0, 0, 0, 0, 0, 0, 0], symbols := [0, 16] }
  decode .zlibHdr (whole [0x78, 0x9C]) = .ok (.zlibHdr 0x78 0x9C) (whole [0x78, 0x9C])
  ∧ decode .blkHdr (rd [0x03]) = .ok (.blkFixed true) ((rd [0x03]).skip 3)
  ∧ decode .blkHdr (rd [0x07]) = .ok (.blkReserved true) ((rd [0x07]).skip 3)
  ∧ decode (.storedLen false) (rd [0x03, 0x00, 0xFC, 0xFF]) = .ok (.storedLen 3 0xFFFC) ((rd [0x03, 0x00, 0xFC, 0xFF]).skip 32)
  ∧ decode .storedByte (rd [0x68]) = .ok (.storedByte 0x68) ((rd [0x68]).skip 8)
  ∧ decode .dynHdr (rd [0x1D, 0x3C]) = .ok (.dynHdr 29 0 15) ((rd [0x1D, 0x3C]).skip 14)
  ∧ decode .clCodelen (rd [0x05]) = .ok (.clCodelen 5) ((rd [0x05]).skip 3)
  ∧ decode (.clSym clT true) (rd [0x00]) = .ok (.clLen 0) ((rd [0x00]).skip 1)
  ∧ decode (.clSym clT false) (rd [0x07]) = .ok (.clRepPrev 3) ((rd [0x07]).skip 3)
  ∧ decode (.litLen fixedLit) (rd [0x89]) = .ok (.lit 0x61) ((rd [0x89]).skip 8)
  ∧ decode (.litLen fixedLit) (rd [0x00]) = .ok .eob ((rd [0x00]).skip 7)
  ∧ decode (.litLen fixedLit) (rd [0xC8]) = .ok (.len265 1) ((rd [0xC8]).skip 8)
  ∧ decode (.dist fixedDist) (rd [0xF7, 0xFF, 0x03]) = .ok (.dist29 8191) ((rd [0xF7, 0xFF, 0x03]).skip 18)
  ∧ decode .trailer (whole [0, 0, 0, 1]) = .ok (.adlerTrailer 1) (whole [0, 0, 0, 1])
  ∧ decodeHost 1 = some (.hostStart 1)

/-- For every format f, instruction i and bits with encode f i = some bits: a reader whose next bits are these bits
decodes to i and stands right after them (before LEN with STORED_ALIGN the reader is on a byte boundary, as the
padding is no part of the encoding). The zlib header and the trailer are whole bytes: a reader whose bytes 0, 1 (N-4
to N-1) are the encoding decodes to i and does not move. The table of a coded format is any table, complete or not.
Rests on R91, R92, R93, R94, R95, R96, R97, R98, R99, R100, R105. -/
def Obligations.EncodeThenDecode : Prop :=
  (∀ (f : Format) (i : Instr) (bits : List Bool) (r : Reader), encode f i = some bits →
    f ≠ .zlibHdr → f ≠ .trailer → (f = .storedLen true → bitOff r.pos = 0) → r.sees bits →
    decode f r = .ok i (r.skip bits.length))
  ∧ (∀ (i : Instr) (bits : List Bool) (r : Reader), encode .zlibHdr i = some bits → 2 ≤ r.n →
      fieldBits (r.mem.read 0) ++ fieldBits (r.mem.read 1) = bits → decode .zlibHdr r = .ok i r)
  ∧ (∀ (i : Instr) (bits : List Bool) (r : Reader), encode .trailer i = some bits → 4 ≤ r.n →
      fieldBits (r.mem.read (r.n - 4)) ++ fieldBits (r.mem.read (r.n - 3)) ++ fieldBits (r.mem.read (r.n - 2))
        ++ fieldBits (r.mem.read (r.n - 1)) = bits → decode .trailer r = .ok i r)

/-- Every well-formed instruction but HOST_START has an encoding in some format; a literal/length instruction has one in
the fixed table, a distance code 0 to 29 in the fixed distance table, which has none for 30 and 31 (R102). HOST_START
is the word itself. Rests on R98, R99, R101, R102, R103. -/
def Obligations.EveryInstructionHasAnEncoding : Prop :=
  ∀ i : Instr, i.wf = true →
    (∃ w, i = .hostStart w ∧ decodeHost w = some i)
    ∨ ((∃ f bits, encode f i = some bits)
      ∧ (i.parts.row = .litLen → ∃ bits, encode (.litLen fixedLit) i = some bits)
      ∧ (i.parts.row = .dist → ((∃ bits, encode (.dist fixedDist) i = some bits) ↔ i.parts.sym < 30)))

/-- FIXED_LIT is build over 288 symbols with lengths 8 for symbols 0-143, 9 for 144-255, 7 for 256-279 and 8 for 280-287,
and its counts and symbols are those of R150; FIXED_DIST is build over 30 symbols with length 5 for all, and its
counts and symbols are those of R151. Rests on R150, R151. -/
def Obligations.FixedTablesAreBuilt : Prop :=
  fixedLitLengths.length = 288
  ∧ (∀ s, s < 288 → fixedLitLengths.getD s 0 =
      if s ≤ 143 then 8 else if s ≤ 255 then 9 else if s ≤ 279 then 7 else 8)
  ∧ (buildTable (HuffTable.zero 288) fixedLitLengths).code = fixedLit
  ∧ fixedLit.counts = [0, 0, 0, 0, 0, 0, 0, 24, 152, 112, 0, 0, 0, 0, 0, 0]
  ∧ (∀ j, j < 288 → fixedLit.symbols.getD j 0 =
      if j ≤ 23 then 256 + j else if j ≤ 167 then j - 24 else if j ≤ 175 then 280 + (j - 168) else 144 + (j - 176))
  ∧ (buildTable (HuffTable.zero 30) (List.replicate 30 5)).code = fixedDist
  ∧ fixedDist.counts = [0, 0, 0, 0, 0, 30, 0, 0, 0, 0, 0, 0, 0, 0, 0, 0]
  ∧ fixedDist.symbols.length = 30 ∧ (∀ d, d < 30 → fixedDist.symbols.getD d 0 = d)

/-- Symbols 256..279 have the 7-bit codes s-256, 0..143 the 8-bit codes 0x30+s, 280..287 the 8-bit codes 0xC0+(s-280),
144..255 the 9-bit codes 0x190+(s-144); no bit string fails to decode with FIXED_LIT. Distance symbol d (0..29) has
the 5-bit code d, no other symbol has one, and a string that starts with 1,1,1,1 raises HuffmanDecodeOutOfRange after
the 15th bit. Rests on R101, R102. -/
def Obligations.FixedCodesAreCanonical : Prop :=
  (∀ s, s ≤ 143 → codeOf fixedLit s = some (codeBits 8 (0x30 + s)))
  ∧ (∀ s, 144 ≤ s → s ≤ 255 → codeOf fixedLit s = some (codeBits 9 (0x190 + (s - 144))))
  ∧ (∀ s, 256 ≤ s → s ≤ 279 → codeOf fixedLit s = some (codeBits 7 (s - 256)))
  ∧ (∀ s, 280 ≤ s → s ≤ 287 → codeOf fixedLit s = some (codeBits 8 (0xC0 + (s - 280))))
  ∧ (∀ (r r1 : Reader), decodeSym fixedLit r ≠ .noCode r1)
  ∧ (∀ d, d < 30 → codeOf fixedDist d = some (codeBits 5 d))
  ∧ (∀ d, 30 ≤ d → codeOf fixedDist d = none)
  ∧ (∀ (r r1 : Reader) (d : Nat), decodeSym fixedDist r = .ok d r1 → d < 30)
  ∧ (∀ (r : Reader) (bits : List Bool), bits.length = 11 → r.sees ([true, true, true, true] ++ bits) →
      decodeSym fixedDist r = .noCode (r.skip 15))

/-- After build, counts[L] is the number of symbols of length L for L in 1..15 and counts[0] is 0; the first P symbol
entries, P the sum of the counts, are the symbols of nonzero length ordered by (length, symbol); the entries from P on
keep their old values. Rests on R142, R144. -/
def Obligations.BuildResult : Prop :=
  ∀ (old : HuffTable) (lengths : List Nat), (∀ l ∈ lengths, l ≤ 15) → lengths.length ≤ old.symbols.length →
    old.symbols.length ≤ 288 →
    (buildTable old lengths).counts.length = 16
    ∧ (∀ len, len < 16 → ((buildTable old lengths).code.counts.getD len 0) = lenCount lengths len)
    ∧ (buildTable old lengths).code.coded = (codedSymbols lengths).length
    ∧ (buildTable old lengths).symbols.length = old.symbols.length
    ∧ (buildTable old lengths).code.symbols.take (codedSymbols lengths).length = codedSymbols lengths
    ∧ (buildTable old lengths).symbols.drop (codedSymbols lengths).length
        = old.symbols.drop (codedSymbols lengths).length

/-- For any lengths with Kraft sum at most 1: build leaves the counts and the symbols ordered by (length, symbol), later
entries as they were; the canonical code of a symbol s of length L is the L-bit string of first[L] + k, k the number
of smaller symbols of length L, first[1] = 0 and first[L] = (first[L-1] + counts[L-1]) << 1; and decode, fed these
bits most significant bit first, returns s and consumes exactly L bits. Rests on R145, R152. -/
def Obligations.CanonicalCodesDecode : Prop :=
  ∀ (old : HuffTable) (lengths : List Nat), (∀ l ∈ lengths, l ≤ 15) → lengths.length ≤ old.symbols.length →
    old.symbols.length ≤ 288 → kraftSum lengths ≤ 2 ^ 15 →
    firstCode lengths 1 = 0
    ∧ (∀ len, 2 ≤ len → firstCode lengths len = (firstCode lengths (len - 1) + lenCount lengths (len - 1)) <<< 1)
    ∧ (∀ len, len < 16 → ((buildTable old lengths).code.counts.getD len 0) = lenCount lengths len)
    ∧ (buildTable old lengths).code.symbols.take (codedSymbols lengths).length = codedSymbols lengths
    ∧ (buildTable old lengths).symbols.drop (codedSymbols lengths).length
        = old.symbols.drop (codedSymbols lengths).length
    ∧ ∀ s, s < lengths.length → lengths.getD s 0 ≠ 0 →
      let len := lengths.getD s 0
      let code := codeBits len (firstCode lengths len + (lengths.take s).count len)
      firstCode lengths len + (lengths.take s).count len < 2 ^ len
      ∧ code.length = len
      ∧ codeOf (buildTable old lengths).code s = some code
      ∧ ∀ r : Reader, r.sees code → decodeSym (buildTable old lengths).code r = .ok s (r.skip len)

/-- For a built table, complete, incomplete or over-subscribed: 15 bits of which no prefix is the code of a symbol raise
HuffmanDecodeOutOfRange after exactly 15 bits, and with every count 0 any 15 bits do; a table of one symbol of length
1 decodes bit 0 to it and fails on bit 1 after 15 bits. An answer s is a symbol of the alphabet with lengths[s] not 0,
and the bits consumed, lengths[s] of them, are the code of s; when the input ends first it is InputExhausted with the
cursor at E; neither error is raised where the next bits are the code of a symbol. So CL_T, built over 19 symbols,
never gives a symbol above 18. Rests on R147, R148, R190. -/
def Obligations.SymbolDecodeOutcomes : Prop :=
  (∀ (old : HuffTable) (lengths : List Nat) (r : Reader), (∀ l ∈ lengths, l ≤ 15) →
      lengths.length ≤ old.symbols.length → old.symbols.length ≤ 288 →
      8 * r.stop < 2 ^ 32 → r.pos.toNat ≤ 8 * r.stop →
      match decodeSym (buildTable old lengths).code r with
      | .ok s r1 => s < lengths.length ∧ lengths.getD s 0 ≠ 0 ∧ r1 = r.skip (lengths.getD s 0)
          ∧ r.pos.toNat + lengths.getD s 0 ≤ 8 * r.stop
          ∧ ∃ code, codeOf (buildTable old lengths).code s = some code ∧ code.length = lengths.getD s 0 ∧ r.sees code
      | .noCode r1 => r1 = r.skip 15 ∧ r.pos.toNat + 15 ≤ 8 * r.stop
          ∧ ∀ s code, codeOf (buildTable old lengths).code s = some code → ¬ r.sees code
      | .exhausted r1 => (∃ k, k < 15 ∧ r1 = r.skip k ∧ r.pos.toNat + k = 8 * r.stop)
          ∧ ∀ s code, codeOf (buildTable old lengths).code s = some code → ¬ r.sees code)
  ∧ (∀ (old : HuffTable) (lengths : List Nat) (r : Reader) (bits : List Bool), (∀ l ∈ lengths, l ≤ 15) →
      lengths.length ≤ old.symbols.length → old.symbols.length ≤ 288 → bits.length = 15 → r.sees bits →
      (∀ s code, codeOf (buildTable old lengths).code s = some code → ¬ code <+: bits) →
      decodeSym (buildTable old lengths).code r = .noCode (r.skip 15))
  ∧ (∀ (old : HuffTable) (lengths : List Nat) (r : Reader) (bits : List Bool), (∀ l ∈ lengths, l = 0) →
      bits.length = 15 → r.sees bits → decodeSym (buildTable old lengths).code r = .noCode (r.skip 15))
  ∧ (∀ (old : HuffTable) (n s : Nat) (r : Reader) (bits : List Bool), s < n → n ≤ old.symbols.length →
      old.symbols.length ≤ 288 →
      (r.sees [false] →
        decodeSym (buildTable old ((List.replicate n 0).set s 1)).code r = .ok s (r.skip 1))
      ∧ (bits.length = 14 → r.sees (true :: bits) →
        decodeSym (buildTable old ((List.replicate n 0).set s 1)).code r = .noCode (r.skip 15)))
  ∧ (∀ (old : HuffTable) (lens : List (BitVec 3)) (first : Bool) (r r1 : Reader), lens.length = 19 →
      old.symbols.length = 19 →
      decode (.clSym (buildTable old (lens.map BitVec.toNat)).code first) r ≠ .noClSymbol r1)

/-- With byte_off >= E get_bit raises InputExhausted and leaves the cursor; otherwise it returns (IN[byte_off] >> bit_off)
& 1, and the cursor becomes (byte_off, bit_off + 1), or (byte_off + 1, 0) when bit_off was 7. Nothing else of the
reader changes. E is at most 2^29, the largest input buffer. Rests on R122. -/
def Obligations.GetBitReadsAndAdvances : Prop :=
  ∀ r : Reader, r.stop ≤ 2 ^ 29 →
    (r.stop ≤ byteOff r.pos → r.getBit = .exhausted r)
    ∧ (byteOff r.pos < r.stop →
        ∃ pos1, r.getBit = .ok (((r.mem.read (byteOff r.pos)).toNat >>> bitOff r.pos) % 2 == 1) { r with pos := pos1 }
          ∧ (bitOff r.pos ≠ 7 → byteOff pos1 = byteOff r.pos ∧ bitOff pos1 = bitOff r.pos + 1)
          ∧ (bitOff r.pos = 7 → r.pos.toNat + 1 < 2 ^ 32 → byteOff pos1 = byteOff r.pos + 1 ∧ bitOff pos1 = 0))

/-- get_bits(n) succeeds exactly when n bits remain; bit i of its value is the i-th bit from the cursor on (0 the first),
and the cursor moves n bits; when fewer remain it raises InputExhausted with the cursor at E. get_bits(0) reads
nothing. Rests on R123. -/
def Obligations.GetBitsAssemblesLowBitFirst : Prop :=
  ∀ (n : Nat) (r : Reader), r.stop < 2 ^ 29 → r.pos.toNat ≤ 8 * r.stop →
    (r.pos.toNat + n ≤ 8 * r.stop →
      ∃ v : BitVec n, r.getBits n = .ok v (r.skip n) ∧ (r.skip n).pos.toNat = r.pos.toNat + n
        ∧ ∀ i, i < n → v.getLsbD i = (r.mem.read ((r.pos.toNat + i) / 8)).getLsbD ((r.pos.toNat + i) % 8))
    ∧ (8 * r.stop < r.pos.toNat + n →
      ∃ r1, r.getBits n = .exhausted r1 ∧ r1.pos.toNat = 8 * r.stop ∧ r1.mem = r.mem ∧ r1.stop = r.stop ∧ r1.n = r.n)

/-- align leaves a cursor on a byte boundary alone and otherwise moves it to (byte_off + 1, 0); it reads no bit. A running
job about to read LEN decodes from the aligned cursor when ALIGN = 1 and from the cursor as it is when ALIGN = 0.
Rests on R125, R177. -/
def Obligations.AlignSkipsToByteBoundary : Prop :=
  (∀ r : Reader, r.pos.toNat + 8 < 2 ^ 32 →
    (bitOff r.pos = 0 → r.align = r)
    ∧ (bitOff r.pos ≠ 0 → byteOff r.align.pos = byteOff r.pos + 1 ∧ bitOff r.align.pos = 0)
    ∧ r.align = { r with pos := r.align.pos })
  ∧ (∀ s : State, s.expect = .storedLen →
      (s.align = true → decode s.format s.reader = decode (.storedLen false) s.reader.align)
      ∧ (s.align = false → decode s.format s.reader = decode (.storedLen false) s.reader))

/-- In a step of the engine of a running job, from a state of the invariant, 8*byte_off + bit_off does not decrease, and
after the header is accepted byte_off is between 2 and E; a step that is not ZLIB_HDR or ADLER_TRAILER and does not
end the job increases it. Rests on R126, R127. -/
def Obligations.CursorOnlyMovesForward : Prop :=
  ∀ s t : State, s.Inv → s.busy = true → s.engineTurn → step s = .next t →
    s.inPos.toNat ≤ t.inPos.toNat
    ∧ (16 ≤ t.inPos.toNat → t.inPos.toNat ≤ 8 * s.e.toNat)
    ∧ (s.expect ≠ .zlibHdr → 2 ≤ byteOff t.inPos)
    ∧ (s.expect ≠ .zlibHdr → s.expect ≠ .trailer → t.busy = true → s.inPos.toNat < t.inPos.toNat)

/-- With a running job and no host move in the way, a step is exec of the decoded instruction on the state whose cursor
stands after its bits; a read past the region raises InputExhausted with the fields already read whole latched, a
string that is no code raises HuffmanDecodeOutOfRange, each with the cursor where reading stopped. The host move pass
lets the same step happen. Outside a job the step answers the same state. Three clauses are the model's own reading or
form: which fields are latched when the input runs out part-way (log 12, DEDUCED), the idle step (log 15, DESIGN
CHOICE) and the pending moves (log 4). Rests on R75, R105, R331, R341, R340, R352. -/
def Obligations.StepRunsDecodedInstruction : Prop :=
  ∀ (s u : State) (moves : List HostMove), (s.hostMoves = [] ∧ u = s) ∨ (s.hostMoves = .pass :: moves ∧ u = { s with hostMoves := moves }) →
    (u.busy = true →
      (∀ i r, decode u.format u.reader = .ok i r → step s = exec i { u with inPos := r.pos })
      ∧ (∀ got r, decode u.format u.reader = .exhausted got r →
          step s = .next (raise .inputExhausted (latchPart u.format got { u with inPos := r.pos })))
      ∧ (∀ r, decode u.format u.reader = .noCode r →
          step s = .next (raise .huffmanDecodeOutOfRange { u with inPos := r.pos })))
    ∧ (u.busy = false → step s = .next u)

/-- While idle, HOST_START of a word w stores w[1] in STORED_ALIGN and then latches N, CAP, ALIGN and E = max(2, N - 4),
sets BUSY, clears DONE, ERROR and ERRCODE, OUT_LEN, wp, TRAILER and the cursor, sets ADLER to 1 and FSM to
ZLIB_HEADER; nothing else changes (WINDOW, tables and arrays keep their contents). While busy nothing changes. Rests
on R301. -/
def Obligations.HostStartInitialisesTheJob : Prop :=
  ∀ (w : BitVec 32) (s : State),
    (s.busy = true → exec (.hostStart w) s = .next s)
    ∧ (s.busy = false →
        ∃ e : Word, e.toNat = max 2 (s.inLen.toNat - 4) ∧
        exec (.hostStart w) s = .next { s with
          storedAlign := w.getLsbD 1
          n := s.inLen
          cap := s.outCap
          align := w.getLsbD 1
          e := e
          busy := true
          done := false
          error := false
          errcode := 0
          outLen := 0
          wp := 0
          adlerA := 1
          adlerB := 0
          trailer := 0
          inPos := 0
          fsm := .zlibHeader
          expect := .zlibHdr })

/-- A host write of w at REG_BASE: with w[0] = 1 the step is exec of HOST_START w; with w[0] = 0 it stores w[1] in
STORED_ALIGN while idle and does nothing while busy. That a host write is a pending move is the model's own form (log
4). Rests on R23, R300, R365. -/
def Obligations.StartWriteRunsHostStart : Prop :=
  ∀ (s : State) (w : Word) (rest : List HostMove), s.hostMoves = .busWrite s.params.regBase 4 w :: rest →
    (w.getLsbD 0 = true → step s = exec (.hostStart w) { s with hostMoves := rest })
    ∧ (w.getLsbD 0 = false → s.busy = false → step s = .next { s with hostMoves := rest, storedAlign := w.getLsbD 1 })
    ∧ (w.getLsbD 0 = false → s.busy = true → step s = .next { s with hostMoves := rest })

/-- At the start of a job N < 2 raises InputExhausted with the cursor unchanged; otherwise the step is exec of ZLIB_HDR of
the bytes IN[0] and IN[1]. CM other than 8 raises UnsupportedMethod; then CINFO above 7 UnsupportedWindowSize; then
FDICT = 1 PresetDictionaryUnsupported, whatever the 31-check gives; then (CMF*256 + FLG) mod 31 other than 0
HeaderChecksumInvalid. When all four pass the cursor becomes (2, 0) and the block loop begins (FSM BLOCK_HEADER,
R170). Nothing else changes. Rests on R302, R303, R304, R305, R306, R308. -/
def Obligations.HeaderChecksInOrder : Prop :=
  ∀ (cmf flg : BitVec 8) (s : State),
    (cmf.toNat % 16 ≠ 8 → exec (.zlibHdr cmf flg) s = .next (raise .unsupportedMethod s))
    ∧ (cmf.toNat % 16 = 8 → 7 < cmf.toNat / 16 → exec (.zlibHdr cmf flg) s = .next (raise .unsupportedWindowSize s))
    ∧ (cmf.toNat % 16 = 8 → cmf.toNat / 16 ≤ 7 → flg.getLsbD 5 = true →
        exec (.zlibHdr cmf flg) s = .next (raise .presetDictionaryUnsupported s))
    ∧ (cmf.toNat % 16 = 8 → cmf.toNat / 16 ≤ 7 → flg.getLsbD 5 = false → (cmf.toNat * 256 + flg.toNat) % 31 ≠ 0 →
        exec (.zlibHdr cmf flg) s = .next (raise .headerChecksumInvalid s))
    ∧ (cmf.toNat % 16 = 8 → cmf.toNat / 16 ≤ 7 → flg.getLsbD 5 = false → (cmf.toNat * 256 + flg.toNat) % 31 = 0 →
        exec (.zlibHdr cmf flg) s = .next { s with inPos := 16, fsm := .blockHeader, expect := .blkHdr })
    ∧ (s.busy = true → s.hostMoves = [] → s.expect = .zlibHdr →
        (s.n.toNat < 2 → step s = .next (raise .inputExhausted s))
        ∧ (2 ≤ s.n.toNat → step s = exec (.zlibHdr (s.inMem.read 0) (s.inMem.read 1)) s))

/-- With a running job at its trailer, T the number of the bytes N-4 to N-1 with the first most significant: TRAILER
becomes T; if T is not (b << 16) | a the job ends in ChecksumMismatch, else BUSY is 0, DONE is 1 and FSM is DONE.
Nothing else changes. In a state of the invariant N is at least 7 there. Rests on R312, R313, R314. -/
def Obligations.TrailerDecidesTheJob : Prop :=
  (∀ s : State, s.Inv → s.busy = true → s.expect = .trailer → 7 ≤ s.n.toNat)
  ∧ (∀ s : State, s.busy = true → s.hostMoves = [] → s.expect = .trailer → 4 ≤ s.n.toNat →
    ∃ T : Word, T.toNat = (s.inMem.read (s.n.toNat - 4)).toNat * 2 ^ 24 + (s.inMem.read (s.n.toNat - 3)).toNat * 2 ^ 16
        + (s.inMem.read (s.n.toNat - 2)).toNat * 2 ^ 8 + (s.inMem.read (s.n.toNat - 1)).toNat
      ∧ step s = exec (.adlerTrailer T) s)
  ∧ ∀ (T : Word) (s : State),
    (T.toNat ≠ s.adlerB.toNat * 2 ^ 16 + s.adlerA.toNat →
      exec (.adlerTrailer T) s = .next (raise .checksumMismatch { s with trailer := T }))
    ∧ (T.toNat = s.adlerB.toNat * 2 ^ 16 + s.adlerA.toNat →
      exec (.adlerTrailer T) s = .next { s with trailer := T, busy := false, done := true, fsm := .done })

/-- BLK_STORED sets FSM STORED; BLK_FIXED sets FSM FIXED and selects the fixed tables; BLK_DYNAMIC sets FSM
DYNAMIC_HEADER; BLK_RESERVED raises InvalidBlockType (code 5). Each latches bfinal and btype and changes nothing else
but the control point of the model (log 1). Rests on R172, R173, R174, R175, R180. -/
def Obligations.BlockHeadersDispatch : Prop :=
  ∀ (f : Bool) (s : State),
    exec (.blkStored f) s = .next { s with bfinal := f, btype := 0, fsm := .stored, expect := .storedLen }
    ∧ exec (.blkFixed f) s = .next { s with bfinal := f, btype := 1, fsm := .fixed, tables := .fixed, expect := .litLen }
    ∧ exec (.blkDynamic f) s = .next { s with bfinal := f, btype := 2, fsm := .dynamicHeader, expect := .dynHdr }
    ∧ exec (.blkReserved f) s = .next { s with
        bfinal := f
        btype := 3
        busy := false
        done := false
        error := true
        errcode := 5
        fsm := .error }

/-- EOB, LL symbol 256 with the fixed code 0000000 and no extra bits, writes nothing but FSM (and the model's control
point): TRAILER with bfinal = 1, BLOCK_HEADER with bfinal = 0 (R176). Rests on R213. -/
def Obligations.EndOfBlockBody : Prop :=
  ∀ s : State,
    (s.bfinal = true → exec .eob s = .next { s with fsm := .trailer, expect := .trailer })
    ∧ (s.bfinal = false → exec .eob s = .next { s with fsm := .blockHeader, expect := .blkHdr })
    ∧ codeOf fixedLit 256 = some (codeBits 7 0b0000000)
    ∧ ∀ (t : Huff) (r r1 : Reader), decodeSym t r = .ok 256 r1 → decode (.litLen t) r = .ok .eob r1

/-- LEN and NLEN are the next 16 and 16 bits, the first bit of each its bit 0; with fewer than 32 bits left it is
InputExhausted. Both fields are latched; NLEN other than 0xFFFF - LEN raises LengthMismatch; else LEN data bytes
follow, and with LEN = 0 the body ends at once (R176). Nothing else changes. Rests on R178. -/
def Obligations.StoredLengthIsChecked : Prop :=
  ∀ (len nlen : BitVec 16) (s : State),
    (nlen.toNat ≠ 0xFFFF - len.toNat →
      exec (.storedLen len nlen) s = .next (raise .lengthMismatch { s with len := len, nlen := nlen }))
    ∧ (nlen.toNat = 0xFFFF - len.toNat → len ≠ 0 →
      exec (.storedLen len nlen) s = .next { s with
        len := len
        nlen := nlen
        storedLeft := len.toNat
        expect := .storedByte })
    ∧ (nlen.toNat = 0xFFFF - len.toNat → len = 0 → s.bfinal = true →
      exec (.storedLen len nlen) s = .next { s with
        len := len
        nlen := nlen
        storedLeft := 0
        fsm := .trailer
        expect := .trailer })
    ∧ (nlen.toNat = 0xFFFF - len.toNat → len = 0 → s.bfinal = false →
      exec (.storedLen len nlen) s = .next { s with
        len := len
        nlen := nlen
        storedLeft := 0
        fsm := .blockHeader
        expect := .blkHdr })
    ∧ ∀ r : Reader, r.stop < 2 ^ 29 → r.pos.toNat ≤ 8 * r.stop →
      (8 * r.stop < r.pos.toNat + 32 → ∃ got r1, decode (.storedLen false) r = .exhausted got r1)
      ∧ (r.pos.toNat + 32 ≤ 8 * r.stop → ∃ len1 nlen1 : BitVec 16,
          decode (.storedLen false) r = .ok (.storedLen len1 nlen1) (r.skip 32)
          ∧ ∀ k, k < 16 →
            len1.getLsbD k = (r.mem.read ((r.pos.toNat + k) / 8)).getLsbD ((r.pos.toNat + k) % 8)
            ∧ nlen1.getLsbD k = (r.mem.read ((r.pos.toNat + 16 + k) / 8)).getLsbD ((r.pos.toNat + 16 + k) % 8))

/-- With room for a byte, STORED_BYTE appends it to OUT and WINDOW and updates the counts and ADLER; the model's counter
of bytes left (log 1) goes down by one, and after the last byte FSM is TRAILER or BLOCK_HEADER by bfinal. Nothing else
changes. Without room it raises OutputOverflow and writes nothing. Rests on R179, R212, R176. -/
def Obligations.StoredByteIsEmitted : Prop :=
  ∀ (v : BitVec 8) (s : State), s.outMem.wf = true → s.window.wf = true →
    (s.outLen.toNat < s.cap.toNat → ∃ t, exec (.storedByte v) s = .next t ∧ s.appended t [v] ∧
      (2 ≤ s.storedLeft → State.sameButOutput { s with storedLeft := s.storedLeft - 1 } t)
      ∧ (s.storedLeft ≤ 1 → s.bfinal = true →
          State.sameButOutput { s with storedLeft := 0, fsm := .trailer, expect := .trailer } t)
      ∧ (s.storedLeft ≤ 1 → s.bfinal = false →
          State.sameButOutput { s with storedLeft := 0, fsm := .blockHeader, expect := .blkHdr } t))
    ∧ (s.cap.toNat ≤ s.outLen.toNat → exec (.storedByte v) s = .next (raise .outputOverflow s))

/-- The fields are the next 5, 5 and 4 bits, the first bit of each its bit 0, or it is InputExhausted. CL_LENS becomes 19
zeros, LENS 320 zeros, HLIT = 257 + the first field, HDIST = 1 + the second, HCLEN = 4 + the third, in 257..288, 1..32
and 4..19. Nothing else changes but the model's control state (log 1). With fewer than 14 bits left the step ends in
InputExhausted with the cursor at (E, 0); that the arrays are cleared all the same and the counts read whole before
are latched is the model's reading of the order of the pseudocode (log 12, DEDUCED). Rests on R181, R331, R341. -/
def Obligations.DynamicHeaderCounts : Prop :=
  ∀ (hl hd : BitVec 5) (hc : BitVec 4) (s : State),
    (∃ t, exec (.dynHdr hl hd hc) s = .next t
      ∧ t = { s with
          clLens := List.replicate 19 0
          lens := List.replicate 320 0
          hlit := t.hlit
          hdist := t.hdist
          hclen := t.hclen
          clIndex := 0
          expect := .clCodelen }
      ∧ t.hlit.toNat = 257 + hl.toNat ∧ t.hdist.toNat = 1 + hd.toNat ∧ t.hclen.toNat = 4 + hc.toNat
      ∧ t.countsLegal)
    ∧ (s.busy = true → s.hostMoves = [] → s.expect = .dynHdr → s.e.toNat < 2 ^ 29 → s.inPos.toNat ≤ 8 * s.e.toNat →
        8 * s.e.toNat < s.inPos.toNat + 14 →
        ∃ t, step s = .next t
          ∧ t = { s with
              busy := false
              done := false
              error := true
              errcode := 9
              fsm := .error
              inPos := t.inPos
              clLens := List.replicate 19 0
              lens := List.replicate 320 0
              hlit := t.hlit
              hdist := t.hdist }
          ∧ t.inPos.toNat = 8 * s.e.toNat
          ∧ (8 * s.e.toNat < s.inPos.toNat + 5 → t.hlit = s.hlit)
          ∧ (s.inPos.toNat + 5 ≤ 8 * s.e.toNat → ∃ a : BitVec 5, t.hlit.toNat = 257 + a.toNat ∧ ∀ k, k < 5 →
              a.getLsbD k = (s.inMem.read ((s.inPos.toNat + k) / 8)).getLsbD ((s.inPos.toNat + k) % 8))
          ∧ (8 * s.e.toNat < s.inPos.toNat + 10 → t.hdist = s.hdist)
          ∧ (s.inPos.toNat + 10 ≤ 8 * s.e.toNat → ∃ b : BitVec 5, t.hdist.toNat = 1 + b.toNat ∧ ∀ k, k < 5 →
              b.getLsbD k = (s.inMem.read ((s.inPos.toNat + 5 + k) / 8)).getLsbD ((s.inPos.toNat + 5 + k) % 8)))
    ∧ ∀ r : Reader, r.stop < 2 ^ 29 → r.pos.toNat ≤ 8 * r.stop →
      (8 * r.stop < r.pos.toNat + 14 → ∃ got r1, decode .dynHdr r = .exhausted got r1)
      ∧ (r.pos.toNat + 14 ≤ 8 * r.stop → ∃ (a b : BitVec 5) (c : BitVec 4),
          decode .dynHdr r = .ok (.dynHdr a b c) (r.skip 14)
          ∧ ∀ k, k < 5 →
            a.getLsbD k = (r.mem.read ((r.pos.toNat + k) / 8)).getLsbD ((r.pos.toNat + k) % 8)
            ∧ b.getLsbD k = (r.mem.read ((r.pos.toNat + 5 + k) / 8)).getLsbD ((r.pos.toNat + 5 + k) % 8)
            ∧ (k < 4 →
              c.getLsbD k = (r.mem.read ((r.pos.toNat + 10 + k) / 8)).getLsbD ((r.pos.toNat + 10 + k) % 8)))

/-- CL_CODELEN is one 3-bit field, or InputExhausted. The i-th CL_CODELEN writes its value into CL_LENS at CL_ORDER[i] and
nothing else of the array; while more remain the next follows; after the HCLEN-th CL_T is the result of build over the
19 entries, num is 0 and the code-length loop begins. The loop index i is the model's own (log 1). Rests on R182,
R183. -/
def Obligations.CodeLengthCodeLengthsArePlaced : Prop :=
  ∀ (v : BitVec 3) (s : State) (j : Nat),
    [16, 17, 18, 0, 8, 7, 9, 6, 10, 5, 11, 4, 12, 3, 13, 2, 14, 1, 15][s.clIndex]? = some j →
    (s.clIndex + 1 < s.hclen.toNat →
      exec (.clCodelen v) s = .next { s with clLens := s.clLens.set j v, clIndex := s.clIndex + 1 })
    ∧ (s.hclen.toNat ≤ s.clIndex + 1 →
      exec (.clCodelen v) s = .next { s with
        clLens := s.clLens.set j v
        clIndex := s.clIndex + 1
        clT := buildTable s.clT ((s.clLens.set j v).map BitVec.toNat)
        num := 0
        expect := .clSym })
    ∧ ∀ r : Reader,
      (∀ x r1, r.getBits 3 = .ok x r1 → decode .clCodelen r = .ok (.clCodelen x) r1)
      ∧ (∀ r1, r.getBits 3 = .exhausted r1 → decode .clCodelen r = .exhausted [] r1)

/-- CL symbols 0 to 15 are CL_LEN with no extra bits. With num < HLIT + HDIST, CL_LEN writes its symbol to LENS[num],
leaves every other entry, and num goes up by one; while num < HLIT + HDIST the loop goes on; otherwise LIT_T is built
over LENS[0 .. HLIT-1], DIST_T over the next HDIST entries, tables is DYNAMIC and FSM is DYNAMIC. Nothing else
changes. Rests on R185, R191, R192. -/
def Obligations.CodeLengthSymbolIsWritten : Prop :=
  (∀ (t : Huff) (first : Bool) (r r1 : Reader) (sym : Nat), sym ≤ 15 → decodeSym t r = .ok sym r1 →
    decode (.clSym t first) r = .ok (.clLen (BitVec.ofNat 4 sym)) r1)
  ∧ ∀ (sym : BitVec 4) (s : State), s.countsLegal → s.lens.length = 320 → s.num.toNat < s.hlit.toNat + s.hdist.toNat →
    ∃ t, exec (.clLen sym) s = .next t ∧ s.lengthsWritten t 1 sym

/-- CL_REP_PREV at num = 0 raises RepeatWithNoPrior, and its extra bits are not read; otherwise it writes 3 + extra copies
of LENS[num-1]; CL_REP_ZERO3 writes 3 + extra zeros and CL_REP_ZERO11 11 + extra zeros; a repeat past HLIT + HDIST
raises CodeLengthOverrun after its extra bits with nothing written; one that ends exactly there ends the loop. Rests
on R186, R187, R188, R189. -/
def Obligations.CodeLengthRepeatsAreWritten : Prop :=
  (∀ (t : Huff) (first : Bool) (r r1 : Reader),
      (decodeSym t r = .ok 16 r1 →
        decode (.clSym t true) r = .ok (.clRepPrev 0) r1
        ∧ (∀ e r2, r1.getBits 2 = .ok e r2 → decode (.clSym t false) r = .ok (.clRepPrev e) r2)
        ∧ (∀ r2, r1.getBits 2 = .exhausted r2 → decode (.clSym t false) r = .exhausted [] r2))
      ∧ (decodeSym t r = .ok 17 r1 →
        (∀ e r2, r1.getBits 3 = .ok e r2 → decode (.clSym t first) r = .ok (.clRepZero3 e) r2)
        ∧ (∀ r2, r1.getBits 3 = .exhausted r2 → decode (.clSym t first) r = .exhausted [] r2))
      ∧ (decodeSym t r = .ok 18 r1 →
        (∀ e r2, r1.getBits 7 = .ok e r2 → decode (.clSym t first) r = .ok (.clRepZero11 e) r2)
        ∧ (∀ r2, r1.getBits 7 = .exhausted r2 → decode (.clSym t first) r = .exhausted [] r2)))
  ∧ (∀ (e : BitVec 2) (s : State), s.num = 0 → exec (.clRepPrev e) s = .next (raise .repeatWithNoPrior s))
  ∧ ∀ (s : State), s.countsLegal → s.lens.length = 320 → s.num.toNat ≤ s.hlit.toNat + s.hdist.toNat →
    (∀ (i : Instr) (rep : Nat) (v : BitVec 4),
        (s.num ≠ 0 ∧ ∃ e : BitVec 2, i = .clRepPrev e ∧ rep = 3 + e.toNat ∧ v = s.lens.getD (s.num.toNat - 1) 0)
          ∨ (∃ e : BitVec 3, i = .clRepZero3 e ∧ rep = 3 + e.toNat ∧ v = 0)
          ∨ (∃ e : BitVec 7, i = .clRepZero11 e ∧ rep = 11 + e.toNat ∧ v = 0) →
        (s.num.toNat + rep ≤ s.hlit.toNat + s.hdist.toNat → ∃ t, exec i s = .next t ∧ s.lengthsWritten t rep v)
        ∧ (s.hlit.toNat + s.hdist.toNat < s.num.toNat + rep → exec i s = .next (raise .codeLengthOverrun s)))

/-- LL symbols 0 to 255 are LIT. With OUT_LEN < CAP, LIT of v stores v at OUT[OUT_LEN] and WINDOW[wp] and nowhere else, wp
goes up by one mod 32768, OUT_LEN by one, a = (a + v) mod 65521 and b = (b + the new a) mod 65521; nothing else
changes. With OUT_LEN >= CAP it raises OutputOverflow and nothing is written. Rests on R211, R212, R310. -/
def Obligations.LiteralIsEmitted : Prop :=
  (∀ (t : Huff) (r r1 : Reader) (sym : Nat), sym ≤ 255 → decodeSym t r = .ok sym r1 →
    decode (.litLen t) r = .ok (.lit (BitVec.ofNat 8 sym)) r1)
  ∧ ∀ (v : BitVec 8) (s : State), s.outMem.wf = true → s.window.wf = true →
    (s.outLen.toNat < s.cap.toNat → ∃ t, exec (.lit v) s = .next t
      ∧ s.appended t [v] ∧ State.sameButOutput { s with expect := .litLen } t
      ∧ t.adlerA.toNat = (s.adlerA.toNat + v.toNat) % 65521 ∧ t.adlerB.toNat = (s.adlerB.toNat + t.adlerA.toNat) % 65521)
    ∧ (s.cap.toNat ≤ s.outLen.toNat → exec (.lit v) s = .next (raise .outputOverflow s))

/-- LL_RESERVED and DIST_RESERVED raise HuffmanDecodeOutOfRange (code 8) and change nothing else. The literal/length
symbols 286, 287 and the distance symbols 30, 31 decode to them with no extra bits; the fixed codes of 286 and 287 are
11000110 and 11000111. Rests on R244, R275. -/
def Obligations.ReservedSymbolsRaise : Prop :=
  (∀ (sym : BitVec 9) (s : State), exec (.llReserved sym) s = .next (raise .huffmanDecodeOutOfRange s))
  ∧ (∀ (sym : BitVec 5) (s : State), exec (.distReserved sym) s = .next (raise .huffmanDecodeOutOfRange s))
  ∧ (∀ (t : Huff) (r r1 : Reader),
      (decodeSym t r = .ok 286 r1 → decode (.litLen t) r = .ok (.llReserved 286) r1)
      ∧ (decodeSym t r = .ok 287 r1 → decode (.litLen t) r = .ok (.llReserved 287) r1)
      ∧ (decodeSym t r = .ok 30 r1 → decode (.dist t) r = .ok (.distReserved 30) r1)
      ∧ (decodeSym t r = .ok 31 r1 → decode (.dist t) r = .ok (.distReserved 31) r1))
  ∧ codeOf fixedLit 286 = some (codeBits 8 0b11000110) ∧ codeOf fixedLit 287 = some (codeBits 8 0b11000111)
  ∧ codeOf fixedDist 30 = none ∧ codeOf fixedDist 31 = none

/-- For each length code 257 to 266, with its base and width from R279: its fixed code is the one its rule gives; when its
symbol decodes, exactly its extra bits follow (InputExhausted if they are missing); exec latches length = base +
extra, awaits the distance symbol (the model's control point, log 1) and changes nothing else. Rests on R215, R216,
R217, R218, R219, R220, R221, R222, R223, R224. -/
def Obligations.LengthCodes257To266 : Prop :=
  lengthCodeRule 257 0 3 (fun _ => .len257) (codeBits 7 0b0000001)
  ∧ lengthCodeRule 258 0 4 (fun _ => .len258) (codeBits 7 0b0000010)
  ∧ lengthCodeRule 259 0 5 (fun _ => .len259) (codeBits 7 0b0000011)
  ∧ lengthCodeRule 260 0 6 (fun _ => .len260) (codeBits 7 0b0000100)
  ∧ lengthCodeRule 261 0 7 (fun _ => .len261) (codeBits 7 0b0000101)
  ∧ lengthCodeRule 262 0 8 (fun _ => .len262) (codeBits 7 0b0000110)
  ∧ lengthCodeRule 263 0 9 (fun _ => .len263) (codeBits 7 0b0000111)
  ∧ lengthCodeRule 264 0 10 (fun _ => .len264) (codeBits 7 0b0001000)
  ∧ lengthCodeRule 265 1 11 .len265 (codeBits 7 0b0001001)
  ∧ lengthCodeRule 266 1 13 .len266 (codeBits 7 0b0001010)

/-- For each length code 267 to 276, with its base and width from R279: its fixed code is the one its rule gives; when its
symbol decodes, exactly its extra bits follow (InputExhausted if they are missing); exec latches length = base +
extra, awaits the distance symbol (the model's control point, log 1) and changes nothing else. Rests on R225, R226,
R227, R228, R229, R230, R231, R232, R233, R234. -/
def Obligations.LengthCodes267To276 : Prop :=
  lengthCodeRule 267 1 15 .len267 (codeBits 7 0b0001011)
  ∧ lengthCodeRule 268 1 17 .len268 (codeBits 7 0b0001100)
  ∧ lengthCodeRule 269 2 19 .len269 (codeBits 7 0b0001101)
  ∧ lengthCodeRule 270 2 23 .len270 (codeBits 7 0b0001110)
  ∧ lengthCodeRule 271 2 27 .len271 (codeBits 7 0b0001111)
  ∧ lengthCodeRule 272 2 31 .len272 (codeBits 7 0b0010000)
  ∧ lengthCodeRule 273 3 35 .len273 (codeBits 7 0b0010001)
  ∧ lengthCodeRule 274 3 43 .len274 (codeBits 7 0b0010010)
  ∧ lengthCodeRule 275 3 51 .len275 (codeBits 7 0b0010011)
  ∧ lengthCodeRule 276 3 59 .len276 (codeBits 7 0b0010100)

/-- For each length code 277 to 285, with its base and width from R279: its fixed code is the one its rule gives; when its
symbol decodes, exactly its extra bits follow (InputExhausted if they are missing); exec latches length = base +
extra, awaits the distance symbol (the model's control point, log 1) and changes nothing else. Rests on R235, R236,
R237, R238, R239, R240, R241, R242, R243. -/
def Obligations.LengthCodes277To285 : Prop :=
  lengthCodeRule 277 4 67 .len277 (codeBits 7 0b0010101)
  ∧ lengthCodeRule 278 4 83 .len278 (codeBits 7 0b0010110)
  ∧ lengthCodeRule 279 4 99 .len279 (codeBits 7 0b0010111)
  ∧ lengthCodeRule 280 4 115 .len280 (codeBits 8 0b11000000)
  ∧ lengthCodeRule 281 5 131 .len281 (codeBits 8 0b11000001)
  ∧ lengthCodeRule 282 5 163 .len282 (codeBits 8 0b11000010)
  ∧ lengthCodeRule 283 5 195 .len283 (codeBits 8 0b11000011)
  ∧ lengthCodeRule 284 5 227 .len284 (codeBits 8 0b11000100)
  ∧ lengthCodeRule 285 0 258 (fun _ => .len285) (codeBits 8 0b11000101)

/-- For each distance code 0 to 9, with its base and width from R280: its fixed code is the one its rule gives; when its
symbol decodes, exactly its extra bits follow (InputExhausted if they are missing); exec latches distance = base +
extra; a distance above OUT_LEN raises DistanceTooFar with nothing copied; otherwise, with room, length bytes are
appended, the last distance bytes of the window repeated, and nothing else changes. Rests on R245, R246, R247, R248,
R249, R250, R251, R252, R253, R254, R276. -/
def Obligations.DistanceCodes0To9 : Prop :=
  distanceCodeRule 0 0 1 (fun _ => .dist0) (codeBits 5 0b00000)
  ∧ distanceCodeRule 1 0 2 (fun _ => .dist1) (codeBits 5 0b00001)
  ∧ distanceCodeRule 2 0 3 (fun _ => .dist2) (codeBits 5 0b00010)
  ∧ distanceCodeRule 3 0 4 (fun _ => .dist3) (codeBits 5 0b00011)
  ∧ distanceCodeRule 4 1 5 .dist4 (codeBits 5 0b00100)
  ∧ distanceCodeRule 5 1 7 .dist5 (codeBits 5 0b00101)
  ∧ distanceCodeRule 6 2 9 .dist6 (codeBits 5 0b00110)
  ∧ distanceCodeRule 7 2 13 .dist7 (codeBits 5 0b00111)
  ∧ distanceCodeRule 8 3 17 .dist8 (codeBits 5 0b01000)
  ∧ distanceCodeRule 9 3 25 .dist9 (codeBits 5 0b01001)

/-- For each distance code 10 to 19, with its base and width from R280: its fixed code is the one its rule gives; when its
symbol decodes, exactly its extra bits follow (InputExhausted if they are missing); exec latches distance = base +
extra; a distance above OUT_LEN raises DistanceTooFar with nothing copied; otherwise, with room, length bytes are
appended, the last distance bytes of the window repeated, and nothing else changes. Rests on R255, R256, R257, R258,
R259, R260, R261, R262, R263, R264, R276. -/
def Obligations.DistanceCodes10To19 : Prop :=
  distanceCodeRule 10 4 33 .dist10 (codeBits 5 0b01010)
  ∧ distanceCodeRule 11 4 49 .dist11 (codeBits 5 0b01011)
  ∧ distanceCodeRule 12 5 65 .dist12 (codeBits 5 0b01100)
  ∧ distanceCodeRule 13 5 97 .dist13 (codeBits 5 0b01101)
  ∧ distanceCodeRule 14 6 129 .dist14 (codeBits 5 0b01110)
  ∧ distanceCodeRule 15 6 193 .dist15 (codeBits 5 0b01111)
  ∧ distanceCodeRule 16 7 257 .dist16 (codeBits 5 0b10000)
  ∧ distanceCodeRule 17 7 385 .dist17 (codeBits 5 0b10001)
  ∧ distanceCodeRule 18 8 513 .dist18 (codeBits 5 0b10010)
  ∧ distanceCodeRule 19 8 769 .dist19 (codeBits 5 0b10011)

/-- For each distance code 20 to 29, with its base and width from R280: its fixed code is the one its rule gives; when its
symbol decodes, exactly its extra bits follow (InputExhausted if they are missing); exec latches distance = base +
extra; a distance above OUT_LEN raises DistanceTooFar with nothing copied; otherwise, with room, length bytes are
appended, the last distance bytes of the window repeated, and nothing else changes. Rests on R265, R266, R267, R268,
R269, R270, R271, R272, R273, R274, R276. -/
def Obligations.DistanceCodes20To29 : Prop :=
  distanceCodeRule 20 9 1025 .dist20 (codeBits 5 0b10100)
  ∧ distanceCodeRule 21 9 1537 .dist21 (codeBits 5 0b10101)
  ∧ distanceCodeRule 22 10 2049 .dist22 (codeBits 5 0b10110)
  ∧ distanceCodeRule 23 10 3073 .dist23 (codeBits 5 0b10111)
  ∧ distanceCodeRule 24 11 4097 .dist24 (codeBits 5 0b11000)
  ∧ distanceCodeRule 25 11 6145 .dist25 (codeBits 5 0b11001)
  ∧ distanceCodeRule 26 12 8193 .dist26 (codeBits 5 0b11010)
  ∧ distanceCodeRule 27 12 12289 .dist27 (codeBits 5 0b11011)
  ∧ distanceCodeRule 28 13 16385 .dist28 (codeBits 5 0b11100)
  ∧ distanceCodeRule 29 13 24577 .dist29 (codeBits 5 0b11101)

/-- For every distance code with a legal distance and OUT_LEN <= CAP < OUT_LEN + length: exec raises OutputOverflow (code
13), OUT_LEN is CAP, and exactly the first CAP - OUT_LEN bytes of the replay are appended; nothing else changes. Rests
on R277, R345. -/
def Obligations.CopyStopsAtCapacity : Prop :=
  ∀ (i : Instr) (d : Nat) (s : State), matchDistance i = some d → s.outMem.wf = true → s.window.wf = true →
    d ≤ s.outLen.toNat → s.outLen.toNat ≤ s.cap.toNat → s.cap.toNat < s.outLen.toNat + s.length.toNat →
    ∃ t, exec i s = .next t ∧ t.outLen = s.cap
      ∧ s.appended t ((s.replay d).take (s.cap.toNat - s.outLen.toNat))
      ∧ State.sameButOutput (raise .outputOverflow { s with distance := BitVec.ofNat 16 d }) t

/-- Where the window mirrors the output, a distance code with a legal distance d and room for the match appends length
bytes; byte k of them is OUT[OUT_LEN - d + (k mod d)], OUT_LEN the count before; and what was there before stays.
Rests on R277, R278. -/
def Obligations.MatchCopiesEarlierOutput : Prop :=
  ∀ (i : Instr) (d : Nat) (s : State), matchDistance i = some d → s.outMem.wf = true → s.window.wf = true →
    s.windowMirrors → s.wp.toNat = s.outLen.toNat % 32768 → d ≤ s.outLen.toNat →
    s.outLen.toNat + s.length.toNat ≤ s.cap.toNat →
    ∃ t, exec i s = .next t ∧ t.outLen.toNat = s.outLen.toNat + s.length.toNat
      ∧ (∀ k, k < s.length.toNat →
          t.outMem.read (s.outLen.toNat + k) = s.outMem.read (s.outLen.toNat - d + k % d))
      ∧ (∀ a, a < s.outLen.toNat → t.outMem.read a = s.outMem.read a)

/-- For every L in 3..258 some instruction latches length L and awaits the distance; for every D in 1..32768 exec of some
distance code latches D, and no distance code latches a distance outside 1..32768. Where LL symbol 257 + i (i in
0..28) is decoded, LEXTRA[i] extra bits follow it and the instruction latches LBASE[i] plus them; where D symbol i
(0..29) is decoded, DEXTRA[i] extra bits follow and the instruction latches DBASE[i] plus them. The bases and widths
agree with LBASE[i+1] = LBASE[i] + 2^LEXTRA[i] (i in 0..26) and DBASE[i+1] = DBASE[i] + 2^DEXTRA[i]. Rests on R107,
R279, R280. -/
def Obligations.EveryMatchHasItsCodes : Prop :=
  (∀ L, 3 ≤ L → L ≤ 258 →
    ∃ i : Instr, ∀ s : State, exec i s = .next { s with length := BitVec.ofNat 9 L, expect := .dist })
  ∧ (∀ D, 1 ≤ D → D ≤ 32768 →
      ∃ i : Instr, matchDistance i = some D ∧ ∀ s : State, ∃ t, exec i s = .next t ∧ t.distance.toNat = D)
  ∧ (∀ (i : Instr) (d : Nat), matchDistance i = some d →
      1 ≤ d ∧ d ≤ 32768 ∧ ∀ s : State, ∃ t, exec i s = .next t ∧ t.distance.toNat = d)
  ∧ (∀ i, i < 29 → ∀ (t : Huff) (r r1 r2 : Reader) (e : BitVec (lengthExtras.getD i 0)),
      decodeSym t r = .ok (257 + i) r1 → r1.getBits (lengthExtras.getD i 0) = .ok e r2 →
      ∃ ins, decode (.litLen t) r = .ok ins r2
        ∧ ∀ s : State, exec ins s = .next { s with length := BitVec.ofNat 9 (lbase i + e.toNat), expect := .dist })
  ∧ (∀ i, i < 30 → ∀ (t : Huff) (r r1 r2 : Reader) (e : BitVec (distanceExtras.getD i 0)),
      decodeSym t r = .ok i r1 → r1.getBits (distanceExtras.getD i 0) = .ok e r2 →
      ∃ ins, decode (.dist t) r = .ok ins r2
        ∧ ∀ s : State, ∃ u, exec ins s = .next u ∧ u.distance.toNat = dbase i + e.toNat)
  ∧ (∀ i, i < 27 → lbase (i + 1) = lbase i + 2 ^ lengthExtras.getD i 0)
  ∧ (∀ i, i < 29 → dbase (i + 1) = dbase i + 2 ^ distanceExtras.getD i 0)

/-- raise X sets STATUS.BUSY to 0, ERROR to 1, DONE to 0, ERRCODE to the code of X, FSM to ERROR, and changes nothing
else; the thirteen codes are those of R330. Rests on R331, R330. -/
def Obligations.ErrorEntry : Prop :=
  (∀ (x : JobError) (s : State),
    raise x s = { s with busy := false, error := true, done := false, errcode := x.code, fsm := .error })
  ∧ JobError.unsupportedMethod.code = 1 ∧ JobError.unsupportedWindowSize.code = 2
  ∧ JobError.headerChecksumInvalid.code = 3 ∧ JobError.presetDictionaryUnsupported.code = 4
  ∧ JobError.invalidBlockType.code = 5 ∧ JobError.lengthMismatch.code = 6
  ∧ JobError.repeatWithNoPrior.code = 7 ∧ JobError.huffmanDecodeOutOfRange.code = 8
  ∧ JobError.inputExhausted.code = 9 ∧ JobError.checksumMismatch.code = 10
  ∧ JobError.distanceTooFar.code = 11 ∧ JobError.codeLengthOverrun.code = 12
  ∧ JobError.outputOverflow.code = 13

/-- In a state of the invariant with a running job and the engine's turn: a step that ends in InputExhausted leaves IN_POS
at E << 3, or at 0 when N < 2 at the header fetch. And at (E, 0), with anything but the header or the trailer to read,
the step does end in InputExhausted. Rests on R341. -/
def Obligations.InputExhaustedLeavesCursorAtEnd : Prop :=
  ∀ s t : State, s.Inv → s.busy = true → s.engineTurn → step s = .next t →
    (t.error = true → t.errcode = 9 →
      (s.expect = .zlibHdr ∧ s.n.toNat < 2 ∧ t.inPos = 0)
      ∨ (s.expect ≠ .zlibHdr ∧ s.expect ≠ .trailer ∧ t.inPos.toNat = 8 * s.e.toNat))
    ∧ (s.expect ≠ .zlibHdr → s.expect ≠ .trailer → s.inPos.toNat = 8 * s.e.toNat → t.error = true ∧ t.errcode = 9)
    ∧ (s.expect = .zlibHdr → s.n.toNat < 2 → t.error = true ∧ t.errcode = 9)

/-- With BUSY = 0 and no host move pending the step leaves the whole state as it is, so an ended job takes no further
step, for any number of steps. Rests on R352. -/
def Obligations.NoStepOutsideAJob : Prop :=
  ∀ s : State, s.busy = false → s.hostMoves = [] → step s = .next s ∧ ∀ k, core.run k s = .next s

/-- A 32-bit read at an offset of REG returns: CTRL with STORED_ALIGN in bit 1 and all else 0; STATUS with BUSY, DONE,
ERROR in bits 0, 1, 2 and ERRCODE in bits 7:4, all else 0; IN_LEN; OUT_CAP; OUT_LEN; ADLER as (b << 16) | a; TRAILER;
IN_POS; FSM as the number of R31; 0 at 0x24 to 0x3C. The block's state does not change. The value lands in busData,
the model's own (log 4). Rests on R22, R23, R24, R25, R26, R27, R28, R29, R30, R31, R32, R73. -/
def Obligations.RegistersReadWhileIdle : Prop :=
  ∀ (s : State) (o : Nat) (rest : List HostMove), s.hostMoves = .busRead (s.params.regBase + o) 4 :: rest → s.busy = false →
    let answers (v : Word) : Prop := step s = .next { s with hostMoves := rest, busData := v }
    (o = 0x00 → answers ((0 : BitVec 30) ++ BitVec.ofBool s.storedAlign ++ (0 : BitVec 1)))
    ∧ (o = 0x04 → answers ((0 : BitVec 24) ++ s.errcode ++ (0 : BitVec 1) ++ BitVec.ofBool s.error ++ BitVec.ofBool s.done
        ++ BitVec.ofBool s.busy))
    ∧ (o = 0x08 → answers s.inLen) ∧ (o = 0x0C → answers s.outCap) ∧ (o = 0x10 → answers s.outLen)
    ∧ (o = 0x14 → answers (s.adlerB ++ s.adlerA)) ∧ (o = 0x18 → answers s.trailer) ∧ (o = 0x1C → answers s.inPos)
    ∧ (o = 0x20 → answers (match s.fsm with
        | .idle => 0 | .zlibHeader => 1 | .blockHeader => 2 | .stored => 3 | .fixed => 4 | .dynamicHeader => 5
        | .dynamic => 6 | .trailer => 7 | .done => 8 | .error => 9))
    ∧ (0x24 ≤ o → o ≤ 0x3C → o % 4 = 0 → answers 0)

/-- During a job, in a state of the invariant, STATUS reads BUSY = 1 and 0 everywhere else, and CTRL, IN_LEN, OUT_CAP and
the reserved offsets as always; OUT_LEN, ADLER, TRAILER, IN_POS and every OUT byte return a free value, the next of
the model's draws (log 5), about which nothing is known; of FSM bits 3:0 are drawn so and bits 31:4 read 0 (R31). The
job does not notice. Rests on R42, R366, R31. -/
def Obligations.RegistersReadWhileBusy : Prop :=
  ∀ (s : State) (rest : List HostMove), s.busy = true → s.Inv →
    (∀ o, s.hostMoves = .busRead (s.params.regBase + o) 4 :: rest →
      (o = 0x04 → step s = .next { s with hostMoves := rest, busData := 1 })
      ∧ (o = 0x00 → step s = .next { s with hostMoves := rest, busData := BitVec.ofNat 32 (2 * s.storedAlign.toNat) })
      ∧ (o = 0x08 → step s = .next { s with hostMoves := rest, busData := s.inLen })
      ∧ (o = 0x0C → step s = .next { s with hostMoves := rest, busData := s.outCap })
      ∧ (0x24 ≤ o → o ≤ 0x3C → o % 4 = 0 → step s = .next { s with hostMoves := rest, busData := 0 })
      ∧ (o ∈ [0x10, 0x14, 0x18, 0x1C] →
          step s = .next { s with hostMoves := rest, busData := Config.freeWord s.draws, draws := s.draws + 1 })
      ∧ (o = 0x20 → ∃ v : BitVec 4, v = (Config.freeWord s.draws).setWidth 4
          ∧ step s = .next { s with hostMoves := rest, busData := (0 : BitVec 28) ++ v, draws := s.draws + 1 }))
    ∧ (∀ addr o, s.hostMoves = .busRead addr 1 :: rest → route s.params addr = .output o →
        step s = .next { s with
          hostMoves := rest
          busData := (Config.freeByte s.draws).setWidth 32
          draws := s.draws + 1 })

/-- While idle a write of v at IN_LEN stores min(v, IN_MEM_SIZE), at OUT_CAP min(v, OUT_MEM_SIZE); a write at STATUS, at a
result register or at a reserved offset changes nothing. Rests on R24, R25, R26, R32, R73. -/
def Obligations.RegisterWritesKeepLegalValues : Prop :=
  ∀ (s : State) (o : Nat) (v : Word) (rest : List HostMove),
    s.hostMoves = .busWrite (s.params.regBase + o) 4 v :: rest → s.busy = false →
    (o = 0x08 → ∃ w : Word, w.toNat = min v.toNat s.params.inMemSize
      ∧ step s = .next { s with hostMoves := rest, inLen := w })
    ∧ (o = 0x0C → ∃ w : Word, w.toNat = min v.toNat s.params.outMemSize
      ∧ step s = .next { s with hostMoves := rest, outCap := w })
    ∧ (o ∈ [0x04, 0x10, 0x14, 0x18, 0x1C, 0x20, 0x24, 0x28, 0x2C, 0x30, 0x34, 0x38, 0x3C] →
        step s = .next { s with hostMoves := rest })

/-- During a job a 32-bit aligned write at any offset of REG, CTRL with START = 1 included, changes nothing: it is lost,
not queued. Rests on R365. -/
def Obligations.RegisterWritesWhileBusyAreIgnored : Prop :=
  ∀ (s : State) (o : Nat) (v : Word) (rest : List HostMove),
    s.hostMoves = .busWrite (s.params.regBase + o) 4 v :: rest → s.busy = true → o < 64 → o % 4 = 0 →
    step s = .next { s with hostMoves := rest }

/-- A host access to REG of a width other than 4 or at an offset that is no multiple of 4 is refused, and so is a host
write of a byte of IN or OUT while BUSY = 1. Rests on R61, R78, R364, R367. -/
def Obligations.HostAccessesRefused : Prop :=
  ∀ (s : State) (width : Nat) (v : Word) (rest : List HostMove),
    (∀ o, o < 64 → width ≠ 4 ∨ o % 4 ≠ 0 →
      s.hostMoves = .busRead (s.params.regBase + o) width :: rest
        ∨ s.hostMoves = .busWrite (s.params.regBase + o) width v :: rest → step s = .refused .regAccess)
    ∧ (∀ addr o, s.busy = true → route s.params addr = .input o ∨ route s.params addr = .output o →
      s.hostMoves = .busWrite addr 1 v :: rest → step s = .refused .hostWriteWhileBusy)

/-- With BUSY = 0 and the spaces not overlapping: a host write of a byte at IN_BASE + o (OUT_BASE + o) stores it at offset
o of IN (OUT), every other byte of both reads as before, and a read at the same address then returns it,
zero-extended; nothing else of the block changes. Rests on R60, R62, R73. -/
def Obligations.BufferReadsWhatTheHostWrote : Prop :=
  ∀ (s : State) (v : Word) (o : Nat) (rest : List HostMove), s.busy = false → s.params.disjoint →
    s.inMem.wf = true → s.outMem.wf = true →
    (o < s.params.inMemSize →
      s.hostMoves = .busWrite (s.params.inBase + o) 1 v :: .busRead (s.params.inBase + o) 1 :: rest →
      ∃ t, core.run 2 s = .next { s with hostMoves := rest, inMem := t, busData := (v.setWidth 8).setWidth 32 }
        ∧ Memory.read t o = v.setWidth 8 ∧ ∀ a, a ≠ o → Memory.read t a = s.inMem.read a)
    ∧ (o < s.params.outMemSize →
      s.hostMoves = .busWrite (s.params.outBase + o) 1 v :: .busRead (s.params.outBase + o) 1 :: rest →
      ∃ t, core.run 2 s = .next { s with hostMoves := rest, outMem := t, busData := (v.setWidth 8).setWidth 32 }
        ∧ Memory.read t o = v.setWidth 8 ∧ ∀ a, a ≠ o → Memory.read t a = s.outMem.read a)

/-- CTRL, STATUS, IN_LEN, OUT_CAP, OUT_LEN, TRAILER, IN_POS and FSM read 0, ADLER reads 1, nothing is pending, and the
engine takes no step. The values of the state R360 calls unspecified are the model's (log 6) and no part of this. A
host reset at any time leaves the registers the same, a running job with no DONE and no ERROR; IN is not changed, and
OUT is not when no job ran. Rests on R360, R361. -/
def Obligations.ResetState : Prop :=
  State.reset.ctrlWord = 0 ∧ State.reset.statusWord = 0 ∧ State.reset.inLen = 0 ∧ State.reset.outCap = 0
  ∧ State.reset.outLen = 0 ∧ State.reset.adlerWord = 1 ∧ State.reset.trailer = 0 ∧ State.reset.inPos = 0
  ∧ State.reset.fsmWord = 0 ∧ core.reset = State.reset ∧ (∀ k, core.run k State.reset = .next State.reset)
  ∧ ∀ (s : State) (rest : List HostMove), s.hostMoves = .reset :: rest →
    ∃ t, step s = .next t ∧ t.ctrlWord = 0 ∧ t.statusWord = 0 ∧ t.inLen = 0 ∧ t.outCap = 0 ∧ t.outLen = 0
      ∧ t.adlerWord = 1 ∧ t.trailer = 0 ∧ t.inPos = 0 ∧ t.fsmWord = 0 ∧ t.inMem = s.inMem
      ∧ (s.busy = false → t.outMem = s.outMem) ∧ t.params = s.params ∧ t.hostMoves = rest

/-- When exec gives a next state: an instruction other than STORED_BYTE, LIT and DIST_0 to DIST_29 leaves every byte of
IN, OUT and WINDOW; one of these leaves every byte of IN, every byte of OUT outside OUT_LEN before to OUT_LEN after,
and every window entry other than (wp + k) mod 32768 for the k below the number of bytes emitted. HOST_START emits
nothing. Rests on R63, R64, R212. -/
def Obligations.OnlyOutputInstructionsWriteMemory : Prop :=
  ∀ (i : Instr) (s t : State), exec i s = .next t →
    (emitsOutput i = false → s.sameBytes t)
    ∧ (emitsOutput i = true → s.outMem.wf = true → s.window.wf = true →
        (∀ a, t.inMem.read a = s.inMem.read a)
        ∧ s.outLen.toNat ≤ t.outLen.toNat
        ∧ (∀ a, a < s.outLen.toNat ∨ t.outLen.toNat ≤ a → t.outMem.read a = s.outMem.read a)
        ∧ (∀ a, (∀ k, k < t.outLen.toNat - s.outLen.toNat → a ≠ (s.wp.toNat + k) % 32768) →
            t.window.read a = s.window.read a))

/-- When exec of an instruction other than HOST_START gives a next state, the state differs from the one before only in
STATUS, FSM, the model's control point and the fields the instruction's rule names (writtenBy lists them); the
registers CTRL, IN_LEN, OUT_CAP, the job latches, IN and the host's side never change; and except for ADLER_TRAILER
the flags are as before or those of an error. Rests on R41, R171, R178, R181, R212, R214, R301, R308, R312. -/
def Obligations.StreamInstructionsWriteOnlyTheirState : Prop :=
  ∀ (i : Instr) (s t : State), exec i s = .next t → (∀ w, i ≠ .hostStart w) →
    (writtenBy i s t).sameData t ∧ ((∀ T, i ≠ .adlerTrailer T) → s.flagsKeptOrError t)

/-- In a state of the invariant, a step of the engine leaves IN, CTRL, IN_LEN and OUT_CAP, does not decrease OUT_LEN,
keeps OUT_LEN at most CAP during a job, and leaves every OUT byte outside the offsets OUT_LEN before up to OUT_LEN
after. Rests on R62, R63, R78, R79. -/
def Obligations.EngineWritesOnlyNewOutput : Prop :=
  ∀ s t : State, s.Inv → s.engineTurn → step s = .next t →
    t.inMem = s.inMem ∧ t.storedAlign = s.storedAlign ∧ t.inLen = s.inLen ∧ t.outCap = s.outCap
    ∧ s.outLen.toNat ≤ t.outLen.toNat ∧ (s.busy = true → t.outLen.toNat ≤ s.cap.toNat)
    ∧ ∀ a, a < s.outLen.toNat ∨ t.outLen.toNat ≤ a → t.outMem.read a = s.outMem.read a

/-- State.reset meets State.Inv: the memories are in canonical form and within their spaces, the RAMs have their sizes,
the registers hold legal values, the status is a legal combination. Three parts rest on values the model names for
state R360 calls unspecified: that wp is OUT_LEN mod 32768, that the symbols of the table RAMs lie in their alphabets,
and what WINDOW lists (log 6, DESIGN CHOICE). The empty IN and OUT are log 3, the parameters log 2. Rests on R360,
R24, R25, R26, R28, R33, R35, R37. -/
def Obligations.InvariantAtReset : Prop :=
  State.reset.Inv

/-- From every state of the invariant, if step answers a next state, that state meets it: memories in canonical form and
within their spaces, RAM sizes and symbols in their alphabets, IN_LEN and OUT_CAP legal, a and b in 0..65520, wp =
OUT_LEN mod 32768, a legal combination of BUSY, DONE, ERROR with FSM and ERRCODE, and during a job the latches equal
to the registers, the cursor inside the bit region, the header latches in their ranges. The control-point part is the
model's own (log 1). On the host's reset move wp, the symbols of the table RAMs and WINDOW meet it only by the values
the model names for state R360 calls unspecified (log 6, DESIGN CHOICE). Rests on R24, R25, R26, R28, R33, R35, R37,
R38, R39, R127, R190, R315. -/
def Obligations.InvariantIsKept : Prop :=
  ∀ s t : State, s.Inv → step s = .next t → t.Inv

/-- In a state of the invariant, when it is the engine's turn, step answers a next state, whatever the input bytes are:
every malformed stream ends in an error the host can read, never in a fault or a refusal of the model. Rests on R190,
R332, R348. -/
def Obligations.EngineNeverStops : Prop :=
  ∀ s : State, s.Inv → s.engineTurn → ∃ t, step s = .next t

/-- From every state of the invariant with a running job and no host move pending, 8*E + 2 steps of the engine lead to a
state with BUSY = 0 and exactly one of DONE and ERROR, and each step emits at most 258 bytes. That jobs end after
finitely many steps is R315's; the bound 8*E + 2, one step per bit of the region and a few more, counts the model's
own steps, one an instruction (log 1, DESIGN CHOICE), since R369 leaves the number of steps open. Rests on R315, R369. -/
def Obligations.EveryJobEnds : Prop :=
  ∀ s : State, s.Inv → s.busy = true → s.hostMoves = [] →
    (∃ t, core.run (8 * s.e.toNat + 2) s = .next t ∧ t.busy = false ∧ t.done = !t.error)
    ∧ (∀ t, step s = .next t → t.outLen.toNat ≤ s.outLen.toNat + 258)

/-- HOST_START makes it true: a state it starts has ADLER equal to the Adler-32 of its empty output. And every step from a
state of the invariant with a running job keeps it, the step that ends the job in DONE or ERROR included, except a
reset. So it holds at every step boundary of a job and of its result. Rests on R311. -/
def Obligations.ChecksumIsAdlerOfOutput : Prop :=
  (∀ (w : BitVec 32) (s t : State), s.busy = false → exec (.hostStart w) s = .next t → t.checksumOfOutput)
  ∧ ∀ s t : State, s.Inv → s.busy = true → s.checksumOfOutput → step s = .next t →
      (∀ rest, s.hostMoves ≠ .reset :: rest) → t.checksumOfOutput

/-- HOST_START makes it true (nothing is emitted yet), and every step from a state of the invariant with a running job
keeps it, except a reset: for every k from 1 to the smaller of 32768 and OUT_LEN, WINDOW[(wp - k) mod 32768] =
OUT[OUT_LEN - k]. Rests on R33, R276, R277, R278. -/
def Obligations.WindowMirrorsOutput : Prop :=
  (∀ (w : BitVec 32) (s t : State), s.busy = false → exec (.hostStart w) s = .next t → t.windowMirrors)
  ∧ ∀ s t : State, s.Inv → s.busy = true → s.windowMirrors → step s = .next t →
      (∀ rest, s.hostMoves ≠ .reset :: rest) → t.windowMirrors

/-- From any state, a step that takes BUSY from 0 to 1 is a 32-bit host write at REG_BASE whose bit 0 is 1; no instruction
of the stream and no other host move begins a job. Rests on R41, R300, R360. -/
def Obligations.OnlyStartBeginsAJob : Prop :=
  ∀ s t : State, step s = .next t → s.busy = false → t.busy = true →
    ∃ (v : Word) (rest : List HostMove), s.hostMoves = .busWrite s.params.regBase 4 v :: rest ∧ v.getLsbD 0 = true

/-- From a state of the invariant, a step that takes BUSY from 1 to 0 leaves DONE = 1, ERROR = 0, ERRCODE = 0 and FSM
DONE, having found TRAILER equal to ADLER; or ERROR = 1, DONE = 0, ERRCODE in 1..13 and FSM ERROR; or it is a host
reset. Rests on R371, R314, R331, R361. -/
def Obligations.JobsEndOnlyInDoneErrorOrReset : Prop :=
  ∀ s t : State, s.Inv → step s = .next t → s.busy = true → t.busy = false →
    (t.done = true ∧ t.error = false ∧ t.errcode = 0 ∧ t.fsm = .done ∧ t.trailer = t.adlerWord)
    ∨ (t.done = false ∧ t.error = true ∧ 1 ≤ t.errcode.toNat ∧ t.errcode.toNat ≤ 13 ∧ t.fsm = .error)
    ∨ ∃ rest, s.hostMoves = .reset :: rest

/-- From any state with BUSY = 0, a step after which BUSY is still 0 and which is no reset leaves STATUS, OUT_LEN, ADLER,
TRAILER, IN_POS and FSM as they were; an error leaves OUT_LEN, ADLER, TRAILER and IN_POS at their values when it is
raised. Rests on R43. -/
def Obligations.ResultsPersist : Prop :=
  (∀ s t : State, step s = .next t → s.busy = false → t.busy = false → (∀ rest, s.hostMoves ≠ .reset :: rest) →
    t.statusWord = s.statusWord ∧ t.outLen = s.outLen ∧ t.adlerWord = s.adlerWord ∧ t.trailer = s.trailer
    ∧ t.inPos = s.inPos ∧ t.fsm = s.fsm)
  ∧ ∀ (x : JobError) (s : State), (raise x s).outLen = s.outLen ∧ (raise x s).adlerWord = s.adlerWord
    ∧ (raise x s).trailer = s.trailer ∧ (raise x s).inPos = s.inPos ∧ (raise x s).fsm = .error

/-- From a state of the invariant, a step of a running job that leaves it running, whatever the host does in it, leaves
IN, IN_LEN, OUT_CAP, STORED_ALIGN, N, CAP, ALIGN and E. Rests on R39, R76, R78. -/
def Obligations.JobInputsAreFixed : Prop :=
  ∀ s t : State, s.Inv → step s = .next t → s.busy = true → t.busy = true →
    t.inMem = s.inMem ∧ t.inLen = s.inLen ∧ t.outCap = s.outCap ∧ t.storedAlign = s.storedAlign
    ∧ t.n = s.n ∧ t.cap = s.cap ∧ t.align = s.align ∧ t.e = s.e

/-- Two idle states of the invariant with the same IN, IN_LEN and OUT_CAP, whatever else earlier jobs left in them
(window, tables, arrays, latches, OUT, results), are started with the same word. After any number of engine steps both
show the same observable state: STATUS, OUT_LEN, ADLER, TRAILER, IN_POS, FSM and OUT[0 .. OUT_LEN). Rests on R362. -/
def Obligations.JobsAreIndependent : Prop :=
  ∀ (s1 s2 : State) (w : BitVec 32) (k : Nat), s1.Inv → s2.Inv → s1.busy = false → s2.busy = false →
    s1.hostMoves = [] → s2.hostMoves = [] → s1.inMem = s2.inMem → s1.inLen = s2.inLen → s1.outCap = s2.outCap →
    ∃ t1 t2 u1 u2, exec (.hostStart w) s1 = .next t1 ∧ exec (.hostStart w) s2 = .next t2
      ∧ core.run k t1 = .next u1 ∧ core.run k t2 = .next u2 ∧ u1.observed = u2.observed
end

