-- ==== Sys2Proof/Laws/BitReader.lean ====
section
/-! SUPPORT. The laws of the bit reader: what a read answers and where it leaves the cursor. -/

namespace Sys2Proof.Machine

@[simp] theorem Reader.skip_mem (r : Reader) (k : Nat) : (r.skip k).mem = r.mem := rfl
@[simp] theorem Reader.skip_n (r : Reader) (k : Nat) : (r.skip k).n = r.n := rfl
@[simp] theorem Reader.skip_stop (r : Reader) (k : Nat) : (r.skip k).stop = r.stop := rfl
@[simp] theorem Reader.skip_pos (r : Reader) (k : Nat) : (r.skip k).pos = r.pos + BitVec.ofNat 32 k := rfl

@[simp] theorem Reader.skip_zero (r : Reader) : r.skip 0 = r := by
  cases r; simp [Reader.skip]

theorem Reader.skip_skip (r : Reader) (j k : Nat) : (r.skip j).skip k = r.skip (j + k) := by
  cases r; simp [Reader.skip, BitVec.ofNat_add, BitVec.add_assoc]

/-- Within the region the cursor moves by as many bits as are skipped. -/
theorem Reader.skip_toNat {r : Reader} {k : Nat} (hs : 8 * r.stop < 2 ^ 32) (hk : r.pos.toNat + k ≤ 8 * r.stop) :
    (r.skip k).pos.toNat = r.pos.toNat + k := by
  simp only [Reader.skip_pos, BitVec.toNat_add, BitVec.toNat_ofNat]
  omega

theorem Reader.getBit_eq_ok {r r1 : Reader} {b : Bool} (h : r.getBit = .ok b r1) :
    b = bitAt r.mem r.pos ∧ r1 = r.skip 1 ∧ r.pos.toNat + 1 ≤ 8 * r.stop := by
  simp only [Reader.getBit] at h
  split at h
  · cases h
  · rename_i hs
    simp only [ReadResult.ok.injEq] at h
    refine ⟨h.1.symm, ?_, ?_⟩
    · rw [← h.2]; simp [Reader.skip]
    · simp only [byteOff] at hs; omega

theorem Reader.getBit_eq_exhausted {r r1 : Reader} (h : r.getBit = .exhausted r1) :
    r1 = r ∧ 8 * r.stop ≤ r.pos.toNat := by
  simp only [Reader.getBit] at h
  split at h
  · rename_i hs
    simp only [ReadResult.exhausted.injEq] at h
    simp only [byteOff] at hs
    exact ⟨h.symm, by omega⟩
  · cases h

/-- A read of the bit at the cursor succeeds inside the region. -/
theorem Reader.getBit_inside {r : Reader} (h : r.pos.toNat < 8 * r.stop) :
    r.getBit = .ok (bitAt r.mem r.pos) (r.skip 1) := by
  have : ¬ r.stop ≤ byteOff r.pos := by simp only [byteOff]; omega
  simp [Reader.getBit, this, Reader.skip]

/-- A successful `get_bits(n)` leaves the cursor n bits further on, inside the region. -/
theorem Reader.getBits_eq_ok {n : Nat} {r r1 : Reader} {v : BitVec n} (hs : 8 * r.stop < 2 ^ 32)
    (hp : r.pos.toNat ≤ 8 * r.stop) (h : r.getBits n = .ok v r1) :
    r1 = r.skip n ∧ r.pos.toNat + n ≤ 8 * r.stop := by
  induction n generalizing r r1 with
  | zero =>
    simp only [Reader.getBits, ReadResult.ok.injEq] at h
    exact ⟨by simp [h.2], by omega⟩
  | succ n ih =>
    simp only [Reader.getBits] at h
    split at h
    · cases h
    · rename_i b r2 hb
      obtain ⟨-, rfl, hle⟩ := Reader.getBit_eq_ok hb
      split at h
      · cases h
      · rename_i v2 r3 hv
        simp only [ReadResult.ok.injEq] at h
        obtain ⟨hr, hle2⟩ := ih (by simpa using hs) (by rw [Reader.skip_toNat hs hle]; simpa using hle) hv
        rw [Reader.skip_toNat hs hle] at hle2
        rw [← h.2, hr, Reader.skip_skip]
        refine ⟨by rw [Nat.add_comm], ?_⟩
        simp only [Reader.skip_stop] at hle2
        omega

/-- A `get_bits(n)` that runs out of input leaves the cursor at the end of the region. -/
theorem Reader.getBits_eq_exhausted {n : Nat} {r r1 : Reader} (hs : 8 * r.stop < 2 ^ 32)
    (hp : r.pos.toNat ≤ 8 * r.stop) (h : r.getBits n = .exhausted r1) :
    ∃ k, k < n ∧ r1 = r.skip k ∧ r.pos.toNat + k = 8 * r.stop := by
  induction n generalizing r r1 with
  | zero => cases h
  | succ n ih =>
    simp only [Reader.getBits] at h
    split at h
    · rename_i r2 hb
      simp only [ReadResult.exhausted.injEq] at h
      obtain ⟨rfl, hle⟩ := Reader.getBit_eq_exhausted hb
      exact ⟨0, by omega, by simp [h], by omega⟩
    · rename_i b r2 hb
      obtain ⟨-, rfl, hle⟩ := Reader.getBit_eq_ok hb
      split at h
      · rename_i r3 hv
        simp only [ReadResult.exhausted.injEq] at h
        obtain ⟨k, hk, hr, he⟩ := ih (by simpa using hs) (by rw [Reader.skip_toNat hs hle]; simpa using hle) hv
        rw [Reader.skip_toNat hs hle] at he
        simp only [Reader.skip_stop] at he
        exact ⟨k + 1, by omega, by rw [← h, hr, Reader.skip_skip, Nat.add_comm], by omega⟩
      · cases h

/-- The value of a `get_bits(n)`: bit i is the i-th bit read. -/
theorem Reader.getBits_value {n : Nat} {r r1 : Reader} {v : BitVec n} (h : r.getBits n = .ok v r1) (i : Nat)
    (hi : i < n) : v.getLsbD i = bitAt r.mem (r.pos + BitVec.ofNat 32 i) := by
  induction n generalizing r r1 i with
  | zero => omega
  | succ n ih =>
    simp only [Reader.getBits] at h
    split at h
    · cases h
    · rename_i b r2 hb
      obtain ⟨hbit, rfl, -⟩ := Reader.getBit_eq_ok hb
      split at h
      · cases h
      · rename_i v2 r3 hv
        simp only [ReadResult.ok.injEq] at h
        rw [← h.1]
        cases i with
        | zero => simp [hbit]
        | succ i =>
          rw [BitVec.getLsbD_concat, if_neg (by omega)]
          have := ih hv i (by omega)
          simp only [Nat.add_sub_cancel, this, Reader.skip_mem, Reader.skip_pos, BitVec.ofNat_add, BitVec.add_assoc]
          rw [BitVec.add_comm (BitVec.ofNat 32 1)]

/-- A field is its lowest bit and the field of the rest. -/
theorem fieldBits_succ {n : Nat} (v : BitVec (n + 1)) :
    fieldBits v = v.getLsbD 0 :: fieldBits ((v >>> 1).setWidth n) := by
  simp only [fieldBits, List.range_succ_eq_map, List.map_cons, List.map_map, List.cons.injEq, true_and]
  apply List.map_congr_left
  intro i hi
  have : i < n := List.mem_range.mp hi
  simp [this, Nat.add_comm]

@[simp] theorem fieldBits_length {n : Nat} (v : BitVec n) : (fieldBits v).length = n := by simp [fieldBits]

/-- Bits that a reader sees are the ones `get_bits` answers. -/
theorem Reader.getBits_of_sees {n : Nat} {r : Reader} (v : BitVec n) (h : r.sees (fieldBits v)) :
    r.getBits n = .ok v (r.skip n) := by
  induction n generalizing r with
  | zero => simp [Reader.getBits, BitVec.eq_nil v]
  | succ n ih =>
    rw [fieldBits_succ] at h
    obtain ⟨hb, h⟩ := h
    simp only [Reader.getBits, hb, ih _ h, Reader.skip_skip, ReadResult.ok.injEq, Nat.add_comm, and_true]
    ext i hi
    simp only [BitVec.getElem_concat]
    cases i with
    | zero => simp
    | succ i => simp [Nat.add_comm 1, BitVec.getLsbD_eq_getElem hi]

/-- Seeing a bit string is seeing its first part, and from there the rest. -/
theorem Reader.sees_append {xs ys : List Bool} {r : Reader} :
    r.sees (xs ++ ys) ↔ r.sees xs ∧ (r.skip xs.length).sees ys := by
  induction xs generalizing r with
  | nil => simp [Reader.sees]
  | cons b xs ih =>
    simp only [List.cons_append, Reader.sees, ih, List.length_cons, Reader.skip_skip, and_assoc, Nat.add_comm]

/-- Within the region the bit `i` places on is bit `i mod 8` of its byte. -/
theorem bitAt_skip {r : Reader} (hs : r.stop < 2 ^ 29) {i : Nat} (hp : r.pos.toNat + i < 8 * r.stop) :
    bitAt r.mem (r.pos + BitVec.ofNat 32 i) = (r.mem.read ((r.pos.toNat + i) / 8)).getLsbD ((r.pos.toNat + i) % 8) := by
  have : (r.pos + BitVec.ofNat 32 i).toNat = r.pos.toNat + i := by
    simp only [BitVec.toNat_add, BitVec.toNat_ofNat]; omega
  simp only [bitAt, byteOff, bitOff, this]

/-- `get_bits(n)` answers a value exactly when `n` bits remain. -/
theorem Reader.getBits_total {n : Nat} {r : Reader} (hs : 8 * r.stop < 2 ^ 32) (hp : r.pos.toNat ≤ 8 * r.stop) :
    (r.pos.toNat + n ≤ 8 * r.stop → ∃ v, r.getBits n = .ok v (r.skip n)) ∧
    (8 * r.stop < r.pos.toNat + n → ∃ r1, r.getBits n = .exhausted r1) := by
  cases h : r.getBits n with
  | ok v r1 =>
    obtain ⟨rfl, h2⟩ := Reader.getBits_eq_ok hs hp h
    exact ⟨fun _ => ⟨v, rfl⟩, fun h3 => by omega⟩
  | exhausted r1 =>
    obtain ⟨k, h1, h2, h3⟩ := Reader.getBits_eq_exhausted hs hp h
    exact ⟨fun h4 => by omega, fun _ => ⟨r1, rfl⟩⟩

end Sys2Proof.Machine
end

