-- ==== Sys2Proof/Laws/Huffman.lean ====
section
/-! SUPPORT. What `build` leaves in a table (41_huffman.md R142 to R145), step by step, and the decode of a canonical code
(R146, R152). -/

namespace Sys2Proof.Machine

/-! ### Step 1, counts -/

theorem foldl_counts (lengths acc : List Nat) (h : ∀ l ∈ lengths, l < acc.length) :
    (lengths.foldl (fun counts l => counts.modify l (· + 1)) acc).length = acc.length
    ∧ ∀ k, (lengths.foldl (fun counts l => counts.modify l (· + 1)) acc).getD k 0 = acc.getD k 0 + lengths.count k := by
  induction lengths generalizing acc with
  | nil => simp
  | cons l lengths ih =>
    obtain ⟨h1, h2⟩ := ih (acc.modify l (· + 1)) (fun x hx => by simpa using h x (by simp [hx]))
    refine ⟨by simpa using h1, fun k => ?_⟩
    rw [List.foldl_cons, h2 k, List.count_cons]
    have hl : l < acc.length := h l (by simp)
    simp only [List.getD, List.getElem?_modify]
    by_cases hk : l = k
    · subst hk; simp [hl]; omega
    · simp [hk]

theorem lengthCounts_length {lengths : List Nat} (h : ∀ l ∈ lengths, l ≤ 15) : (lengthCounts lengths).length = 16 := by
  simp only [lengthCounts, List.length_set]
  rw [(foldl_counts lengths (List.replicate 16 0) (fun l hl => by have := h l hl; simp; omega)).1]
  simp

theorem lengthCounts_getD {lengths : List Nat} (h : ∀ l ∈ lengths, l ≤ 15) (len : Nat) :
    (lengthCounts lengths).getD len 0 = lenCount lengths len := by
  have hf := foldl_counts lengths (List.replicate 16 0) (fun l hl => by have := h l hl; simp; omega)
  simp only [lengthCounts, lenCount]
  by_cases h0 : len = 0
  · subst h0
    rw [if_pos rfl]
    simp only [List.getD, List.getElem?_set, if_true]
    split <;> rfl
  · rw [if_neg h0]
    have := hf.2 len
    simp only [List.getD, List.getElem?_set, List.getElem?_replicate] at this ⊢
    rw [if_neg (by omega), this]
    split <;> simp

theorem lenCount_le (lengths : List Nat) (len : Nat) : lenCount lengths len ≤ lengths.length := by
  simp only [lenCount]; split
  · omega
  · exact List.count_le_length

/-- The counts as the decoder reads them. -/
theorem buildTable_counts {old : HuffTable} {lengths : List Nat} (h : ∀ l ∈ lengths, l ≤ 15) (hn : lengths.length ≤ 288) :
    (buildTable old lengths).code.counts = lengthCounts lengths := by
  simp only [buildTable, HuffTable.code, List.map_map]
  rw [List.map_congr_left (g := id), List.map_id]
  intro c hc
  obtain ⟨k, hk, rfl⟩ := List.getElem_of_mem hc
  have h1 := lengthCounts_getD h k
  rw [List.getD_eq_getElem _ _ hk] at h1
  have h2 := lenCount_le lengths k
  simp only [Function.comp_apply, BitVec.toNat_ofNat, id_eq]
  omega

/-! ### Step 2, offsets -/

/-- The number of coded symbols of a length below `len`: where the symbols of that length start. -/
def startOf (lengths : List Nat) : Nat → Nat
  | 0 => 0
  | len + 1 => startOf lengths len + lenCount lengths len

theorem startOf_mono (lengths : List Nat) {a b : Nat} (h : a < b) :
    startOf lengths a + lenCount lengths a ≤ startOf lengths b := by
  induction b with
  | zero => omega
  | succ b ih =>
    simp only [startOf]
    rcases Nat.lt_succ_iff_lt_or_eq.mp h with h | rfl
    · have := ih h; omega
    · omega

theorem offsetsFrom_getElem? (acc : Nat) (counts : List Nat) (k : Nat) :
    (offsetsFrom acc counts)[k]? = if k < counts.length then some (acc + (counts.take k).sum) else none := by
  induction counts generalizing acc k with
  | nil => simp [offsetsFrom]
  | cons c counts ih =>
    cases k with
    | zero => simp [offsetsFrom]
    | succ k => simp [offsetsFrom, ih, Nat.add_assoc]

theorem take_sum_counts {lengths : List Nat} (h : ∀ l ∈ lengths, l ≤ 15) (k : Nat) (hk : k ≤ 16) :
    ((lengthCounts lengths).take k).sum = startOf lengths k := by
  induction k with
  | zero => simp [startOf]
  | succ k ih =>
    have hl := lengthCounts_length h
    rw [List.take_add_one, List.sum_append, ih (by omega), startOf]
    have := lengthCounts_getD h k
    simp only [List.getD] at this
    rw [List.getElem?_eq_getElem (by omega)] at this ⊢
    simpa using this

theorem offsets_getD {lengths : List Nat} (h : ∀ l ∈ lengths, l ≤ 15) {k : Nat} (hk : k < 16) :
    (offsetsFrom 0 (lengthCounts lengths)).getD k 0 = startOf lengths k := by
  simp only [List.getD, offsetsFrom_getElem?, lengthCounts_length h, if_pos hk]
  simp [take_sum_counts h k (by omega)]

theorem offsetsFrom_length (acc : Nat) (counts : List Nat) : (offsetsFrom acc counts).length = counts.length := by
  induction counts generalizing acc with
  | nil => rfl
  | cons c counts ih => simp [offsetsFrom, ih]

/-! ### Step 3, placement -/

theorem placeSymbols_length (lengths : List Nat) (s : Nat) (offset : List Nat) (symbols : List Half) :
    (placeSymbols lengths s offset symbols).length = symbols.length := by
  induction lengths generalizing s offset symbols with
  | nil => rfl
  | cons l lengths ih =>
    simp only [placeSymbols]
    split
    · exact ih ..
    · rw [ih]; simp

/-- Placement, from symbol `s` on, where the entries of different lengths do not overlap: a coded symbol stands at the offset
of its length plus its rank, and every entry outside is unchanged. -/
theorem placeSymbols_spec (lengths : List Nat) (s : Nat) (offset : List Nat) (symbols : List Half)
    (hl : ∀ l ∈ lengths, l < offset.length)
    (hin : ∀ l, l ≠ 0 → l < offset.length → 0 < lengths.count l → offset.getD l 0 + lengths.count l ≤ symbols.length)
    (hdis : ∀ l m, l ≠ 0 → m ≠ 0 → l < offset.length → m < offset.length → l < m → 0 < lengths.count l → 0 < lengths.count m →
      offset.getD l 0 + lengths.count l ≤ offset.getD m 0) :
    (∀ k (hk : k < lengths.length), lengths[k] ≠ 0 →
      (placeSymbols lengths s offset symbols)[offset.getD lengths[k] 0 + (lengths.take k).count lengths[k]]?
        = some (BitVec.ofNat 16 (s + k)))
    ∧ (∀ j, (∀ l, l ≠ 0 → l < offset.length → j < offset.getD l 0 ∨ offset.getD l 0 + lengths.count l ≤ j) →
      (placeSymbols lengths s offset symbols)[j]? = symbols[j]?) := by
  induction lengths generalizing s offset symbols with
  | nil => simp [placeSymbols]
  | cons l lengths ih =>
    have hll : l < offset.length := hl l (by simp)
    by_cases h0 : l = 0
    · subst h0
      have hc : ∀ m, m ≠ 0 → (0 :: lengths).count m = lengths.count m := by
        intro m hm; rw [List.count_cons]; simp [Ne.symm hm]
      obtain ⟨a, b⟩ := ih (s + 1) offset symbols (fun x hx => hl x (by simp [hx]))
        (fun m hm h1 h2 => by have := hin m hm h1; rw [hc m hm] at this; exact this h2)
        (fun x y hx hy h1 h2 h3 h4 h5 => by
          have := hdis x y hx hy h1 h2 h3; rw [hc x hx, hc y hy] at this; exact this h4 h5)
      simp only [placeSymbols, if_pos]
      refine ⟨fun k hk hne => ?_, fun j hj => b j (fun m hm h1 => by have := hj m hm h1; rw [hc m hm] at this; exact this)⟩
      cases k with
      | zero => exact absurd rfl hne
      | succ k =>
        have := a k (by simpa using hk) (by simpa using hne)
        simp only [List.getElem_cons_succ, List.take_succ_cons] at hne ⊢
        have h2 : (0 == lengths[k]'(by simpa using hk)) = false := by simpa using Ne.symm hne
        rw [List.count_cons, h2, show s + (k + 1) = s + 1 + k by omega]
        simpa using this
    · have hget : ∀ m, (offset.modify l (· + 1)).getD m 0 = if m = l then offset.getD l 0 + 1 else offset.getD m 0 := by
        intro m
        simp only [List.getD, List.getElem?_modify]
        by_cases hm : l = m
        · subst hm; simp [List.getElem?_eq_getElem hll]
        · simp [hm, Ne.symm hm]
      have hcnt : ∀ m, (l :: lengths).count m = lengths.count m + if m = l then 1 else 0 := by
        intro m
        rw [List.count_cons]
        by_cases hm : m = l
        · subst hm; simp
        · simp [hm, Ne.symm hm]
      have hlin := hin l h0 hll (by rw [hcnt]; simp)
      rw [hcnt, if_pos rfl] at hlin
      obtain ⟨a, b⟩ := ih (s + 1) (offset.modify l (· + 1)) (symbols.set (offset.getD l 0) (BitVec.ofNat 16 s))
        (fun x hx => by simpa using hl x (by simp [hx]))
        (fun m hm h1 h2 => by
          have h3 := hin m hm (by simpa using h1) (by rw [hcnt]; omega)
          rw [hcnt] at h3
          rw [hget, List.length_set]
          split <;> rename_i h
          · rw [if_pos h, h] at h3; rw [h]; omega
          · rw [if_neg h] at h3; omega)
        (fun x y hx hy h1 h2 h3 h4 h5 => by
          have h6 := hdis x y hx hy (by simpa using h1) (by simpa using h2) h3 (by rw [hcnt]; omega) (by rw [hcnt]; omega)
          rw [hcnt] at h6
          rw [hget, hget]
          by_cases hxl : x = l
          · rw [if_pos hxl] at h6 ⊢
            rw [if_neg (show y ≠ l by omega)]
            rw [hxl] at h6 ⊢
            omega
          · rw [if_neg hxl] at h6 ⊢
            by_cases hyl : y = l
            · rw [if_pos hyl]; rw [hyl] at h6; omega
            · rw [if_neg hyl]; omega)
      simp only [placeSymbols, if_neg h0]
      -- the entry just written is in no later interval
      have hkeep : (placeSymbols lengths (s + 1) (offset.modify l (· + 1))
          (symbols.set (offset.getD l 0) (BitVec.ofNat 16 s)))[offset.getD l 0]? = some (BitVec.ofNat 16 s) := by
        rw [b]
        · rw [List.getElem?_set, if_pos rfl, if_pos (by omega)]
        · intro m hm h1
          rw [hget]
          by_cases hml : m = l
          · left; rw [if_pos hml]; omega
          · rw [if_neg hml]
            rcases Nat.eq_zero_or_pos (lengths.count m) with hz | hp
            · omega
            · rcases Nat.lt_or_gt_of_ne hml with h | h
              · have := hdis m l hm h0 (by simpa using h1) hll h (by rw [hcnt]; omega) (by rw [hcnt]; simp)
                rw [hcnt, if_neg hml] at this; right; omega
              · have := hdis l m h0 hm hll (by simpa using h1) h (by rw [hcnt]; simp) (by rw [hcnt]; omega)
                rw [hcnt, if_pos rfl] at this; left; omega
      refine ⟨fun k hk hne => ?_, fun j hj => ?_⟩
      · cases k with
        | zero => simpa using hkeep
        | succ k =>
          have h1 := a k (by simpa using hk) (by simpa using hne)
          simp only [List.getElem_cons_succ, List.take_succ_cons] at hne ⊢
          rw [hget] at h1
          rw [List.count_cons, show s + (k + 1) = s + 1 + k by omega, ← h1]
          congr 1
          by_cases hkl : lengths[k]'(by simpa using hk) = l
          · rw [if_pos hkl]; simp [hkl]; omega
          · rw [if_neg hkl]
            have : (l == lengths[k]'(by simpa using hk)) = false := by simpa using Ne.symm hkl
            simp [this]
      · rw [b]
        · rw [List.getElem?_set]
          have := hj l h0 hll
          rw [hcnt, if_pos rfl] at this
          rw [if_neg (by omega)]
        · intro m hm h1
          have := hj m hm (by simpa using h1)
          rw [hcnt] at this
          rw [hget]
          split
          · rename_i h; rw [if_pos h, h] at this; rw [h]; omega
          · rename_i h; rw [if_neg h] at this; omega

/-! ### The result -/

theorem count_take_lt {lengths : List Nat} {s : Nat} (hs : s < lengths.length) :
    (lengths.take s).count (lengths.getD s 0) < lengths.count (lengths.getD s 0) := by
  have h := List.take_append_drop s lengths
  have h2 : lengths.count (lengths.getD s 0)
      = (lengths.take s).count (lengths.getD s 0) + (lengths.drop s).count (lengths.getD s 0) := by
    rw [← List.count_append, h]
  have h3 : 0 < (lengths.drop s).count (lengths.getD s 0) := by
    rw [List.count_pos_iff, List.drop_eq_getElem_cons hs, List.getD_eq_getElem _ _ hs]
    exact List.mem_cons_self
  omega

/-- The symbols of one length below `n`, in order. -/
theorem filter_range_getElem? (lengths : List Nat) (len n : Nat) (hn : n ≤ lengths.length) :
    ((List.range n).filter fun s => lengths.getD s 0 == len).length = (lengths.take n).count len
    ∧ ∀ s, s < n → lengths.getD s 0 = len →
      ((List.range n).filter fun s => lengths.getD s 0 == len)[(lengths.take s).count len]? = some s := by
  induction n with
  | zero => simp
  | succ n ih =>
    obtain ⟨h1, h2⟩ := ih (by omega)
    have ht : lengths.take (n + 1) = lengths.take n ++ [lengths.getD n 0] := by
      rw [List.take_add_one, List.getElem?_eq_getElem (by omega), List.getD_eq_getElem _ _ (by omega)]; rfl
    rw [List.range_succ, List.filter_append, ht]
    refine ⟨?_, fun s hs hl => ?_⟩
    · rw [List.length_append, h1, List.count_append]
      by_cases h : lengths.getD n 0 = len
      · have : (lengths.getD n 0 == len) = true := by simpa using h
        simp only [List.filter_cons, List.filter_nil, this, List.count_cons, List.count_nil, if_true]; rfl
      · have : (lengths.getD n 0 == len) = false := by simpa using h
        simp only [List.filter_cons, List.filter_nil, this, List.count_cons, List.count_nil]; rfl
    · rcases Nat.lt_succ_iff_lt_or_eq.mp hs with h | rfl
      · have h3 := h2 s h hl
        rw [List.getElem?_append_left]
        · exact h3
        · exact (List.getElem?_eq_some_iff.mp h3).1
      · rw [List.getElem?_append_right (by rw [h1]), h1, Nat.sub_self]
        have : (lengths.getD s 0 == len) = true := by simpa using hl
        simp only [List.filter_cons, this, if_true]; rfl

theorem flatMap_range'_length (lengths : List Nat) (n : Nat) :
    ((List.range' 1 n).flatMap fun len => (List.range lengths.length).filter fun s => lengths.getD s 0 == len).length
      = startOf lengths (n + 1) := by
  induction n with
  | zero => simp [startOf, lenCount]
  | succ n ih =>
    rw [List.range'_concat, List.flatMap_append, List.length_append, ih]
    have h := (filter_range_getElem? lengths (n + 1) lengths.length (le_refl _)).1
    rw [List.take_length] at h
    rw [show 1 + 1 * n = n + 1 by omega, List.flatMap_singleton, h]
    simp [startOf, lenCount]

/-- Where a coded symbol stands in the order by (length, symbol). -/
def rankOf (lengths : List Nat) (s : Nat) : Nat :=
  startOf lengths (lengths.getD s 0) + (lengths.take s).count (lengths.getD s 0)

theorem codedSymbols_length (lengths : List Nat) : (codedSymbols lengths).length = startOf lengths 16 :=
  flatMap_range'_length lengths 15

theorem codedSymbols_getElem? {lengths : List Nat} {s : Nat} (hs : s < lengths.length) (h0 : lengths.getD s 0 ≠ 0)
    (h15 : lengths.getD s 0 ≤ 15) : (codedSymbols lengths)[rankOf lengths s]? = some s := by
  obtain ⟨n, hn⟩ : ∃ n, lengths.getD s 0 = n + 1 := ⟨lengths.getD s 0 - 1, by omega⟩
  have hr : List.range' 1 15 = List.range' 1 n ++ (n + 1) :: List.range' (n + 2) (14 - n) := by
    have h1 : List.range' 1 15 = List.range' 1 n ++ List.range' (1 + n) (15 - n) := by
      have := List.range'_append (s := 1) (m := n) (n := 15 - n) (step := 1)
      rw [show n + (15 - n) = 15 by omega, Nat.one_mul] at this
      exact this.symm
    rw [h1, show 15 - n = (14 - n) + 1 by omega, List.range'_succ, show 1 + n = n + 1 by omega]
  have hf := filter_range_getElem? lengths (n + 1) lengths.length (le_refl _)
  have hx := hf.2 s hs hn
  simp only [codedSymbols, rankOf, hr, List.flatMap_append, List.flatMap_cons]
  rw [hn, List.getElem?_append_right (by rw [flatMap_range'_length]; omega), flatMap_range'_length,
    Nat.add_sub_cancel_left, List.getElem?_append_left]
  · exact hx
  · exact (List.getElem?_eq_some_iff.mp hx).1

theorem mem_codedSymbols {lengths : List Nat} {s : Nat} (h : s ∈ codedSymbols lengths) :
    s < lengths.length ∧ lengths.getD s 0 ≠ 0 ∧ lengths.getD s 0 ≤ 15 := by
  simp only [codedSymbols, List.mem_flatMap, List.mem_filter, List.mem_range, List.mem_range'_1, beq_iff_eq] at h
  obtain ⟨len, h1, h2, h3⟩ := h
  exact ⟨h2, by omega, by omega⟩

theorem rankOf_lt {lengths : List Nat} {s : Nat} (hs : s < lengths.length) (h0 : lengths.getD s 0 ≠ 0)
    (h15 : lengths.getD s 0 ≤ 15) : rankOf lengths s < (codedSymbols lengths).length :=
  (List.getElem?_eq_some_iff.mp (codedSymbols_getElem? hs h0 h15)).1

theorem codedSymbols_nodup (lengths : List Nat) : (codedSymbols lengths).Nodup := by
  rw [codedSymbols, List.nodup_flatMap]
  refine ⟨fun x _ => List.nodup_range.filter _, ?_⟩
  refine (List.nodup_range' (s := 1) (n := 15)).imp ?_
  intro a b hab
  simp only [Function.onFun, List.disjoint_left, List.mem_filter, beq_iff_eq]
  rintro x ⟨_, h1⟩ ⟨_, h2⟩
  exact hab (h1 ▸ h2)

theorem rankOf_of_getElem? {lengths : List Nat} {j s : Nat} (h : (codedSymbols lengths)[j]? = some s) :
    rankOf lengths s = j := by
  obtain ⟨hj, hs⟩ := List.getElem?_eq_some_iff.mp h
  obtain ⟨h1, h2, h3⟩ := mem_codedSymbols (hs ▸ List.getElem_mem hj)
  have h4 := codedSymbols_getElem? h1 h2 h3
  obtain ⟨h5, h6⟩ := List.getElem?_eq_some_iff.mp h4
  exact (List.Nodup.getElem_inj_iff (codedSymbols_nodup lengths)).mp (h6.trans hs.symm)

theorem startOf_le_length (lengths : List Nat) (n : Nat) : startOf lengths n ≤ lengths.length := by
  have h : ∀ n, startOf lengths n = lengths.countP fun l => decide (l ≠ 0 ∧ l < n) := by
    intro n
    induction n with
    | zero => simp [startOf]
    | succ n ih =>
      rw [startOf, ih, lenCount]
      by_cases h0 : n = 0
      · subst h0
        rw [if_pos rfl, Nat.add_zero]
        refine List.countP_congr fun l _ => ?_
        simp only [decide_eq_true_eq]
        omega
      · rw [if_neg h0, List.count_eq_countP]
        clear ih
        induction lengths with
        | nil => rfl
        | cons l lengths ih =>
          simp only [List.countP_cons]
          rcases Nat.lt_trichotomy l n with h | h | h
          · have h1 : (l == n) = false := by simp; omega
            have h2 : decide (l ≠ 0 ∧ l < n) = decide (l ≠ 0 ∧ l < n + 1) := by
              congr 1; apply propext; constructor <;> (rintro ⟨a, b⟩; exact ⟨a, by omega⟩)
            rw [h1, h2]; simp at ih ⊢; omega
          · subst h; simp [h0] at ih ⊢; omega
          · have h1 : (l == n) = false := by simp; omega
            have h2 : decide (l ≠ 0 ∧ l < n) = false := by simp; omega
            have h3 : decide (l ≠ 0 ∧ l < n + 1) = false := by simp; omega
            rw [h1, h2, h3]; simp at ih ⊢; omega
  rw [h]
  exact List.countP_le_length

theorem buildTable_symbols_length (old : HuffTable) (lengths : List Nat) :
    (buildTable old lengths).symbols.length = old.symbols.length := placeSymbols_length ..

/-- The symbol entries after a build: the coded symbols at their ranks, the entries past them unchanged. -/
theorem buildTable_symbols {old : HuffTable} {lengths : List Nat} (h : ∀ l ∈ lengths, l ≤ 15)
    (hn : lengths.length ≤ old.symbols.length) :
    (∀ s, s < lengths.length → lengths.getD s 0 ≠ 0 →
      (buildTable old lengths).symbols[rankOf lengths s]? = some (BitVec.ofNat 16 s))
    ∧ (∀ j, startOf lengths 16 ≤ j → (buildTable old lengths).symbols[j]? = old.symbols[j]?) := by
  have hl : (offsetsFrom 0 (lengthCounts lengths)).length = 16 := by rw [offsetsFrom_length, lengthCounts_length h]
  have hc : ∀ l, l ≠ 0 → lengths.count l = lenCount lengths l := fun l hl => by rw [lenCount, if_neg hl]
  obtain ⟨a, b⟩ := placeSymbols_spec lengths 0 (offsetsFrom 0 (lengthCounts lengths)) old.symbols
    (fun l hx => by rw [hl]; have := h l hx; omega)
    (fun l h0 h1 h2 => by
      rw [hl] at h1
      rw [offsets_getD h h1, hc l h0]
      exact le_trans (startOf_mono lengths h1) (le_trans (startOf_le_length lengths 16) hn))
    (fun l m h0 h1 h2 h3 h4 h5 h6 => by
      rw [hl] at h2 h3
      rw [offsets_getD h h2, offsets_getD h h3, hc l h0]
      exact startOf_mono lengths h4)
  refine ⟨fun s hs h0 => ?_, fun j hj => b j (fun l h0 h1 => ?_)⟩
  · have h1 := a s hs (by rwa [List.getD_eq_getElem _ _ hs] at h0)
    have h2 : lengths.getD s 0 ≤ 15 := by rw [List.getD_eq_getElem _ _ hs]; exact h _ (List.getElem_mem hs)
    have h3 := offsets_getD h (k := lengths.getD s 0) (by omega)
    rw [List.getD_eq_getElem _ _ hs] at h3
    rw [Nat.zero_add, h3] at h1
    rw [rankOf, List.getD_eq_getElem _ _ hs]
    exact h1
  · right
    rw [hl] at h1
    rw [offsets_getD h h1, hc l h0]
    exact le_trans (startOf_mono lengths h1) hj

theorem codeBits_length (len v : Nat) : (codeBits len v).length = len := by
  induction len generalizing v with
  | zero => rfl
  | succ len ih => simp [codeBits, ih]

/-! ### Decoding a canonical code -/

/-- The bits of a code from some length on bring the decode loop to the symbol the code is for. -/
theorem codeFrom_decodes {counts : List Nat} {idx f len : Nat} {code : List Bool}
    (h : codeFrom counts idx (2 * f) (len + 1) = some code) :
    ∃ p rest, f ≤ p ∧ p < 2 ^ len ∧ code = codeBits len p ++ rest ∧
      ∀ (symbols : List Nat) (base sym : Nat) (r : Reader), symbols[base + idx]? = some sym → r.sees rest →
        decodeFrom symbols counts base (p - f) r = .ok sym (r.skip rest.length) := by
  induction counts generalizing idx f len with
  | nil => cases h
  | cons c counts ih =>
    simp only [codeFrom] at h
    split at h
    · rename_i hlt
      split at h
      · rename_i hv
        cases h
        refine ⟨(2 * f + idx) / 2, [(2 * f + idx) % 2 == 1], by omega, by omega, rfl, fun symbols base sym r hs hr => ?_⟩
        have hb : 2 * ((2 * f + idx) / 2 - f) + ((2 * f + idx) % 2 == 1).toNat = idx := by
          rcases Nat.mod_two_eq_zero_or_one (2 * f + idx) with h | h
          · rw [h]; simp; omega
          · rw [h]; simp; omega
        simp only [decodeFrom, hr.1, hb]
        rw [if_pos hlt, hs]
        rfl
      · cases h
    · rename_i hge
      obtain ⟨p, rest, h1, h2, h3, h4⟩ := ih h
      refine ⟨p / 2, (p % 2 == 1) :: rest, by omega, by rw [Nat.pow_succ] at h2; omega, ?_, fun symbols base sym r hs hr => ?_⟩
      · rw [h3, codeBits]; simp
      · have hb : 2 * (p / 2 - f) + (p % 2 == 1).toNat = p - 2 * f := by
          rcases Nat.mod_two_eq_zero_or_one p with h | h
          · rw [h]; simp; omega
          · rw [h]; simp; omega
        simp only [decodeFrom, hr.1, hb]
        rw [if_neg (by omega), show p - 2 * f - c = p - (2 * f + c) by omega,
          h4 symbols (base + c) sym (r.skip 1) (by rw [← hs]; congr 1; omega) hr.2, Reader.skip_skip]
        rw [List.length_cons, Nat.add_comm]

/-- The code of a symbol decodes to it, in any table. -/
theorem codeOf_decodes {t : Huff} {sym : Nat} {code : List Bool} (h : codeOf t sym = some code) {r : Reader}
    (hr : r.sees code) : decodeSym t r = .ok sym (r.skip code.length) := by
  unfold codeOf at h
  split at h
  · cases h
  · rename_i idx hidx
    obtain ⟨p, rest, h1, h2, h3, h4⟩ := codeFrom_decodes (f := 0) (len := 0) h
    have hp : p = 0 := by simpa using h2
    subst hp
    have hc : code = rest := by simpa [codeBits] using h3
    subst hc
    refine h4 t.symbols 0 sym r ?_ hr
    rw [List.idxOf?, List.findIdx?_eq_some_iff_getElem] at hidx
    obtain ⟨hi, hi2, -⟩ := hidx
    rw [Nat.zero_add, List.getElem?_eq_getElem (by simp at hi; omega)]
    simpa using hi2

/-- The code of the symbol at an index of a built table. -/
theorem codeFrom_built {lengths : List Nat} (h : ∀ l ∈ lengths, l ≤ 15) {L k : Nat} (hL : L ≤ 15)
    (hk : k < lenCount lengths L) (len : Nat) (hlen : len ≤ L) :
    codeFrom ((lengthCounts lengths).drop len) (startOf lengths L + k - startOf lengths len) (firstCode lengths len) len
      = if firstCode lengths L + k < 2 ^ L then some (codeBits L (firstCode lengths L + k)) else none := by
  obtain ⟨d, rfl⟩ : ∃ d, L = len + d := ⟨L - len, by omega⟩
  induction d generalizing len with
  | zero =>
    have h16 := lengthCounts_length h
    have hg := lengthCounts_getD h len
    rw [List.getD_eq_getElem _ _ (by omega)] at hg
    rw [List.drop_eq_getElem_cons (by omega), hg]
    simp only [codeFrom, Nat.add_zero] at hk ⊢
    rw [Nat.add_sub_cancel_left, if_pos hk]
  | succ d ih =>
    have h16 := lengthCounts_length h
    have hg := lengthCounts_getD h len
    rw [List.getD_eq_getElem _ _ (by omega)] at hg
    have hm := startOf_mono lengths (a := len) (b := len + (d + 1)) (by omega)
    rw [List.drop_eq_getElem_cons (by omega), hg]
    simp only [codeFrom]
    rw [if_neg (by omega)]
    have := ih (len + 1) (by omega) (by rw [show len + 1 + d = len + (d + 1) by omega]; exact hk) (by omega)
    rw [show len + 1 + d = len + (d + 1) by omega] at this
    rw [← this, startOf, firstCode]
    congr 1
    omega

/-- `first[L]` in units of 2^-15. -/
theorem firstCode_eq (lengths : List Nat) {L : Nat} (hL : L ≤ 15) :
    firstCode lengths L * 2 ^ (15 - L) = ∑ l ∈ Finset.range L, lenCount lengths l * 2 ^ (15 - l) := by
  induction L with
  | zero => simp [firstCode]
  | succ L ih =>
    rw [Finset.sum_range_succ, ← ih (by omega), firstCode, show 15 - L = (15 - (L + 1)) + 1 by omega, Nat.pow_succ]
    ring

theorem kraftSum_eq {lengths : List Nat} (h : ∀ l ∈ lengths, l ≤ 15) :
    kraftSum lengths = ∑ l ∈ Finset.range 16, lenCount lengths l * 2 ^ (15 - l) := by
  induction lengths with
  | nil => simp [kraftSum, lenCount]
  | cons a lengths ih =>
    have h1 : ∀ l, lenCount (a :: lengths) l * 2 ^ (15 - l)
        = lenCount lengths l * 2 ^ (15 - l) + if l = a then (if l = 0 then 0 else 2 ^ (15 - l)) else 0 := by
      intro l
      simp only [lenCount, List.count_cons]
      by_cases h0 : l = 0
      · simp [h0]
      · by_cases ha : l = a
        · subst ha; simp [h0]; ring
        · simp [h0, ha, Ne.symm ha]
    have h2 : kraftSum (a :: lengths) = (if a = 0 then 0 else 2 ^ (15 - a)) + kraftSum lengths := by simp [kraftSum]
    rw [h2, ih (fun l hl => h l (by simp [hl])), Finset.sum_congr rfl (fun l _ => h1 l), Finset.sum_add_distrib,
      Finset.sum_ite_eq' (Finset.range 16) a]
    have ha : a ∈ Finset.range 16 := by have := h a (by simp); simp; omega
    rw [if_pos ha]
    omega

/-- With a Kraft sum at most 1 the codes of every length fit their length. -/
theorem firstCode_fits {lengths : List Nat} (h : ∀ l ∈ lengths, l ≤ 15) (hk : kraftSum lengths ≤ 2 ^ 15) {L : Nat}
    (hL : L ≤ 15) : firstCode lengths L + lenCount lengths L ≤ 2 ^ L := by
  rw [kraftSum_eq h] at hk
  have h1 : ∑ l ∈ Finset.range (L + 1), lenCount lengths l * 2 ^ (15 - l) ≤ 2 ^ 15 :=
    le_trans (Finset.sum_le_sum_of_subset (Finset.range_subset_range.mpr (by omega))) hk
  rw [Finset.sum_range_succ, ← firstCode_eq lengths hL, ← Nat.add_mul] at h1
  have h2 : (2 : Nat) ^ 15 = 2 ^ L * 2 ^ (15 - L) := by rw [← Nat.pow_add]; congr 1; omega
  rw [h2] at h1
  exact Nat.le_of_mul_le_mul_right h1 (Nat.pow_pos (by omega))

/-! ### Symbol decode with a built table -/

/-- The number of coded symbols of a built table. -/
theorem buildTable_coded {old : HuffTable} {lengths : List Nat} (h : ∀ l ∈ lengths, l ≤ 15) (hn : lengths.length ≤ 288) :
    (buildTable old lengths).code.coded = (codedSymbols lengths).length := by
  rw [codedSymbols_length, Huff.coded, buildTable_counts h hn]
  have h1 := take_sum_counts h 16 (le_refl _)
  have hl := lengthCounts_length h
  rw [List.take_of_length_le (by omega)] at h1
  have h0 := lengthCounts_getD h 0
  rw [List.getD_eq_getElem _ _ (by omega)] at h0
  rw [List.take_of_length_le (by simp [Config.maxBits]; omega), ← h1]
  conv => rhs; rw [← List.take_append_drop 1 (lengthCounts lengths)]
  rw [List.sum_append, List.take_one, List.head?_eq_getElem?, List.getElem?_eq_getElem (by omega), h0]
  simp [lenCount]

/-- The filled part of the symbol entries of a built table, as the decoder reads it. -/
theorem buildTable_code_symbols {old : HuffTable} {lengths : List Nat} (h : ∀ l ∈ lengths, l ≤ 15) (hn : lengths.length ≤ old.symbols.length)
    (ho : old.symbols.length ≤ 288) :
    (buildTable old lengths).code.symbols.take (codedSymbols lengths).length = codedSymbols lengths := by
  apply List.ext_getElem?
  intro j
  rw [List.getElem?_take]
  split
  · rename_i hj
    have hs : (codedSymbols lengths)[j]? = some ((codedSymbols lengths)[j]) := List.getElem?_eq_getElem hj
    obtain ⟨h1, h2, h3⟩ := mem_codedSymbols (List.getElem_mem hj)
    have hr := rankOf_of_getElem? hs
    have := (buildTable_symbols h hn).1 _ h1 h2
    rw [hr] at this
    simp only [HuffTable.code, List.getElem?_map, this, hs, Option.map_some]
    congr 1
    simp only [BitVec.toNat_ofNat]; omega
  · rw [List.getElem?_eq_none (by omega)]

/-- Where a coded symbol stands among the filled symbol entries of a built table. -/
theorem idxOf_built {old : HuffTable} {lengths : List Nat} (h : ∀ l ∈ lengths, l ≤ 15)
    (hn : lengths.length ≤ old.symbols.length) (ho : old.symbols.length ≤ 288) {s : Nat} (hs : s < lengths.length)
    (h0 : lengths.getD s 0 ≠ 0) :
    ((buildTable old lengths).code.symbols.take (buildTable old lengths).code.coded).idxOf? s
      = some (rankOf lengths s) := by
  have h15 : lengths.getD s 0 ≤ 15 := by rw [List.getD_eq_getElem _ _ hs]; exact h _ (List.getElem_mem hs)
  rw [buildTable_coded h (by omega), buildTable_code_symbols h hn ho, List.idxOf?, List.findIdx?_eq_some_iff_getElem]
  obtain ⟨hr, hr2⟩ := List.getElem?_eq_some_iff.mp (codedSymbols_getElem? hs h0 h15)
  refine ⟨hr, by simpa using hr2, fun j hj => ?_⟩
  intro hc
  have hc2 : (codedSymbols lengths)[j] = s := by simpa using hc
  have : (codedSymbols lengths)[j]? = some s := by rw [List.getElem?_eq_getElem (by omega), hc2]
  have := rankOf_of_getElem? this
  omega

/-- The code of a symbol in a built table is its canonical code. -/
theorem codeOf_built {old : HuffTable} {lengths : List Nat} (h : ∀ l ∈ lengths, l ≤ 15) (hn : lengths.length ≤ old.symbols.length)
    (ho : old.symbols.length ≤ 288) {s : Nat} (hs : s < lengths.length) (h0 : lengths.getD s 0 ≠ 0) :
    codeOf (buildTable old lengths).code s = 
      let L := lengths.getD s 0
      let v := firstCode lengths L + (lengths.take s).count L
      if v < 2 ^ L then some (codeBits L v) else none := by
  have h15 : lengths.getD s 0 ≤ 15 := by rw [List.getD_eq_getElem _ _ hs]; exact h _ (List.getElem_mem hs)
  have hk : (lengths.take s).count (lengths.getD s 0) < lenCount lengths (lengths.getD s 0) := by
    rw [lenCount, if_neg h0]; exact count_take_lt hs
  have hb := codeFrom_built h h15 hk 1 (by omega)
  unfold codeOf
  rw [idxOf_built h hn ho hs h0]
  simp only [buildTable_counts h (show lengths.length ≤ 288 by omega)]
  rw [List.take_of_length_le (by simp [Config.maxBits, lengthCounts_length h])]
  have e1 : startOf lengths 1 = 0 := rfl
  have e2 : firstCode lengths 1 = 0 := rfl
  rw [e1, e2] at hb
  exact hb

/-- Where symbol decode goes when no index leaves the symbol entries. -/
theorem decodeFrom_good {symbols counts : List Nat} {base offs : Nat} {r : Reader} (hs : 8 * r.stop < 2 ^ 32)
    (hp : r.pos.toNat ≤ 8 * r.stop) (hsym : base + counts.sum ≤ symbols.length) :
    match decodeFrom symbols counts base offs r with
    | .ok sym r1 => (∃ j, j < base + counts.sum ∧ symbols[j]? = some sym) ∧ ∃ k, 1 ≤ k ∧ k ≤ counts.length ∧ r1 = r.skip k ∧ r.pos.toNat + k ≤ 8 * r.stop
    | .exhausted r1 => ∃ k, k < counts.length ∧ r1 = r.skip k ∧ r.pos.toNat + k = 8 * r.stop
    | .noCode r1 => r1 = r.skip counts.length ∧ r.pos.toNat + counts.length ≤ 8 * r.stop := by
  induction counts generalizing base offs r with
  | nil => simp only [decodeFrom]; exact ⟨by simp, by simpa using hp⟩
  | cons c counts ih =>
    simp only [decodeFrom]
    simp only [List.sum_cons] at hsym
    cases hb : r.getBit with
    | exhausted r1 =>
      obtain ⟨rfl, hle⟩ := Reader.getBit_eq_exhausted hb
      exact ⟨0, by simp, by simp, by omega⟩
    | ok b r1 =>
      obtain ⟨-, rfl, hle⟩ := Reader.getBit_eq_ok hb
      by_cases hc : 2 * offs + b.toNat < c
      · simp only [if_pos hc]
        have hlt : base + (2 * offs + b.toNat) < symbols.length := by omega
        rw [List.getElem?_eq_getElem hlt]
        exact ⟨⟨base + (2 * offs + b.toNat), by simp; omega, List.getElem?_eq_getElem hlt⟩, 1,
            by omega, by simp, rfl, hle⟩
      · simp only [if_neg hc]
        have ht := Reader.skip_toNat (r := r) (k := 1) hs hle
        have := ih (base := base + c) (offs := 2 * offs + b.toNat - c) (r := r.skip 1) (by simpa using hs) (by rw [ht]; simpa using hle) (by omega)
        cases hd : decodeFrom symbols counts (base + c) (2 * offs + b.toNat - c) (r.skip 1) with
        | ok sym r1 =>
          rw [hd] at this
          obtain ⟨⟨j, hj, hj2⟩, k, h1, h2, h3, h4⟩ := this
          refine ⟨⟨j, by simp; omega, hj2⟩, 1 + k, by omega, by simp; omega, by rw [h3, Reader.skip_skip], by rw [ht] at h4; simp at h4; omega⟩
        | exhausted r1 =>
          rw [hd] at this
          obtain ⟨k, h2, h3, h4⟩ := this
          refine ⟨1 + k, by simp; omega, by rw [h3, Reader.skip_skip], by rw [ht] at h4; simp at h4; omega⟩
        | noCode r1 =>
          rw [hd] at this
          obtain ⟨h3, h4⟩ := this
          refine ⟨by rw [h3, Reader.skip_skip, List.length_cons, Nat.add_comm], by rw [ht] at h4; simp at h4 ⊢; omega⟩

/-- Symbol decode with a built table. -/
theorem decodeSym_built {old : HuffTable} {lengths : List Nat} {r : Reader} (h : ∀ l ∈ lengths, l ≤ 15) (hn : lengths.length ≤ old.symbols.length)
    (ho : old.symbols.length ≤ 288) (hs : 8 * r.stop < 2 ^ 32)
    (hp : r.pos.toNat ≤ 8 * r.stop) :
      match decodeSym (buildTable old lengths).code r with
      | .ok s r1 => s < lengths.length ∧ lengths.getD s 0 ≠ 0 ∧ ∃ k, 1 ≤ k ∧ k ≤ 15 ∧ r1 = r.skip k ∧ r.pos.toNat + k ≤ 8 * r.stop
      | .noCode r1 => r1 = r.skip 15 ∧ r.pos.toNat + 15 ≤ 8 * r.stop
      | .exhausted r1 => ∃ k, k < 15 ∧ r1 = r.skip k ∧ r.pos.toNat + k = 8 * r.stop := by
  have hc := buildTable_coded (old := old) h (by omega)
  have hsl : (buildTable old lengths).code.symbols.length = old.symbols.length := by simp [HuffTable.code,
      buildTable_symbols_length]
  have hP : (codedSymbols lengths).length ≤ old.symbols.length := by rw [codedSymbols_length]; exact le_trans (startOf_le_length _ _) hn
  have hcl : (((buildTable old lengths).code.counts.drop 1).take Config.maxBits).length = 15 := by
    rw [buildTable_counts h (by omega)]; simp [lengthCounts_length h, Config.maxBits]
  have := decodeFrom_good (symbols := (buildTable old lengths).code.symbols) (counts := ((buildTable old lengths).code.counts.drop 1).take Config.maxBits) (base := 0) (offs := 0) hs hp
    (by rw [Nat.zero_add]; change (buildTable old lengths).code.coded ≤ _; omega)
  unfold decodeSym
  cases hd : decodeFrom (buildTable old lengths).code.symbols (((buildTable old lengths).code.counts.drop 1).take Config.maxBits) 0 0 r with
  | ok sym r1 =>
    rw [hd] at this
    obtain ⟨⟨j, hj, hj2⟩, k, h1, h2, h3, h4⟩ := this
    have hj3 : j < (codedSymbols lengths).length := by rw [← hc]; simpa [Huff.coded] using hj
    have : (codedSymbols lengths)[j]? = some sym := by
      rw [← buildTable_code_symbols h hn ho, List.getElem?_take, if_pos hj3, hj2]
    obtain ⟨q1, q2⟩ := List.getElem?_eq_some_iff.mp this
    obtain ⟨m1, m2, m3⟩ := mem_codedSymbols (q2 ▸ List.getElem_mem q1)
    exact ⟨m1, m2, k, h1, by omega, h3, h4⟩
  | exhausted r1 => 
    rw [hd] at this
    obtain ⟨k, h2, h3, h4⟩ := this
    exact ⟨k, by omega, h3, h4⟩
  | noCode r1 =>
    rw [hd] at this
    obtain ⟨h3, h4⟩ := this
    rw [hcl] at h3 h4
    exact ⟨h3, h4⟩

/-- A decoded symbol stands in the filled part of the symbol entries. -/
theorem decodeFrom_index {symbols counts : List Nat} {base offs sym : Nat} {r r1 : Reader}
    (h : decodeFrom symbols counts base offs r = .ok sym r1) : ∃ j, j < base + counts.sum ∧ symbols[j]? = some sym := by
  induction counts generalizing base offs r with
  | nil => cases h
  | cons c counts ih =>
    simp only [decodeFrom] at h
    split at h
    · cases h
    · rename_i b r2 hb
      split at h
      · rename_i hc
        split at h
        · rename_i s hs
          cases h
          exact ⟨_, by simp; omega, hs⟩
        · cases h
      · obtain ⟨j, h1, h2⟩ := ih h
        exact ⟨j, by simp; omega, h2⟩

/-- A built table decodes only coded symbols of its alphabet. -/
theorem decodeSym_built_ok {old : HuffTable} {lengths : List Nat} {r r1 : Reader} {sym : Nat} (h : ∀ l ∈ lengths, l ≤ 15) (hn : lengths.length ≤ old.symbols.length)
    (ho : old.symbols.length ≤ 288) (hd : decodeSym (buildTable old lengths).code r = .ok sym r1) : sym < lengths.length ∧ lengths.getD sym 0 ≠ 0 := by
  obtain ⟨j, hj, hj2⟩ := decodeFrom_index hd
  have hc := buildTable_coded (old := old) h (by omega)
  have hj3 : j < (codedSymbols lengths).length := by rw [← hc]; simpa [Huff.coded] using hj
  have : (codedSymbols lengths)[j]? = some sym := by
    rw [← buildTable_code_symbols h hn ho, List.getElem?_take, if_pos hj3, hj2]
  obtain ⟨q1, q2⟩ := List.getElem?_eq_some_iff.mp this
  obtain ⟨m1, m2, m3⟩ := mem_codedSymbols (q2 ▸ List.getElem_mem q1)
  exact ⟨m1, m2⟩

/-- A reader that sees two bit strings sees the shorter as a prefix of the longer. -/
theorem Reader.sees_prefix {xs ys : List Bool} {r : Reader} (hx : r.sees xs) (hy : r.sees ys)
    (hl : xs.length ≤ ys.length) : xs <+: ys := by
  induction xs generalizing ys r with
  | nil => exact List.nil_prefix
  | cons x xs ih =>
    cases ys with
    | nil => simp at hl
    | cons y ys =>
      have hxy : x = y := by have := hx.1.symm.trans hy.1; cases this; rfl
      subst hxy
      exact (List.cons_prefix_cons).mpr ⟨rfl, ih hx.2 hy.2 (by simpa using hl)⟩

/-- With as many bits in sight as there are counts, symbol decode answers a symbol or consumes them all. -/
theorem decodeFrom_sees {symbols counts : List Nat} {base offs : Nat} {r : Reader} {bits : List Bool}
    (hl : bits.length = counts.length) (hr : r.sees bits) (hsym : base + counts.sum ≤ symbols.length) :
    (∃ sym r1, decodeFrom symbols counts base offs r = .ok sym r1)
      ∨ decodeFrom symbols counts base offs r = .noCode (r.skip bits.length) := by
  induction counts generalizing base offs r bits with
  | nil => obtain rfl : bits = [] := by simpa using hl
           right; simp [decodeFrom]
  | cons c counts ih =>
    cases bits with
    | nil => simp at hl
    | cons b bits =>
      simp only [List.sum_cons] at hsym
      simp only [decodeFrom, hr.1]
      by_cases hc : 2 * offs + b.toNat < c
      · rw [if_pos hc, List.getElem?_eq_getElem (by omega)]
        exact .inl ⟨_, _, rfl⟩
      · rw [if_neg hc]
        rcases ih (base := base + c) (offs := 2 * offs + b.toNat - c) (by simpa using hl) hr.2 (by omega) with h | h
        · exact .inl h
        · right; rw [h, Reader.skip_skip, List.length_cons, Nat.add_comm]

/-- The converse of `codeFrom_decodes`: the bits of a decoded symbol are the code of its index. -/
theorem decodeFrom_code {symbols counts : List Nat} {base sym f len p : Nat} {r r1 : Reader} (hf : f ≤ p) (hp : p < 2 ^ len)
    (h : decodeFrom symbols counts base (p - f) r = .ok sym r1) :
    ∃ idx rest, codeFrom counts idx (2 * f) (len + 1) = some (codeBits len p ++ rest) ∧ idx < counts.sum
      ∧ symbols[base + idx]? = some sym ∧ r.sees rest ∧ r1 = r.skip rest.length := by
  induction counts generalizing base f len p r with
  | nil => cases h
  | cons c counts ih =>
    simp only [decodeFrom] at h
    split at h
    · cases h
    · rename_i b r2 hb
      obtain rfl : r2 = r.skip 1 := (Reader.getBit_eq_ok hb).2.1
      have hv : 2 * (p - f) + b.toNat = (2 * p + b.toNat) - 2 * f := by omega
      have hb1 : b.toNat ≤ 1 := Bool.toNat_le b
      have hbits : codeBits (len + 1) (2 * p + b.toNat) = codeBits len p ++ [b] := by
        rw [codeBits]
        congr 1
        · congr 1; omega
        · cases b <;> simp [Nat.add_mod]
      split at h
      · rename_i hc
        split at h
        · rename_i s hs
          cases h
          refine ⟨2 * (p - f) + b.toNat, [b], ?_, by simp; omega, hs, ⟨hb, trivial⟩, rfl⟩
          simp only [codeFrom]
          rw [if_pos hc, show 2 * f + (2 * (p - f) + b.toNat) = 2 * p + b.toNat by omega,
            if_pos (by rw [Nat.pow_succ]; omega), hbits]
        · cases h
      · rename_i hc
        rw [show 2 * (p - f) + b.toNat - c = (2 * p + b.toNat) - (2 * f + c) by omega] at h
        obtain ⟨idx, rest, h1, h2, h3, h4, h5⟩ := ih (len := len + 1) (by omega) (by rw [Nat.pow_succ]; omega) h
        refine ⟨c + idx, b :: rest, ?_, by simp; omega, by rw [← Nat.add_assoc]; exact h3, ⟨hb, h4⟩, ?_⟩
        · simp only [codeFrom]
          rw [if_neg (by omega), Nat.add_sub_cancel_left, h1, hbits]
          simp
        · rw [h5, Reader.skip_skip, List.length_cons, Nat.add_comm]

/-- A built table decodes a symbol from the bits of its code, and from nothing else; the lengths may be over-subscribed. -/
theorem decodeSym_built_code {old : HuffTable} {lengths : List Nat} {r r1 : Reader} {sym : Nat}
    (h : ∀ l ∈ lengths, l ≤ 15) (hn : lengths.length ≤ old.symbols.length) (ho : old.symbols.length ≤ 288)
    (hd : decodeSym (buildTable old lengths).code r = .ok sym r1) :
    ∃ code, codeOf (buildTable old lengths).code sym = some code ∧ code.length = lengths.getD sym 0
      ∧ r.sees code ∧ r1 = r.skip code.length := by
  obtain ⟨hs, h0⟩ := decodeSym_built_ok h hn ho hd
  obtain ⟨idx, rest, h1, h2, h3, h4, h5⟩ := decodeFrom_code (f := 0) (len := 0) (p := 0) (le_refl _) (by decide) hd
  have hc := buildTable_coded (old := old) h (by omega)
  have hlt : idx < (codedSymbols lengths).length := by rw [← hc]; exact h2
  have hrk : rankOf lengths sym = idx := rankOf_of_getElem? (by
    rw [← buildTable_code_symbols h hn ho, List.getElem?_take, if_pos hlt, ← h3, Nat.zero_add])
  have h15 : lengths.getD sym 0 ≤ 15 := by rw [List.getD_eq_getElem _ _ hs]; exact h _ (List.getElem_mem hs)
  have hcode := codeOf_built h hn ho hs h0
  have hidx : ((buildTable old lengths).code.symbols.take (buildTable old lengths).code.coded).idxOf? sym = some idx := by
    rw [← hrk]; exact idxOf_built h hn ho hs h0
  have hof : codeOf (buildTable old lengths).code sym = some rest := by
    unfold codeOf; rw [hidx]; simpa [codeBits] using h1
  refine ⟨rest, hof, ?_, h4, h5⟩
  rw [hof] at hcode
  simp only at hcode
  split at hcode
  · rw [Option.some.inj hcode, codeBits_length]
  · cases hcode

/-- A string of 15 bits of which no prefix is a code decodes to no symbol, and all of it is consumed. -/
theorem decodeSym_built_noCode {old : HuffTable} {lengths : List Nat} {r : Reader} {bits : List Bool}
    (h : ∀ l ∈ lengths, l ≤ 15) (hn : lengths.length ≤ old.symbols.length) (ho : old.symbols.length ≤ 288)
    (hb : bits.length = 15) (hr : r.sees bits)
    (hno : ∀ sym code, codeOf (buildTable old lengths).code sym = some code → ¬ code <+: bits) :
    decodeSym (buildTable old lengths).code r = .noCode (r.skip 15) := by
  have hcl : (((buildTable old lengths).code.counts.drop 1).take Config.maxBits).length = 15 := by
    rw [buildTable_counts h (by omega)]; simp [lengthCounts_length h, Config.maxBits]
  have hsl : (buildTable old lengths).code.symbols.length = old.symbols.length := by
    simp [HuffTable.code, buildTable_symbols_length]
  have hP : (buildTable old lengths).code.coded ≤ (buildTable old lengths).code.symbols.length := by
    rw [buildTable_coded h (by omega), codedSymbols_length, hsl]; exact le_trans (startOf_le_length _ _) hn
  rcases decodeFrom_sees (symbols := (buildTable old lengths).code.symbols) (base := 0) (offs := 0)
    (hb.trans hcl.symm) hr (by rw [Nat.zero_add]; exact hP) with ⟨sym, r1, hd⟩ | hd
  · obtain ⟨code, h1, h2, h3, -⟩ := decodeSym_built_code h hn ho hd
    obtain ⟨hs, -⟩ := decodeSym_built_ok h hn ho hd
    have h15 : lengths.getD sym 0 ≤ 15 := by rw [List.getD_eq_getElem _ _ hs]; exact h _ (List.getElem_mem hs)
    exact absurd (Reader.sees_prefix h3 hr (by omega)) (hno sym code h1)
  · rw [decodeSym, hd, hb]

/-- With no code of any length the bits run out. -/
theorem decodeFrom_zeros {symbols : List Nat} {n base offs : Nat} {r : Reader} {bits : List Bool} (hb : bits.length = n) (hr : r.sees bits) :
    decodeFrom symbols (List.replicate n 0) base offs r = .noCode (r.skip n) := by
  induction n generalizing bits base offs r with
  | zero => simp [decodeFrom]
  | succ n ih =>
    cases bits with
    | nil => cases hb
    | cons b bits =>
      simp only [List.replicate_succ, decodeFrom, hr.1]
      rw [if_neg (by omega), ih (by simpa using hb) hr.2, Reader.skip_skip, Nat.add_comm]

/-- Symbol decode reads only the symbol entries that have a code, even of an over-subscribed table: entries past them (stale
ones) play no part (41_huffman.md R145). -/
theorem decodeFrom_congr {symbols symbols' counts : List Nat} {base offs : Nat} {r : Reader}
    (h : ∀ j, j < base + counts.sum → symbols[j]? = symbols'[j]?) :
    decodeFrom symbols counts base offs r = decodeFrom symbols' counts base offs r := by
  induction counts generalizing base offs r with
  | nil => rfl
  | cons c counts ih =>
    simp only [List.sum_cons] at h
    simp only [decodeFrom]
    split
    · rfl
    · split
      · rename_i hlt
        rw [h _ (by omega)]
      · exact ih (fun j hj => h j (by omega))

theorem decodeSym_congr {t t' : Huff} {r : Reader} (hc : t.counts = t'.counts)
    (hs : t.symbols.take t.coded = t'.symbols.take t.coded) : decodeSym t r = decodeSym t' r := by
  simp only [decodeSym, ← hc]
  refine decodeFrom_congr fun j hj => ?_
  have hj' : j < t.coded := by simpa [Huff.coded] using hj
  have h1 : (t.symbols.take t.coded)[j]? = (t'.symbols.take t.coded)[j]? := by rw [hs]
  rwa [List.getElem?_take, List.getElem?_take, if_pos hj', if_pos hj'] at h1

end Sys2Proof.Machine
end

