-- ==== Sys2Proof/Laws/Decode.lean ====
section
/-! SUPPORT. Where the decoder leaves the cursor, which instructions a format gives, and what a reader that sees the parts of
an encoding answers. -/

namespace Sys2Proof

open Sys2Proof.Machine

/-- Where an answer of the decoder stands in the region: at least `m` bits further on for an instruction, at the end of
the region for InputExhausted, inside the region otherwise. -/
def Lands (m : Nat) (r : Reader) : DecodeResult → Prop
  | .ok _ r1 => ∃ k, m ≤ k ∧ r1 = r.skip k ∧ r.pos.toNat + k ≤ 8 * r.stop
  | .exhausted _ r1 => ∃ k, r1 = r.skip k ∧ r.pos.toNat + k = 8 * r.stop
  | .noCode r1 => ∃ k, r1 = r.skip k ∧ r.pos.toNat + k ≤ 8 * r.stop
  | .noClSymbol r1 => ∃ k, r1 = r.skip k ∧ r.pos.toNat + k ≤ 8 * r.stop

/-- An answer from `k` bits further on is an answer from here. -/
theorem Lands.of_skip {m k : Nat} {r : Reader} {d : DecodeResult} (hs : 8 * r.stop < 2 ^ 32)
    (hk : r.pos.toNat + k ≤ 8 * r.stop) (h : Lands m (r.skip k) d) : Lands (k + m) r d := by
  cases d <;> simp only [Lands, Reader.skip_toNat hs hk, Reader.skip_stop, Reader.skip_skip] at h ⊢
  · obtain ⟨j, h1, h2, h3⟩ := h; exact ⟨k + j, by omega, h2, by omega⟩
  all_goals obtain ⟨j, h2, h3⟩ := h; exact ⟨k + j, h2, by omega⟩

theorem Lands.mono {m m' : Nat} {r : Reader} {d : DecodeResult} (hm : m' ≤ m) (h : Lands m r d) : Lands m' r d := by
  cases d <;> simp only [Lands] at h ⊢
  · obtain ⟨j, h1, h2⟩ := h; exact ⟨j, by omega, h2⟩
  all_goals exact h

theorem lands_here {r : Reader} {i : Instr} (hp : r.pos.toNat ≤ 8 * r.stop) : Lands 0 r (.ok i r) :=
  ⟨0, le_refl _, by simp, by omega⟩

theorem lands_noCode {r : Reader} (hp : r.pos.toNat ≤ 8 * r.stop) : Lands 0 r (.noCode r) := ⟨0, by simp, by omega⟩

theorem withExtra_lands {n : Nat} {make : BitVec n → Instr} {r : Reader} (hs : 8 * r.stop < 2 ^ 32)
    (hp : r.pos.toNat ≤ 8 * r.stop) : Lands n r (withExtra n make r) := by
  simp only [withExtra]
  split
  · rename_i h
    obtain ⟨h1, h2⟩ := Reader.getBits_eq_ok hs hp h
    exact ⟨n, le_refl _, h1, h2⟩
  · rename_i h
    obtain ⟨k, -, h1, h2⟩ := Reader.getBits_eq_exhausted hs hp h
    exact ⟨k, h1, h2⟩

/-- Where symbol decode leaves the cursor. -/
theorem decodeFrom_lands {symbols counts : List Nat} {base offs : Nat} {r : Reader} (hs : 8 * r.stop < 2 ^ 32)
    (hp : r.pos.toNat ≤ 8 * r.stop) :
    match decodeFrom symbols counts base offs r with
    | .ok sym r1 => sym ∈ symbols ∧ ∃ k, 1 ≤ k ∧ k ≤ counts.length ∧ r1 = r.skip k ∧ r.pos.toNat + k ≤ 8 * r.stop
    | .exhausted r1 => ∃ k, r1 = r.skip k ∧ r.pos.toNat + k = 8 * r.stop
    | .noCode r1 => ∃ k, k ≤ counts.length ∧ r1 = r.skip k ∧ r.pos.toNat + k ≤ 8 * r.stop := by
  induction counts generalizing base offs r with
  | nil => simp only [decodeFrom]; exact ⟨0, le_refl _, by simp, by omega⟩
  | cons c counts ih =>
    simp only [decodeFrom]
    cases hb : r.getBit with
    | exhausted r1 =>
      obtain ⟨rfl, hle⟩ := Reader.getBit_eq_exhausted hb
      exact ⟨0, by simp, by omega⟩
    | ok b r1 =>
      obtain ⟨-, rfl, hle⟩ := Reader.getBit_eq_ok hb
      have hk : (r.skip 1).pos.toNat = r.pos.toNat + 1 := Reader.skip_toNat hs hle
      dsimp only
      by_cases hc : 2 * offs + b.toNat < c
      · rw [if_pos hc]
        cases hsym : symbols[base + (2 * offs + b.toNat)]? with
        | none => exact ⟨1, by simp, rfl, hle⟩
        | some sym => exact ⟨List.mem_of_getElem? hsym, 1, le_refl _, by simp, rfl, hle⟩
      · rw [if_neg hc]
        have h := ih (base := base + c) (offs := 2 * offs + b.toNat - c) (r := r.skip 1) hs (by rw [hk]; exact hle)
        rw [hk] at h
        cases hd : decodeFrom symbols counts (base + c) (2 * offs + b.toNat - c) (r.skip 1) with
        | ok sym r1 =>
          simp only [hd, Reader.skip_skip, Reader.skip_stop] at h ⊢
          obtain ⟨hm, k, h1, h2, h3, h4⟩ := h
          exact ⟨hm, 1 + k, by omega, by simp; omega, h3, by omega⟩
        | exhausted r1 =>
          simp only [hd, Reader.skip_skip, Reader.skip_stop] at h ⊢
          obtain ⟨k, h3, h4⟩ := h
          exact ⟨1 + k, h3, by omega⟩
        | noCode r1 =>
          simp only [hd, Reader.skip_skip, Reader.skip_stop] at h ⊢
          obtain ⟨k, h2, h3, h4⟩ := h
          exact ⟨1 + k, by simp; omega, h3, by omega⟩

theorem decodeCoded_lands {t : Huff} {instr : Nat → Reader → DecodeResult} {r : Reader} (hs : 8 * r.stop < 2 ^ 32)
    (hp : r.pos.toNat ≤ 8 * r.stop)
    (hi : ∀ sym r1, r1.stop = r.stop → r1.pos.toNat ≤ 8 * r1.stop → Lands 0 r1 (instr sym r1)) :
    Lands 1 r (decodeCoded t instr r) := by
  have h := decodeFrom_lands (symbols := t.symbols) (counts := (t.counts.drop 1).take Config.maxBits)
    (base := 0) (offs := 0) hs hp
  simp only [decodeCoded, decodeSym]
  split
  · rename_i sym r1 hd
    rw [hd] at h
    obtain ⟨-, k, h1, -, rfl, h3⟩ := h
    refine Lands.mono (m := k + 0) (by omega) (Lands.of_skip hs h3 (hi _ _ rfl ?_))
    rw [Reader.skip_toNat hs h3]; simpa using h3
  · rename_i r1 hd
    rw [hd] at h
    exact h
  · rename_i r1 hd
    rw [hd] at h
    obtain ⟨k, -, h2⟩ := h
    exact ⟨k, h2⟩

theorem clInstr_lands {first : Bool} {sym : Nat} {r : Reader} (hs : 8 * r.stop < 2 ^ 32)
    (hp : r.pos.toNat ≤ 8 * r.stop) : Lands 0 r (clInstr first sym r) := by
  simp only [clInstr]
  split
  · exact lands_here hp
  · split
    · split
      · exact lands_here hp
      · exact (withExtra_lands hs hp).mono (Nat.zero_le _)
    · split
      · exact (withExtra_lands hs hp).mono (Nat.zero_le _)
      · split
        · exact (withExtra_lands hs hp).mono (Nat.zero_le _)
        · exact ⟨0, by simp, by omega⟩

theorem litLenInstr_lands {sym : Nat} {r : Reader} (hs : 8 * r.stop < 2 ^ 32) (hp : r.pos.toNat ≤ 8 * r.stop) :
    Lands 0 r (litLenInstr sym r) := by
  simp only [litLenInstr]
  split
  · exact lands_here hp
  · split <;> first
      | exact lands_here hp
      | exact (withExtra_lands hs hp).mono (Nat.zero_le _)
      | (split; exacts [lands_here hp, lands_noCode hp])

theorem distInstr_lands {sym : Nat} {r : Reader} (hs : 8 * r.stop < 2 ^ 32) (hp : r.pos.toNat ≤ 8 * r.stop) :
    Lands 0 r (distInstr sym r) := by
  simp only [distInstr]
  split <;> first
    | exact lands_here hp
    | exact (withExtra_lands hs hp).mono (Nat.zero_le _)
    | (split; exacts [lands_here hp, lands_noCode hp])

theorem decodeBlkHdr_lands {r : Reader} (hs : 8 * r.stop < 2 ^ 32) (hp : r.pos.toNat ≤ 8 * r.stop) :
    Lands 3 r (decodeBlkHdr r) := by
  simp only [decodeBlkHdr]
  split
  · rename_i r1 hb
    obtain ⟨rfl, hle⟩ := Reader.getBit_eq_exhausted hb
    exact ⟨0, by simp, by omega⟩
  · rename_i b r1 hb
    obtain ⟨-, rfl, hle⟩ := Reader.getBit_eq_ok hb
    have hk : (r.skip 1).pos.toNat ≤ 8 * (r.skip 1).stop := by rw [Reader.skip_toNat hs hle]; simpa using hle
    split
    · rename_i r2 hg
      obtain ⟨k, -, h1, h2⟩ := Reader.getBits_eq_exhausted (by simpa using hs) hk hg
      exact Lands.of_skip (m := 2) hs hle ⟨k, h1, h2⟩
    · rename_i v r2 hg
      obtain ⟨h1, h2⟩ := Reader.getBits_eq_ok (by simpa using hs) hk hg
      exact Lands.of_skip (m := 2) hs hle ⟨2, le_refl _, h1, h2⟩

theorem decodeStoredLen_lands {r : Reader} (hs : 8 * r.stop < 2 ^ 32) (hp : r.pos.toNat ≤ 8 * r.stop) :
    Lands 32 r (decodeStoredLen r) := by
  simp only [decodeStoredLen]
  split
  · rename_i r1 hg
    obtain ⟨k, -, h1, h2⟩ := Reader.getBits_eq_exhausted hs hp hg
    exact ⟨k, h1, h2⟩
  · rename_i v r1 hg
    obtain ⟨rfl, hle⟩ := Reader.getBits_eq_ok hs hp hg
    have hk : (r.skip 16).pos.toNat ≤ 8 * (r.skip 16).stop := by rw [Reader.skip_toNat hs hle]; simpa using hle
    split
    · rename_i r2 hg
      obtain ⟨k, -, h1, h2⟩ := Reader.getBits_eq_exhausted (by simpa using hs) hk hg
      exact Lands.of_skip (m := 16) hs hle ⟨k, h1, h2⟩
    · rename_i v r2 hg
      obtain ⟨h1, h2⟩ := Reader.getBits_eq_ok (by simpa using hs) hk hg
      exact Lands.of_skip (m := 16) hs hle ⟨16, le_refl _, h1, h2⟩

theorem decodeDynHdr_lands {r : Reader} (hs : 8 * r.stop < 2 ^ 32) (hp : r.pos.toNat ≤ 8 * r.stop) :
    Lands 14 r (decodeDynHdr r) := by
  simp only [decodeDynHdr]
  split
  · rename_i r1 hg
    obtain ⟨k, -, h1, h2⟩ := Reader.getBits_eq_exhausted hs hp hg
    exact ⟨k, h1, h2⟩
  · rename_i v r1 hg
    obtain ⟨rfl, hle⟩ := Reader.getBits_eq_ok hs hp hg
    have hk : (r.skip 5).pos.toNat ≤ 8 * (r.skip 5).stop := by rw [Reader.skip_toNat hs hle]; simpa using hle
    refine Lands.of_skip (m := 9) hs hle ?_
    split
    · rename_i r2 hg
      obtain ⟨k, -, h1, h2⟩ := Reader.getBits_eq_exhausted (by simpa using hs) hk hg
      exact ⟨k, h1, h2⟩
    · rename_i v r2 hg
      obtain ⟨rfl, hle2⟩ := Reader.getBits_eq_ok (by simpa using hs) hk hg
      have hk2 : ((r.skip 5).skip 5).pos.toNat ≤ 8 * ((r.skip 5).skip 5).stop := by
        rw [Reader.skip_toNat (r := r.skip 5) (by simpa using hs) hle2]; simpa using hle2
      refine Lands.of_skip (m := 4) (by simpa using hs) hle2 ?_
      split
      · rename_i r2 hg
        obtain ⟨k, -, h1, h2⟩ := Reader.getBits_eq_exhausted (by simpa using hs) hk2 hg
        exact ⟨k, h1, h2⟩
      · rename_i v r2 hg
        obtain ⟨h1, h2⟩ := Reader.getBits_eq_ok (by simpa using hs) hk2 hg
        exact ⟨4, le_refl _, h1, h2⟩

/-- Skipping to a byte boundary moves forward by less than a byte, and never past the region. -/
theorem Machine.Reader.align_eq_skip {r : Reader} (hp : r.pos.toNat ≤ 8 * r.stop) :
    ∃ k, k ≤ 7 ∧ r.align = r.skip k ∧ r.pos.toNat + k ≤ 8 * r.stop := by
  by_cases hb : bitOff r.pos = 0
  · exact ⟨0, by omega, by simp [Reader.align, alignPos, hb], by omega⟩
  · refine ⟨8 - bitOff r.pos, ?_, ?_, ?_⟩
    · simp only [bitOff] at hb ⊢; omega
    · simp only [Reader.align, alignPos, hb, if_false, Reader.skip, cursorAt, byteOff]
      congr 1
      apply BitVec.eq_of_toNat_eq
      simp only [bitOff, BitVec.toNat_add, BitVec.toNat_ofNat] at hb ⊢
      omega
    · simp only [bitOff] at hb ⊢; omega

/-- The least number of bits an instruction of a format has, counted from the cursor. -/
def Format.minBits : Format → Nat
  | .zlibHdr => 0
  | .trailer => 0
  | _ => 1

/-- Where the decoder leaves the cursor: inside the region, and past at least one bit but for the two whole-byte formats. -/
theorem decode_lands {f : Format} {r : Reader} (hs : 8 * r.stop < 2 ^ 32) (hp : r.pos.toNat ≤ 8 * r.stop)
    (hn : f = .zlibHdr → 2 ≤ r.n) : Lands f.minBits r (decode f r) := by
  have coded : ∀ {t : Huff} {instr : Nat → Reader → DecodeResult},
      (∀ sym r1, 8 * r1.stop < 2 ^ 32 → r1.pos.toNat ≤ 8 * r1.stop → Lands 0 r1 (instr sym r1)) →
      Lands 1 r (decodeCoded t instr r) :=
    fun h => decodeCoded_lands hs hp fun sym r1 h1 h2 => h sym r1 (by rw [h1]; exact hs) h2
  cases f with
  | zlibHdr =>
    simp only [decode, Format.minBits]
    rw [if_neg (by have := hn rfl; omega)]
    exact lands_here hp
  | blkHdr => exact (decodeBlkHdr_lands hs hp).mono (by simp [Format.minBits])
  | storedLen align =>
    simp only [decode]
    split
    · obtain ⟨k, -, hk, hle⟩ := Reader.align_eq_skip hp
      rw [hk]
      refine Lands.mono (m := k + 32) (by simp [Format.minBits]) (Lands.of_skip hs hle ?_)
      exact decodeStoredLen_lands (by simpa using hs) (by rw [Reader.skip_toNat hs hle]; simpa using hle)
    · exact (decodeStoredLen_lands hs hp).mono (by simp [Format.minBits])
  | storedByte => exact (withExtra_lands hs hp).mono (by simp [Format.minBits])
  | dynHdr => exact (decodeDynHdr_lands hs hp).mono (by simp [Format.minBits])
  | clCodelen => exact (withExtra_lands hs hp).mono (by simp [Format.minBits])
  | clSym t first => exact coded fun _ _ h1 h2 => clInstr_lands h1 h2
  | litLen t => exact coded fun _ _ h1 h2 => litLenInstr_lands h1 h2
  | dist t => exact coded fun _ _ h1 h2 => distInstr_lands h1 h2
  | trailer => exact lands_here hp

/-- A plain field is read as its maker's instruction. -/
theorem withExtra_eq_ok {n : Nat} {make : BitVec n → Instr} {r r1 : Reader} {i : Instr}
    (h : withExtra n make r = .ok i r1) : ∃ v, i = make v := by
  simp only [withExtra] at h
  split at h
  · cases h; exact ⟨_, rfl⟩
  · cases h

theorem decodeCoded_eq_ok {t : Huff} {instr : Nat → Reader → DecodeResult} {r r1 : Reader} {i : Instr}
    (h : decodeCoded t instr r = .ok i r1) : ∃ sym r2, decodeSym t r = .ok sym r2 ∧ instr sym r2 = .ok i r1 := by
  simp only [decodeCoded] at h
  split at h
  · exact ⟨_, _, by assumption, h⟩
  · cases h
  · cases h

/-- A format gives only well-formed instructions of its own row of the opcode table. -/
theorem decode_row {f : Format} {r r1 : Reader} {i : Instr} (h : decode f r = .ok i r1) :
    i.parts.row = f.row ∧ i.wf = true := by
  cases f with
  | zlibHdr => simp only [decode] at h; split at h <;> cases h; exact ⟨rfl, rfl⟩
  | blkHdr =>
    simp only [decode, decodeBlkHdr] at h
    split at h
    · cases h
    · split at h
      · cases h
      · cases h
        simp only [blkInstr]
        split <;> exact ⟨rfl, rfl⟩
  | storedLen align =>
    simp only [decode, decodeStoredLen] at h
    split at h
    · cases h
    · split at h <;> cases h
      exact ⟨rfl, rfl⟩
  | storedByte => obtain ⟨v, rfl⟩ := withExtra_eq_ok h; exact ⟨rfl, rfl⟩
  | dynHdr =>
    simp only [decode, decodeDynHdr] at h
    split at h
    · cases h
    · split at h
      · cases h
      · split at h <;> cases h
        exact ⟨rfl, rfl⟩
  | clCodelen => obtain ⟨v, rfl⟩ := withExtra_eq_ok h; exact ⟨rfl, rfl⟩
  | clSym t first =>
    obtain ⟨sym, r2, -, h⟩ := decodeCoded_eq_ok h
    simp only [clInstr] at h
    repeat' split at h
    all_goals first
      | (obtain ⟨v, rfl⟩ := withExtra_eq_ok h; exact ⟨rfl, rfl⟩)
      | (cases h; exact ⟨rfl, rfl⟩)
      | cases h
  | litLen t =>
    obtain ⟨sym, r2, -, h⟩ := decodeCoded_eq_ok h
    simp only [litLenInstr] at h
    split at h
    · cases h; exact ⟨rfl, rfl⟩
    · split at h <;> first
        | (obtain ⟨v, rfl⟩ := withExtra_eq_ok h; exact ⟨rfl, rfl⟩)
        | (cases h; exact ⟨rfl, rfl⟩)
        | skip
      split at h
      · cases h
        simp only [imp_false] at *
        have : sym = 286 ∨ sym = 287 := by omega
        rcases this with rfl | rfl <;> exact ⟨rfl, rfl⟩
      · cases h
  | dist t =>
    obtain ⟨sym, r2, -, h⟩ := decodeCoded_eq_ok h
    simp only [distInstr] at h
    split at h <;> first
      | (obtain ⟨v, rfl⟩ := withExtra_eq_ok h; exact ⟨rfl, rfl⟩)
      | (cases h; exact ⟨rfl, rfl⟩)
      | skip
    split at h
    · cases h
      simp only [imp_false] at *
      have : sym = 30 ∨ sym = 31 := by omega
      rcases this with rfl | rfl <;> exact ⟨rfl, rfl⟩
    · cases h
  | trailer => cases h; exact ⟨rfl, rfl⟩

/-- A plain field is known from its bits. -/
theorem fieldBits_inj {n : Nat} {v w : BitVec n} (h : fieldBits v = fieldBits w) : v = w := by
  apply BitVec.eq_of_getLsbD_eq
  intro i hi
  have : (fieldBits v)[i]? = (fieldBits w)[i]? := by rw [h]
  simpa [fieldBits, hi] using this

/-- A reader that sees a field answers it. -/
theorem withExtra_sees {n : Nat} {make : BitVec n → Instr} {r : Reader} {v : BitVec n} (h : r.sees (fieldBits v)) :
    withExtra n make r = .ok (make v) (r.skip n) := by
  simp only [withExtra, Reader.getBits_of_sees v h]

/-- A reader that sees a code and what follows it answers the coded instruction. -/
theorem coded_sees {t : Huff} {instr : Nat → Reader → DecodeResult} {sym : Nat} {code bits : List Bool} {r : Reader} {i : Instr}
    (hc : codeOf t sym = some code) (hr : r.sees (code ++ bits))
    (hi : ∀ r1 : Reader, r1.sees bits → instr sym r1 = .ok i (r1.skip bits.length)) :
    decodeCoded t instr r = .ok i (r.skip (code ++ bits).length) := by
  rw [Reader.sees_append] at hr
  simp only [decodeCoded, codeOf_decodes hc hr.1]
  rw [hi _ hr.2, Reader.skip_skip, List.length_append]

/-- After its symbol, a literal/length instruction is read from its extra bits. -/
theorem litLen_parts {i : Instr} (hw : i.wf = true) (hrow : i.parts.row = .litLen) (r1 : Reader) (h : r1.sees i.parts.bits) :
    litLenInstr i.parts.sym r1 = .ok i (r1.skip i.parts.bits.length) := by
  cases i <;> simp only [Instr.parts, reduceCtorEq] at hrow h ⊢
  case lit s =>
    have := s.isLt
    simp only [litLenInstr]
    rw [if_pos (by omega)]
    simp [Reader.skip]
  case llReserved s =>
    simp only [Instr.wf, Bool.or_eq_true, beq_iff_eq] at hw
    rcases hw with rfl | rfl <;> simp [litLenInstr, Reader.skip]
  all_goals first
    | (simp [litLenInstr, Reader.skip]; done)
    | (simp only [litLenInstr, fieldBits_length, withExtra_sees h]; rfl)

/-- After its symbol, a distance code is read from its extra bits. -/
theorem dist_parts {i : Instr} (hw : i.wf = true) (hrow : i.parts.row = .dist) (r1 : Reader) (h : r1.sees i.parts.bits) :
    distInstr i.parts.sym r1 = .ok i (r1.skip i.parts.bits.length) := by
  cases i <;> simp only [Instr.parts, reduceCtorEq] at hrow h ⊢
  case distReserved s =>
    simp only [Instr.wf, Bool.or_eq_true, beq_iff_eq] at hw
    rcases hw with rfl | rfl <;> simp [distInstr, Reader.skip]
  all_goals first
    | (simp [distInstr, Reader.skip]; done)
    | (simp only [distInstr, fieldBits_length, withExtra_sees h])

/-- After its symbol, a code-length instruction is read from its extra bits. -/
theorem clSym_parts {i : Instr} {first : Bool} (hrow : i.parts.row = .clSym) (hf : first = true → i.parts.sym ≠ 16) (r1 : Reader) (h : r1.sees i.parts.bits) :
    clInstr first i.parts.sym r1 = .ok i (r1.skip i.parts.bits.length) := by
  cases i <;> simp only [Instr.parts, reduceCtorEq] at hrow h hf ⊢
  case clLen s =>
    have := s.isLt
    simp only [clInstr]
    rw [if_pos (by omega)]
    simp [Reader.skip]
  case clRepPrev e =>
    have : first = false := by cases first <;> simp_all
    simp [clInstr, this, withExtra_sees h, fieldBits_length]
  case clRepZero3 e => simp [clInstr, withExtra_sees h, fieldBits_length]
  case clRepZero11 e => simp [clInstr, withExtra_sees h, fieldBits_length]

end Sys2Proof
end

