-- ==== Sys2Proof/Laws/Memory.lean ====
section
/-! SUPPORT. The laws of a byte memory: a read after a write, and the canonical form that every write keeps. -/

namespace Sys2Proof.Machine

theorem Memory.wfFrom_mono {m : Memory} {lo hi : Nat} (h : Memory.wfFrom hi m = true) (hl : lo ≤ hi) :
    Memory.wfFrom lo m = true := by
  cases m with
  | nil => rfl
  | cons c m =>
    obtain ⟨a, v⟩ := c
    simp only [Memory.wfFrom, Bool.and_eq_true, decide_eq_true_eq] at h ⊢
    exact ⟨⟨by omega, h.1.2⟩, h.2⟩

/-- An address below every listed one reads as unwritten. -/
theorem Memory.read_below {m : Memory} {lo addr : Nat} (h : Memory.wfFrom lo m = true) (ha : addr < lo) :
    m.read addr = Config.unwrittenByte := by
  induction m generalizing lo with
  | nil => rfl
  | cons c m ih =>
    obtain ⟨a, v⟩ := c
    simp only [Memory.wfFrom, Bool.and_eq_true, decide_eq_true_eq] at h
    simp only [Memory.read]
    rw [if_neg (by omega)]
    exact ih h.2 (by omega)

/-- A write keeps the canonical form. -/
theorem Memory.write_wfFrom {m : Memory} {lo addr : Nat} (v : Byte) (h : Memory.wfFrom lo m = true) (ha : lo ≤ addr) :
    Memory.wfFrom lo (m.write addr v) = true := by
  induction m generalizing lo with
  | nil => simp only [Memory.write]; split <;> simp_all [Memory.wfFrom]
  | cons c m ih =>
    obtain ⟨a, w⟩ := c
    simp only [Memory.wfFrom, Bool.and_eq_true, decide_eq_true_eq] at h
    simp only [Memory.write]
    split
    · have := ih h.2 (by omega : a + 1 ≤ addr)
      simp_all [Memory.wfFrom]
    · split
      · split
        · exact Memory.wfFrom_mono h.2 (by omega)
        · subst a; simp_all [Memory.wfFrom]
      · split
        · simp_all [Memory.wfFrom]
        · have : addr + 1 ≤ a := by omega
          simp_all [Memory.wfFrom]

theorem Memory.write_wf {m : Memory} (addr : Nat) (v : Byte) (h : m.wf = true) : (m.write addr v).wf = true :=
  Memory.write_wfFrom v h (Nat.zero_le _)

/-- A read after a write: the written byte at its address, every other byte as before. -/
theorem Memory.read_writeFrom {m : Memory} {lo : Nat} (h : Memory.wfFrom lo m = true) (addr : Nat) (v : Byte) (b : Nat) :
    (m.write addr v).read b = if b = addr then v else m.read b := by
  induction m generalizing lo with
  | nil =>
    simp only [Memory.write]
    by_cases hv : v = Config.unwrittenByte
    · simp [hv, Memory.read]
    · simp [hv, Memory.read, eq_comm]
  | cons c m ih =>
    obtain ⟨a, w⟩ := c
    simp only [Memory.wfFrom, Bool.and_eq_true, decide_eq_true_eq] at h
    simp only [Memory.write]
    split
    · simp only [Memory.read]
      rw [ih h.2]
      by_cases hab : a = b
      · subst hab
        rw [if_pos rfl, if_neg (by omega)]; simp
      · simp [hab]
    · split
      · rename_i _ haddr
        subst haddr
        split
        · rename_i hv
          simp only [Memory.read]
          by_cases hb : b = a
          · subst hb
            simp only [if_true]
            rw [Memory.read_below h.2 (by omega), hv]
          · rw [if_neg hb, if_neg (fun h => hb h.symm)]
        · simp only [Memory.read, eq_comm (a := a) (b := b)]
          split <;> simp_all
      · split
        · rename_i hv
          by_cases hb : b = addr
          · subst hb
            have := Memory.read_below (m := (a, w) :: m) (lo := b + 1) (addr := b)
              (by simp_all [Memory.wfFrom]; omega) (by omega)
            simp [this, hv]
          · simp [hb]
        · simp only [Memory.read]
          by_cases hb : addr = b
          · subst hb; simp
          · rw [if_neg hb, if_neg (fun h : b = addr => hb h.symm)]

theorem Memory.read_write {m : Memory} (h : m.wf = true) (addr : Nat) (v : Byte) (b : Nat) :
    (m.write addr v).read b = if b = addr then v else m.read b := Memory.read_writeFrom h addr v b

/-- A write adds at most the written entry. -/
theorem Memory.mem_write {m : Memory} {addr : Nat} {v : Byte} {c : Host.Cell} (h : c ∈ m.write addr v) :
    c ∈ m ∨ c = (addr, v) := by
  induction m with
  | nil =>
    simp only [Memory.write] at h
    split at h <;> simp_all
  | cons d m ih =>
    obtain ⟨a, w⟩ := d
    simp only [Memory.write] at h
    split at h
    · rcases List.mem_cons.mp h with h | h
      · exact .inl (h ▸ List.mem_cons_self)
      · exact (ih h).imp_left (List.mem_cons_of_mem _)
    · split at h <;> split at h <;> simp only [List.mem_cons] at h ⊢ <;> tauto

/-- A write within a space lists only addresses of the space. -/
theorem Memory.write_below {m : Memory} {size addr : Nat} (v : Byte) (h : m.below size = true) (ha : addr < size) :
    (m.write addr v).below size = true := by
  simp only [Memory.below, List.all_eq_true, decide_eq_true_eq] at h ⊢
  intro c hc
  rcases Memory.mem_write hc with hc | hc
  · exact h c hc
  · exact hc ▸ ha

end Sys2Proof.Machine
end

