-- ==== Sys2Proof/Laws/State.lean ====
section
/-! SUPPORT. The fields of a state after each shared update, so that no proof unfolds a record update: a field an operation
leaves alone is unchanged, a field it writes has the rule's value. -/

namespace Sys2Proof.Machine

@[simp] theorem raise_storedAlign (x : JobError) (s : State) : (raise x s).storedAlign = s.storedAlign := rfl
@[simp] theorem raise_busy (x : JobError) (s : State) : (raise x s).busy = false := rfl
@[simp] theorem raise_done (x : JobError) (s : State) : (raise x s).done = false := rfl
@[simp] theorem raise_error (x : JobError) (s : State) : (raise x s).error = true := rfl
@[simp] theorem raise_errcode (x : JobError) (s : State) : (raise x s).errcode = x.code := rfl
@[simp] theorem raise_inLen (x : JobError) (s : State) : (raise x s).inLen = s.inLen := rfl
@[simp] theorem raise_outCap (x : JobError) (s : State) : (raise x s).outCap = s.outCap := rfl
@[simp] theorem raise_outLen (x : JobError) (s : State) : (raise x s).outLen = s.outLen := rfl
@[simp] theorem raise_adlerA (x : JobError) (s : State) : (raise x s).adlerA = s.adlerA := rfl
@[simp] theorem raise_adlerB (x : JobError) (s : State) : (raise x s).adlerB = s.adlerB := rfl
@[simp] theorem raise_trailer (x : JobError) (s : State) : (raise x s).trailer = s.trailer := rfl
@[simp] theorem raise_inPos (x : JobError) (s : State) : (raise x s).inPos = s.inPos := rfl
@[simp] theorem raise_fsm (x : JobError) (s : State) : (raise x s).fsm = .error := rfl
@[simp] theorem raise_n (x : JobError) (s : State) : (raise x s).n = s.n := rfl
@[simp] theorem raise_cap (x : JobError) (s : State) : (raise x s).cap = s.cap := rfl
@[simp] theorem raise_align (x : JobError) (s : State) : (raise x s).align = s.align := rfl
@[simp] theorem raise_e (x : JobError) (s : State) : (raise x s).e = s.e := rfl
@[simp] theorem raise_wp (x : JobError) (s : State) : (raise x s).wp = s.wp := rfl
@[simp] theorem raise_clT (x : JobError) (s : State) : (raise x s).clT = s.clT := rfl
@[simp] theorem raise_litT (x : JobError) (s : State) : (raise x s).litT = s.litT := rfl
@[simp] theorem raise_distT (x : JobError) (s : State) : (raise x s).distT = s.distT := rfl
@[simp] theorem raise_clLens (x : JobError) (s : State) : (raise x s).clLens = s.clLens := rfl
@[simp] theorem raise_lens (x : JobError) (s : State) : (raise x s).lens = s.lens := rfl
@[simp] theorem raise_bfinal (x : JobError) (s : State) : (raise x s).bfinal = s.bfinal := rfl
@[simp] theorem raise_btype (x : JobError) (s : State) : (raise x s).btype = s.btype := rfl
@[simp] theorem raise_hlit (x : JobError) (s : State) : (raise x s).hlit = s.hlit := rfl
@[simp] theorem raise_hdist (x : JobError) (s : State) : (raise x s).hdist = s.hdist := rfl
@[simp] theorem raise_hclen (x : JobError) (s : State) : (raise x s).hclen = s.hclen := rfl
@[simp] theorem raise_num (x : JobError) (s : State) : (raise x s).num = s.num := rfl
@[simp] theorem raise_len (x : JobError) (s : State) : (raise x s).len = s.len := rfl
@[simp] theorem raise_nlen (x : JobError) (s : State) : (raise x s).nlen = s.nlen := rfl
@[simp] theorem raise_length (x : JobError) (s : State) : (raise x s).length = s.length := rfl
@[simp] theorem raise_distance (x : JobError) (s : State) : (raise x s).distance = s.distance := rfl
@[simp] theorem raise_tables (x : JobError) (s : State) : (raise x s).tables = s.tables := rfl
@[simp] theorem raise_inMem (x : JobError) (s : State) : (raise x s).inMem = s.inMem := rfl
@[simp] theorem raise_outMem (x : JobError) (s : State) : (raise x s).outMem = s.outMem := rfl
@[simp] theorem raise_window (x : JobError) (s : State) : (raise x s).window = s.window := rfl
@[simp] theorem raise_expect (x : JobError) (s : State) : (raise x s).expect = s.expect := rfl
@[simp] theorem raise_storedLeft (x : JobError) (s : State) : (raise x s).storedLeft = s.storedLeft := rfl
@[simp] theorem raise_clIndex (x : JobError) (s : State) : (raise x s).clIndex = s.clIndex := rfl
@[simp] theorem raise_params (x : JobError) (s : State) : (raise x s).params = s.params := rfl
@[simp] theorem raise_hostMoves (x : JobError) (s : State) : (raise x s).hostMoves = s.hostMoves := rfl
@[simp] theorem raise_busData (x : JobError) (s : State) : (raise x s).busData = s.busData := rfl
@[simp] theorem raise_draws (x : JobError) (s : State) : (raise x s).draws = s.draws := rfl

@[simp] theorem adlerUpdate_storedAlign (v : Byte) (s : State) : (adlerUpdate v s).storedAlign = s.storedAlign := rfl
@[simp] theorem adlerUpdate_busy (v : Byte) (s : State) : (adlerUpdate v s).busy = s.busy := rfl
@[simp] theorem adlerUpdate_done (v : Byte) (s : State) : (adlerUpdate v s).done = s.done := rfl
@[simp] theorem adlerUpdate_error (v : Byte) (s : State) : (adlerUpdate v s).error = s.error := rfl
@[simp] theorem adlerUpdate_errcode (v : Byte) (s : State) : (adlerUpdate v s).errcode = s.errcode := rfl
@[simp] theorem adlerUpdate_inLen (v : Byte) (s : State) : (adlerUpdate v s).inLen = s.inLen := rfl
@[simp] theorem adlerUpdate_outCap (v : Byte) (s : State) : (adlerUpdate v s).outCap = s.outCap := rfl
@[simp] theorem adlerUpdate_outLen (v : Byte) (s : State) : (adlerUpdate v s).outLen = s.outLen := rfl
@[simp] theorem adlerUpdate_adlerA (v : Byte) (s : State) : (adlerUpdate v s).adlerA = adlerNextA s.adlerA v := rfl
@[simp] theorem adlerUpdate_adlerB (v : Byte) (s : State) : (adlerUpdate v s).adlerB = adlerNextB s.adlerB (adlerNextA s.adlerA v) := rfl
@[simp] theorem adlerUpdate_trailer (v : Byte) (s : State) : (adlerUpdate v s).trailer = s.trailer := rfl
@[simp] theorem adlerUpdate_inPos (v : Byte) (s : State) : (adlerUpdate v s).inPos = s.inPos := rfl
@[simp] theorem adlerUpdate_fsm (v : Byte) (s : State) : (adlerUpdate v s).fsm = s.fsm := rfl
@[simp] theorem adlerUpdate_n (v : Byte) (s : State) : (adlerUpdate v s).n = s.n := rfl
@[simp] theorem adlerUpdate_cap (v : Byte) (s : State) : (adlerUpdate v s).cap = s.cap := rfl
@[simp] theorem adlerUpdate_align (v : Byte) (s : State) : (adlerUpdate v s).align = s.align := rfl
@[simp] theorem adlerUpdate_e (v : Byte) (s : State) : (adlerUpdate v s).e = s.e := rfl
@[simp] theorem adlerUpdate_wp (v : Byte) (s : State) : (adlerUpdate v s).wp = s.wp := rfl
@[simp] theorem adlerUpdate_clT (v : Byte) (s : State) : (adlerUpdate v s).clT = s.clT := rfl
@[simp] theorem adlerUpdate_litT (v : Byte) (s : State) : (adlerUpdate v s).litT = s.litT := rfl
@[simp] theorem adlerUpdate_distT (v : Byte) (s : State) : (adlerUpdate v s).distT = s.distT := rfl
@[simp] theorem adlerUpdate_clLens (v : Byte) (s : State) : (adlerUpdate v s).clLens = s.clLens := rfl
@[simp] theorem adlerUpdate_lens (v : Byte) (s : State) : (adlerUpdate v s).lens = s.lens := rfl
@[simp] theorem adlerUpdate_bfinal (v : Byte) (s : State) : (adlerUpdate v s).bfinal = s.bfinal := rfl
@[simp] theorem adlerUpdate_btype (v : Byte) (s : State) : (adlerUpdate v s).btype = s.btype := rfl
@[simp] theorem adlerUpdate_hlit (v : Byte) (s : State) : (adlerUpdate v s).hlit = s.hlit := rfl
@[simp] theorem adlerUpdate_hdist (v : Byte) (s : State) : (adlerUpdate v s).hdist = s.hdist := rfl
@[simp] theorem adlerUpdate_hclen (v : Byte) (s : State) : (adlerUpdate v s).hclen = s.hclen := rfl
@[simp] theorem adlerUpdate_num (v : Byte) (s : State) : (adlerUpdate v s).num = s.num := rfl
@[simp] theorem adlerUpdate_len (v : Byte) (s : State) : (adlerUpdate v s).len = s.len := rfl
@[simp] theorem adlerUpdate_nlen (v : Byte) (s : State) : (adlerUpdate v s).nlen = s.nlen := rfl
@[simp] theorem adlerUpdate_length (v : Byte) (s : State) : (adlerUpdate v s).length = s.length := rfl
@[simp] theorem adlerUpdate_distance (v : Byte) (s : State) : (adlerUpdate v s).distance = s.distance := rfl
@[simp] theorem adlerUpdate_tables (v : Byte) (s : State) : (adlerUpdate v s).tables = s.tables := rfl
@[simp] theorem adlerUpdate_inMem (v : Byte) (s : State) : (adlerUpdate v s).inMem = s.inMem := rfl
@[simp] theorem adlerUpdate_outMem (v : Byte) (s : State) : (adlerUpdate v s).outMem = s.outMem := rfl
@[simp] theorem adlerUpdate_window (v : Byte) (s : State) : (adlerUpdate v s).window = s.window := rfl
@[simp] theorem adlerUpdate_expect (v : Byte) (s : State) : (adlerUpdate v s).expect = s.expect := rfl
@[simp] theorem adlerUpdate_storedLeft (v : Byte) (s : State) : (adlerUpdate v s).storedLeft = s.storedLeft := rfl
@[simp] theorem adlerUpdate_clIndex (v : Byte) (s : State) : (adlerUpdate v s).clIndex = s.clIndex := rfl
@[simp] theorem adlerUpdate_params (v : Byte) (s : State) : (adlerUpdate v s).params = s.params := rfl
@[simp] theorem adlerUpdate_hostMoves (v : Byte) (s : State) : (adlerUpdate v s).hostMoves = s.hostMoves := rfl
@[simp] theorem adlerUpdate_busData (v : Byte) (s : State) : (adlerUpdate v s).busData = s.busData := rfl
@[simp] theorem adlerUpdate_draws (v : Byte) (s : State) : (adlerUpdate v s).draws = s.draws := rfl

@[simp] theorem latchBlock_storedAlign (f : Bool) (t : BitVec 2) (s : State) : (latchBlock f t s).storedAlign = s.storedAlign := rfl
@[simp] theorem latchBlock_busy (f : Bool) (t : BitVec 2) (s : State) : (latchBlock f t s).busy = s.busy := rfl
@[simp] theorem latchBlock_done (f : Bool) (t : BitVec 2) (s : State) : (latchBlock f t s).done = s.done := rfl
@[simp] theorem latchBlock_error (f : Bool) (t : BitVec 2) (s : State) : (latchBlock f t s).error = s.error := rfl
@[simp] theorem latchBlock_errcode (f : Bool) (t : BitVec 2) (s : State) : (latchBlock f t s).errcode = s.errcode := rfl
@[simp] theorem latchBlock_inLen (f : Bool) (t : BitVec 2) (s : State) : (latchBlock f t s).inLen = s.inLen := rfl
@[simp] theorem latchBlock_outCap (f : Bool) (t : BitVec 2) (s : State) : (latchBlock f t s).outCap = s.outCap := rfl
@[simp] theorem latchBlock_outLen (f : Bool) (t : BitVec 2) (s : State) : (latchBlock f t s).outLen = s.outLen := rfl
@[simp] theorem latchBlock_adlerA (f : Bool) (t : BitVec 2) (s : State) : (latchBlock f t s).adlerA = s.adlerA := rfl
@[simp] theorem latchBlock_adlerB (f : Bool) (t : BitVec 2) (s : State) : (latchBlock f t s).adlerB = s.adlerB := rfl
@[simp] theorem latchBlock_trailer (f : Bool) (t : BitVec 2) (s : State) : (latchBlock f t s).trailer = s.trailer := rfl
@[simp] theorem latchBlock_inPos (f : Bool) (t : BitVec 2) (s : State) : (latchBlock f t s).inPos = s.inPos := rfl
@[simp] theorem latchBlock_fsm (f : Bool) (t : BitVec 2) (s : State) : (latchBlock f t s).fsm = s.fsm := rfl
@[simp] theorem latchBlock_n (f : Bool) (t : BitVec 2) (s : State) : (latchBlock f t s).n = s.n := rfl
@[simp] theorem latchBlock_cap (f : Bool) (t : BitVec 2) (s : State) : (latchBlock f t s).cap = s.cap := rfl
@[simp] theorem latchBlock_align (f : Bool) (t : BitVec 2) (s : State) : (latchBlock f t s).align = s.align := rfl
@[simp] theorem latchBlock_e (f : Bool) (t : BitVec 2) (s : State) : (latchBlock f t s).e = s.e := rfl
@[simp] theorem latchBlock_wp (f : Bool) (t : BitVec 2) (s : State) : (latchBlock f t s).wp = s.wp := rfl
@[simp] theorem latchBlock_clT (f : Bool) (t : BitVec 2) (s : State) : (latchBlock f t s).clT = s.clT := rfl
@[simp] theorem latchBlock_litT (f : Bool) (t : BitVec 2) (s : State) : (latchBlock f t s).litT = s.litT := rfl
@[simp] theorem latchBlock_distT (f : Bool) (t : BitVec 2) (s : State) : (latchBlock f t s).distT = s.distT := rfl
@[simp] theorem latchBlock_clLens (f : Bool) (t : BitVec 2) (s : State) : (latchBlock f t s).clLens = s.clLens := rfl
@[simp] theorem latchBlock_lens (f : Bool) (t : BitVec 2) (s : State) : (latchBlock f t s).lens = s.lens := rfl
@[simp] theorem latchBlock_bfinal (f : Bool) (t : BitVec 2) (s : State) : (latchBlock f t s).bfinal = f := rfl
@[simp] theorem latchBlock_btype (f : Bool) (t : BitVec 2) (s : State) : (latchBlock f t s).btype = t := rfl
@[simp] theorem latchBlock_hlit (f : Bool) (t : BitVec 2) (s : State) : (latchBlock f t s).hlit = s.hlit := rfl
@[simp] theorem latchBlock_hdist (f : Bool) (t : BitVec 2) (s : State) : (latchBlock f t s).hdist = s.hdist := rfl
@[simp] theorem latchBlock_hclen (f : Bool) (t : BitVec 2) (s : State) : (latchBlock f t s).hclen = s.hclen := rfl
@[simp] theorem latchBlock_num (f : Bool) (t : BitVec 2) (s : State) : (latchBlock f t s).num = s.num := rfl
@[simp] theorem latchBlock_len (f : Bool) (t : BitVec 2) (s : State) : (latchBlock f t s).len = s.len := rfl
@[simp] theorem latchBlock_nlen (f : Bool) (t : BitVec 2) (s : State) : (latchBlock f t s).nlen = s.nlen := rfl
@[simp] theorem latchBlock_length (f : Bool) (t : BitVec 2) (s : State) : (latchBlock f t s).length = s.length := rfl
@[simp] theorem latchBlock_distance (f : Bool) (t : BitVec 2) (s : State) : (latchBlock f t s).distance = s.distance := rfl
@[simp] theorem latchBlock_tables (f : Bool) (t : BitVec 2) (s : State) : (latchBlock f t s).tables = s.tables := rfl
@[simp] theorem latchBlock_inMem (f : Bool) (t : BitVec 2) (s : State) : (latchBlock f t s).inMem = s.inMem := rfl
@[simp] theorem latchBlock_outMem (f : Bool) (t : BitVec 2) (s : State) : (latchBlock f t s).outMem = s.outMem := rfl
@[simp] theorem latchBlock_window (f : Bool) (t : BitVec 2) (s : State) : (latchBlock f t s).window = s.window := rfl
@[simp] theorem latchBlock_expect (f : Bool) (t : BitVec 2) (s : State) : (latchBlock f t s).expect = s.expect := rfl
@[simp] theorem latchBlock_storedLeft (f : Bool) (t : BitVec 2) (s : State) : (latchBlock f t s).storedLeft = s.storedLeft := rfl
@[simp] theorem latchBlock_clIndex (f : Bool) (t : BitVec 2) (s : State) : (latchBlock f t s).clIndex = s.clIndex := rfl
@[simp] theorem latchBlock_params (f : Bool) (t : BitVec 2) (s : State) : (latchBlock f t s).params = s.params := rfl
@[simp] theorem latchBlock_hostMoves (f : Bool) (t : BitVec 2) (s : State) : (latchBlock f t s).hostMoves = s.hostMoves := rfl
@[simp] theorem latchBlock_busData (f : Bool) (t : BitVec 2) (s : State) : (latchBlock f t s).busData = s.busData := rfl
@[simp] theorem latchBlock_draws (f : Bool) (t : BitVec 2) (s : State) : (latchBlock f t s).draws = s.draws := rfl

@[simp] theorem clearLens_storedAlign (s : State) : (clearLens s).storedAlign = s.storedAlign := rfl
@[simp] theorem clearLens_busy (s : State) : (clearLens s).busy = s.busy := rfl
@[simp] theorem clearLens_done (s : State) : (clearLens s).done = s.done := rfl
@[simp] theorem clearLens_error (s : State) : (clearLens s).error = s.error := rfl
@[simp] theorem clearLens_errcode (s : State) : (clearLens s).errcode = s.errcode := rfl
@[simp] theorem clearLens_inLen (s : State) : (clearLens s).inLen = s.inLen := rfl
@[simp] theorem clearLens_outCap (s : State) : (clearLens s).outCap = s.outCap := rfl
@[simp] theorem clearLens_outLen (s : State) : (clearLens s).outLen = s.outLen := rfl
@[simp] theorem clearLens_adlerA (s : State) : (clearLens s).adlerA = s.adlerA := rfl
@[simp] theorem clearLens_adlerB (s : State) : (clearLens s).adlerB = s.adlerB := rfl
@[simp] theorem clearLens_trailer (s : State) : (clearLens s).trailer = s.trailer := rfl
@[simp] theorem clearLens_inPos (s : State) : (clearLens s).inPos = s.inPos := rfl
@[simp] theorem clearLens_fsm (s : State) : (clearLens s).fsm = s.fsm := rfl
@[simp] theorem clearLens_n (s : State) : (clearLens s).n = s.n := rfl
@[simp] theorem clearLens_cap (s : State) : (clearLens s).cap = s.cap := rfl
@[simp] theorem clearLens_align (s : State) : (clearLens s).align = s.align := rfl
@[simp] theorem clearLens_e (s : State) : (clearLens s).e = s.e := rfl
@[simp] theorem clearLens_wp (s : State) : (clearLens s).wp = s.wp := rfl
@[simp] theorem clearLens_clT (s : State) : (clearLens s).clT = s.clT := rfl
@[simp] theorem clearLens_litT (s : State) : (clearLens s).litT = s.litT := rfl
@[simp] theorem clearLens_distT (s : State) : (clearLens s).distT = s.distT := rfl
@[simp] theorem clearLens_clLens (s : State) : (clearLens s).clLens = List.replicate 19 0 := rfl
@[simp] theorem clearLens_lens (s : State) : (clearLens s).lens = List.replicate 320 0 := rfl
@[simp] theorem clearLens_bfinal (s : State) : (clearLens s).bfinal = s.bfinal := rfl
@[simp] theorem clearLens_btype (s : State) : (clearLens s).btype = s.btype := rfl
@[simp] theorem clearLens_hlit (s : State) : (clearLens s).hlit = s.hlit := rfl
@[simp] theorem clearLens_hdist (s : State) : (clearLens s).hdist = s.hdist := rfl
@[simp] theorem clearLens_hclen (s : State) : (clearLens s).hclen = s.hclen := rfl
@[simp] theorem clearLens_num (s : State) : (clearLens s).num = s.num := rfl
@[simp] theorem clearLens_len (s : State) : (clearLens s).len = s.len := rfl
@[simp] theorem clearLens_nlen (s : State) : (clearLens s).nlen = s.nlen := rfl
@[simp] theorem clearLens_length (s : State) : (clearLens s).length = s.length := rfl
@[simp] theorem clearLens_distance (s : State) : (clearLens s).distance = s.distance := rfl
@[simp] theorem clearLens_tables (s : State) : (clearLens s).tables = s.tables := rfl
@[simp] theorem clearLens_inMem (s : State) : (clearLens s).inMem = s.inMem := rfl
@[simp] theorem clearLens_outMem (s : State) : (clearLens s).outMem = s.outMem := rfl
@[simp] theorem clearLens_window (s : State) : (clearLens s).window = s.window := rfl
@[simp] theorem clearLens_expect (s : State) : (clearLens s).expect = s.expect := rfl
@[simp] theorem clearLens_storedLeft (s : State) : (clearLens s).storedLeft = s.storedLeft := rfl
@[simp] theorem clearLens_clIndex (s : State) : (clearLens s).clIndex = s.clIndex := rfl
@[simp] theorem clearLens_params (s : State) : (clearLens s).params = s.params := rfl
@[simp] theorem clearLens_hostMoves (s : State) : (clearLens s).hostMoves = s.hostMoves := rfl
@[simp] theorem clearLens_busData (s : State) : (clearLens s).busData = s.busData := rfl
@[simp] theorem clearLens_draws (s : State) : (clearLens s).draws = s.draws := rfl

@[simp] theorem lengthStep_storedAlign (l : Nat) (s : State) : (lengthStep l s).storedAlign = s.storedAlign := rfl
@[simp] theorem lengthStep_busy (l : Nat) (s : State) : (lengthStep l s).busy = s.busy := rfl
@[simp] theorem lengthStep_done (l : Nat) (s : State) : (lengthStep l s).done = s.done := rfl
@[simp] theorem lengthStep_error (l : Nat) (s : State) : (lengthStep l s).error = s.error := rfl
@[simp] theorem lengthStep_errcode (l : Nat) (s : State) : (lengthStep l s).errcode = s.errcode := rfl
@[simp] theorem lengthStep_inLen (l : Nat) (s : State) : (lengthStep l s).inLen = s.inLen := rfl
@[simp] theorem lengthStep_outCap (l : Nat) (s : State) : (lengthStep l s).outCap = s.outCap := rfl
@[simp] theorem lengthStep_outLen (l : Nat) (s : State) : (lengthStep l s).outLen = s.outLen := rfl
@[simp] theorem lengthStep_adlerA (l : Nat) (s : State) : (lengthStep l s).adlerA = s.adlerA := rfl
@[simp] theorem lengthStep_adlerB (l : Nat) (s : State) : (lengthStep l s).adlerB = s.adlerB := rfl
@[simp] theorem lengthStep_trailer (l : Nat) (s : State) : (lengthStep l s).trailer = s.trailer := rfl
@[simp] theorem lengthStep_inPos (l : Nat) (s : State) : (lengthStep l s).inPos = s.inPos := rfl
@[simp] theorem lengthStep_fsm (l : Nat) (s : State) : (lengthStep l s).fsm = s.fsm := rfl
@[simp] theorem lengthStep_n (l : Nat) (s : State) : (lengthStep l s).n = s.n := rfl
@[simp] theorem lengthStep_cap (l : Nat) (s : State) : (lengthStep l s).cap = s.cap := rfl
@[simp] theorem lengthStep_align (l : Nat) (s : State) : (lengthStep l s).align = s.align := rfl
@[simp] theorem lengthStep_e (l : Nat) (s : State) : (lengthStep l s).e = s.e := rfl
@[simp] theorem lengthStep_wp (l : Nat) (s : State) : (lengthStep l s).wp = s.wp := rfl
@[simp] theorem lengthStep_clT (l : Nat) (s : State) : (lengthStep l s).clT = s.clT := rfl
@[simp] theorem lengthStep_litT (l : Nat) (s : State) : (lengthStep l s).litT = s.litT := rfl
@[simp] theorem lengthStep_distT (l : Nat) (s : State) : (lengthStep l s).distT = s.distT := rfl
@[simp] theorem lengthStep_clLens (l : Nat) (s : State) : (lengthStep l s).clLens = s.clLens := rfl
@[simp] theorem lengthStep_lens (l : Nat) (s : State) : (lengthStep l s).lens = s.lens := rfl
@[simp] theorem lengthStep_bfinal (l : Nat) (s : State) : (lengthStep l s).bfinal = s.bfinal := rfl
@[simp] theorem lengthStep_btype (l : Nat) (s : State) : (lengthStep l s).btype = s.btype := rfl
@[simp] theorem lengthStep_hlit (l : Nat) (s : State) : (lengthStep l s).hlit = s.hlit := rfl
@[simp] theorem lengthStep_hdist (l : Nat) (s : State) : (lengthStep l s).hdist = s.hdist := rfl
@[simp] theorem lengthStep_hclen (l : Nat) (s : State) : (lengthStep l s).hclen = s.hclen := rfl
@[simp] theorem lengthStep_num (l : Nat) (s : State) : (lengthStep l s).num = s.num := rfl
@[simp] theorem lengthStep_len (l : Nat) (s : State) : (lengthStep l s).len = s.len := rfl
@[simp] theorem lengthStep_nlen (l : Nat) (s : State) : (lengthStep l s).nlen = s.nlen := rfl
@[simp] theorem lengthStep_length (l : Nat) (s : State) : (lengthStep l s).length = BitVec.ofNat 9 l := rfl
@[simp] theorem lengthStep_distance (l : Nat) (s : State) : (lengthStep l s).distance = s.distance := rfl
@[simp] theorem lengthStep_tables (l : Nat) (s : State) : (lengthStep l s).tables = s.tables := rfl
@[simp] theorem lengthStep_inMem (l : Nat) (s : State) : (lengthStep l s).inMem = s.inMem := rfl
@[simp] theorem lengthStep_outMem (l : Nat) (s : State) : (lengthStep l s).outMem = s.outMem := rfl
@[simp] theorem lengthStep_window (l : Nat) (s : State) : (lengthStep l s).window = s.window := rfl
@[simp] theorem lengthStep_expect (l : Nat) (s : State) : (lengthStep l s).expect = .dist := rfl
@[simp] theorem lengthStep_storedLeft (l : Nat) (s : State) : (lengthStep l s).storedLeft = s.storedLeft := rfl
@[simp] theorem lengthStep_clIndex (l : Nat) (s : State) : (lengthStep l s).clIndex = s.clIndex := rfl
@[simp] theorem lengthStep_params (l : Nat) (s : State) : (lengthStep l s).params = s.params := rfl
@[simp] theorem lengthStep_hostMoves (l : Nat) (s : State) : (lengthStep l s).hostMoves = s.hostMoves := rfl
@[simp] theorem lengthStep_busData (l : Nat) (s : State) : (lengthStep l s).busData = s.busData := rfl
@[simp] theorem lengthStep_draws (l : Nat) (s : State) : (lengthStep l s).draws = s.draws := rfl

@[simp] theorem endOfBody_storedAlign (s : State) : (endOfBody s).storedAlign = s.storedAlign := by unfold endOfBody; split <;> rfl
@[simp] theorem endOfBody_busy (s : State) : (endOfBody s).busy = s.busy := by unfold endOfBody; split <;> rfl
@[simp] theorem endOfBody_done (s : State) : (endOfBody s).done = s.done := by unfold endOfBody; split <;> rfl
@[simp] theorem endOfBody_error (s : State) : (endOfBody s).error = s.error := by unfold endOfBody; split <;> rfl
@[simp] theorem endOfBody_errcode (s : State) : (endOfBody s).errcode = s.errcode := by unfold endOfBody; split <;> rfl
@[simp] theorem endOfBody_inLen (s : State) : (endOfBody s).inLen = s.inLen := by unfold endOfBody; split <;> rfl
@[simp] theorem endOfBody_outCap (s : State) : (endOfBody s).outCap = s.outCap := by unfold endOfBody; split <;> rfl
@[simp] theorem endOfBody_outLen (s : State) : (endOfBody s).outLen = s.outLen := by unfold endOfBody; split <;> rfl
@[simp] theorem endOfBody_adlerA (s : State) : (endOfBody s).adlerA = s.adlerA := by unfold endOfBody; split <;> rfl
@[simp] theorem endOfBody_adlerB (s : State) : (endOfBody s).adlerB = s.adlerB := by unfold endOfBody; split <;> rfl
@[simp] theorem endOfBody_trailer (s : State) : (endOfBody s).trailer = s.trailer := by unfold endOfBody; split <;> rfl
@[simp] theorem endOfBody_inPos (s : State) : (endOfBody s).inPos = s.inPos := by unfold endOfBody; split <;> rfl
@[simp] theorem endOfBody_fsm (s : State) : (endOfBody s).fsm = (if s.bfinal then .trailer else .blockHeader) := by unfold endOfBody; split <;> simp_all
@[simp] theorem endOfBody_n (s : State) : (endOfBody s).n = s.n := by unfold endOfBody; split <;> rfl
@[simp] theorem endOfBody_cap (s : State) : (endOfBody s).cap = s.cap := by unfold endOfBody; split <;> rfl
@[simp] theorem endOfBody_align (s : State) : (endOfBody s).align = s.align := by unfold endOfBody; split <;> rfl
@[simp] theorem endOfBody_e (s : State) : (endOfBody s).e = s.e := by unfold endOfBody; split <;> rfl
@[simp] theorem endOfBody_wp (s : State) : (endOfBody s).wp = s.wp := by unfold endOfBody; split <;> rfl
@[simp] theorem endOfBody_clT (s : State) : (endOfBody s).clT = s.clT := by unfold endOfBody; split <;> rfl
@[simp] theorem endOfBody_litT (s : State) : (endOfBody s).litT = s.litT := by unfold endOfBody; split <;> rfl
@[simp] theorem endOfBody_distT (s : State) : (endOfBody s).distT = s.distT := by unfold endOfBody; split <;> rfl
@[simp] theorem endOfBody_clLens (s : State) : (endOfBody s).clLens = s.clLens := by unfold endOfBody; split <;> rfl
@[simp] theorem endOfBody_lens (s : State) : (endOfBody s).lens = s.lens := by unfold endOfBody; split <;> rfl
@[simp] theorem endOfBody_bfinal (s : State) : (endOfBody s).bfinal = s.bfinal := by unfold endOfBody; split <;> rfl
@[simp] theorem endOfBody_btype (s : State) : (endOfBody s).btype = s.btype := by unfold endOfBody; split <;> rfl
@[simp] theorem endOfBody_hlit (s : State) : (endOfBody s).hlit = s.hlit := by unfold endOfBody; split <;> rfl
@[simp] theorem endOfBody_hdist (s : State) : (endOfBody s).hdist = s.hdist := by unfold endOfBody; split <;> rfl
@[simp] theorem endOfBody_hclen (s : State) : (endOfBody s).hclen = s.hclen := by unfold endOfBody; split <;> rfl
@[simp] theorem endOfBody_num (s : State) : (endOfBody s).num = s.num := by unfold endOfBody; split <;> rfl
@[simp] theorem endOfBody_len (s : State) : (endOfBody s).len = s.len := by unfold endOfBody; split <;> rfl
@[simp] theorem endOfBody_nlen (s : State) : (endOfBody s).nlen = s.nlen := by unfold endOfBody; split <;> rfl
@[simp] theorem endOfBody_length (s : State) : (endOfBody s).length = s.length := by unfold endOfBody; split <;> rfl
@[simp] theorem endOfBody_distance (s : State) : (endOfBody s).distance = s.distance := by unfold endOfBody; split <;> rfl
@[simp] theorem endOfBody_tables (s : State) : (endOfBody s).tables = s.tables := by unfold endOfBody; split <;> rfl
@[simp] theorem endOfBody_inMem (s : State) : (endOfBody s).inMem = s.inMem := by unfold endOfBody; split <;> rfl
@[simp] theorem endOfBody_outMem (s : State) : (endOfBody s).outMem = s.outMem := by unfold endOfBody; split <;> rfl
@[simp] theorem endOfBody_window (s : State) : (endOfBody s).window = s.window := by unfold endOfBody; split <;> rfl
@[simp] theorem endOfBody_expect (s : State) : (endOfBody s).expect = (if s.bfinal then .trailer else .blkHdr) := by unfold endOfBody; split <;> simp_all
@[simp] theorem endOfBody_storedLeft (s : State) : (endOfBody s).storedLeft = s.storedLeft := by unfold endOfBody; split <;> rfl
@[simp] theorem endOfBody_clIndex (s : State) : (endOfBody s).clIndex = s.clIndex := by unfold endOfBody; split <;> rfl
@[simp] theorem endOfBody_params (s : State) : (endOfBody s).params = s.params := by unfold endOfBody; split <;> rfl
@[simp] theorem endOfBody_hostMoves (s : State) : (endOfBody s).hostMoves = s.hostMoves := by unfold endOfBody; split <;> rfl
@[simp] theorem endOfBody_busData (s : State) : (endOfBody s).busData = s.busData := by unfold endOfBody; split <;> rfl
@[simp] theorem endOfBody_draws (s : State) : (endOfBody s).draws = s.draws := by unfold endOfBody; split <;> rfl

end Sys2Proof.Machine
end

