-- ==== Sys2Proof/Laws/Emit.lean ====
section
/-! SUPPORT. What `emit` and `copy` do (43_lz77_window_emitter.md R212, R277), said once: the bytes they append, and that they
change nothing else. -/

namespace Sys2Proof.Machine

theorem adlerNextA_toNat (a : Half) (v : Byte) : (adlerNextA a v).toNat = (a.toNat + v.toNat) % 65521 := by
  simp only [adlerNextA, Config.adlerMod, BitVec.toNat_ofNat]; omega

theorem adlerNextB_toNat (b a : Half) : (adlerNextB b a).toNat = (b.toNat + a.toNat) % 65521 := by
  simp only [adlerNextB, Config.adlerMod, BitVec.toNat_ofNat]; omega

theorem adlerSums_append (a b : Nat) (xs ys : List Byte) :
    adlerSums a b (xs ++ ys) = adlerSums (adlerSums a b xs).1 (adlerSums a b xs).2 ys := by
  induction xs generalizing a b with
  | nil => rfl
  | cons v xs ih => simp [adlerSums, ih]

theorem State.appended_nil (s : State) : s.appended s [] :=
  ⟨by simp, by have := s.wp.isLt; simp; omega, by simp, by simp, by simp, by simp, rfl⟩

/-- Output followed by output. -/
theorem State.appended_trans {s t u : State} {xs ys : List Byte} (h1 : s.appended t xs) (h2 : t.appended u ys)
    (hl : xs.length + ys.length ≤ 32768) : s.appended u (xs ++ ys) := by
  obtain ⟨a1, a2, a3, a4, a5, a6, a7⟩ := h1
  obtain ⟨b1, b2, b3, b4, b5, b6, b7⟩ := h2
  refine ⟨by simp; omega, by simp only [List.length_append]; omega, ?_, ?_, ?_, ?_, ?_⟩
  · intro k hk
    by_cases hx : k < xs.length
    · rw [b4 _ (by omega), a3 k hx]; simp [List.getD, List.getElem?_append_left hx, hx]
    · have := b3 (k - xs.length) (by simp at hk; omega)
      rw [show s.outLen.toNat + k = t.outLen.toNat + (k - xs.length) by omega, this]
      simp [List.getD, List.getElem?_append_right (Nat.le_of_not_lt hx)]
  · intro a ha
    simp only [List.length_append] at ha
    rw [b4 a (by omega), a4 a (by omega)]
  · intro k hk
    simp only [List.length_append] at hk
    by_cases hx : k < xs.length
    · rw [b6, a5 k hx]
      · simp [List.getD, List.getElem?_append_left hx, hx]
      · intro j hj; rw [a2]; omega
    · have := b5 (k - xs.length) (by omega)
      rw [show (s.wp.toNat + k) % 32768 = (t.wp.toNat + (k - xs.length)) % 32768 by omega, this]
      simp [List.getD, List.getElem?_append_right (Nat.le_of_not_lt hx)]
  · intro a ha
    simp only [List.length_append] at ha
    rw [b6 a, a6 a (fun k hk => ha k (by omega))]
    intro k hk
    have := ha (xs.length + k) (by omega)
    omega
  · rw [b7, adlerSums_append, ← a7]

theorem State.sameButOutput_refl (s : State) : State.sameButOutput s s := rfl

theorem State.sameButOutput_trans {s t u : State} (h1 : State.sameButOutput s t) (h2 : State.sameButOutput t u) :
    State.sameButOutput s u := by
  unfold State.sameButOutput at *
  rw [h2, h1]

/-! The fields that output leaves alone. -/

theorem sameButOutput_storedAlign {s t : State} (h : State.sameButOutput s t) : t.storedAlign = s.storedAlign := by rw [h]
theorem sameButOutput_busy {s t : State} (h : State.sameButOutput s t) : t.busy = s.busy := by rw [h]
theorem sameButOutput_done {s t : State} (h : State.sameButOutput s t) : t.done = s.done := by rw [h]
theorem sameButOutput_error {s t : State} (h : State.sameButOutput s t) : t.error = s.error := by rw [h]
theorem sameButOutput_errcode {s t : State} (h : State.sameButOutput s t) : t.errcode = s.errcode := by rw [h]
theorem sameButOutput_inLen {s t : State} (h : State.sameButOutput s t) : t.inLen = s.inLen := by rw [h]
theorem sameButOutput_outCap {s t : State} (h : State.sameButOutput s t) : t.outCap = s.outCap := by rw [h]
theorem sameButOutput_trailer {s t : State} (h : State.sameButOutput s t) : t.trailer = s.trailer := by rw [h]
theorem sameButOutput_inPos {s t : State} (h : State.sameButOutput s t) : t.inPos = s.inPos := by rw [h]
theorem sameButOutput_fsm {s t : State} (h : State.sameButOutput s t) : t.fsm = s.fsm := by rw [h]
theorem sameButOutput_n {s t : State} (h : State.sameButOutput s t) : t.n = s.n := by rw [h]
theorem sameButOutput_cap {s t : State} (h : State.sameButOutput s t) : t.cap = s.cap := by rw [h]
theorem sameButOutput_align {s t : State} (h : State.sameButOutput s t) : t.align = s.align := by rw [h]
theorem sameButOutput_e {s t : State} (h : State.sameButOutput s t) : t.e = s.e := by rw [h]
theorem sameButOutput_clT {s t : State} (h : State.sameButOutput s t) : t.clT = s.clT := by rw [h]
theorem sameButOutput_litT {s t : State} (h : State.sameButOutput s t) : t.litT = s.litT := by rw [h]
theorem sameButOutput_distT {s t : State} (h : State.sameButOutput s t) : t.distT = s.distT := by rw [h]
theorem sameButOutput_clLens {s t : State} (h : State.sameButOutput s t) : t.clLens = s.clLens := by rw [h]
theorem sameButOutput_lens {s t : State} (h : State.sameButOutput s t) : t.lens = s.lens := by rw [h]
theorem sameButOutput_bfinal {s t : State} (h : State.sameButOutput s t) : t.bfinal = s.bfinal := by rw [h]
theorem sameButOutput_btype {s t : State} (h : State.sameButOutput s t) : t.btype = s.btype := by rw [h]
theorem sameButOutput_hlit {s t : State} (h : State.sameButOutput s t) : t.hlit = s.hlit := by rw [h]
theorem sameButOutput_hdist {s t : State} (h : State.sameButOutput s t) : t.hdist = s.hdist := by rw [h]
theorem sameButOutput_hclen {s t : State} (h : State.sameButOutput s t) : t.hclen = s.hclen := by rw [h]
theorem sameButOutput_num {s t : State} (h : State.sameButOutput s t) : t.num = s.num := by rw [h]
theorem sameButOutput_len {s t : State} (h : State.sameButOutput s t) : t.len = s.len := by rw [h]
theorem sameButOutput_nlen {s t : State} (h : State.sameButOutput s t) : t.nlen = s.nlen := by rw [h]
theorem sameButOutput_length {s t : State} (h : State.sameButOutput s t) : t.length = s.length := by rw [h]
theorem sameButOutput_distance {s t : State} (h : State.sameButOutput s t) : t.distance = s.distance := by rw [h]
theorem sameButOutput_tables {s t : State} (h : State.sameButOutput s t) : t.tables = s.tables := by rw [h]
theorem sameButOutput_inMem {s t : State} (h : State.sameButOutput s t) : t.inMem = s.inMem := by rw [h]
theorem sameButOutput_expect {s t : State} (h : State.sameButOutput s t) : t.expect = s.expect := by rw [h]
theorem sameButOutput_storedLeft {s t : State} (h : State.sameButOutput s t) : t.storedLeft = s.storedLeft := by rw [h]
theorem sameButOutput_clIndex {s t : State} (h : State.sameButOutput s t) : t.clIndex = s.clIndex := by rw [h]
theorem sameButOutput_params {s t : State} (h : State.sameButOutput s t) : t.params = s.params := by rw [h]
theorem sameButOutput_hostMoves {s t : State} (h : State.sameButOutput s t) : t.hostMoves = s.hostMoves := by rw [h]
theorem sameButOutput_busData {s t : State} (h : State.sameButOutput s t) : t.busData = s.busData := by rw [h]
theorem sameButOutput_draws {s t : State} (h : State.sameButOutput s t) : t.draws = s.draws := by rw [h]

/-- With no room `emit` raises OutputOverflow and writes nothing. -/
theorem emit_full {v : Byte} {s : State} (h : s.cap.toNat ≤ s.outLen.toNat) : emit v s = .raised .outputOverflow s := by
  have : s.cap ≤ s.outLen := h
  simp [emit, this]

/-- With room `emit` appends its byte. -/
theorem emit_room {v : Byte} {s : State} (ho : s.outMem.wf = true) (hw : s.window.wf = true)
    (h : s.outLen.toNat < s.cap.toNat) :
    ∃ t, emit v s = .go t ∧ s.appended t [v] ∧ State.sameButOutput s t ∧ t.outMem.wf = true ∧ t.window.wf = true
      ∧ t.window = s.window.write s.wp.toNat v ∧ t.outMem = s.outMem.write s.outLen.toNat v := by
  have hn : ¬ s.cap ≤ s.outLen := by rw [BitVec.le_def]; omega
  have hc := s.cap.isLt
  have h32 : s.outLen.toNat + 1 < 2 ^ 32 := by omega
  have hwp := s.wp.isLt
  simp only [emit, hn, if_false]
  refine ⟨_, rfl, ⟨?_, ?_, ?_, ?_, ?_, ?_, ?_⟩, rfl, Memory.write_wf _ _ ho, Memory.write_wf _ _ hw, rfl, rfl⟩
  · simp [BitVec.toNat_add]; omega
  · simp [BitVec.toNat_add]
  · intro k hk
    have : k = 0 := by simpa using hk
    subst this
    simp [Memory.read_write ho]
  · intro a ha
    simp only [List.length_singleton] at ha
    simp only [adlerUpdate_outMem]
    rw [Memory.read_write ho, if_neg (by omega)]
  · intro k hk
    have : k = 0 := by simpa using hk
    subst this
    simp only [adlerUpdate_window, Nat.add_zero]
    rw [Memory.read_write hw, if_pos (by omega)]; rfl
  · intro a ha
    have := ha 0 (by simp)
    simp only [adlerUpdate_window]
    rw [Memory.read_write hw, if_neg (by omega)]
  · simp [adlerSums, adlerUpdate, adlerNextA_toNat, adlerNextB_toNat]

/-- The bytes `copy` appends: the last `d` of the window, with period `d`. -/
def replayBytes (s : State) (d n : Nat) : List Byte :=
  (List.range n).map fun k => s.window.read ((s.wp.toNat + 32768 - d + k % d) % 32768)

theorem replayBytes_length (s : State) (d n : Nat) : (replayBytes s d n).length = n := by simp [replayBytes]

theorem replayBytes_take (s : State) (d n m : Nat) (h : m ≤ n) : (replayBytes s d n).take m = replayBytes s d m := by
  simp [replayBytes, ← List.map_take, List.take_range, h]

/-- After the first byte of a replay the rest is the replay from there. -/
theorem replayBytes_succ {s t : State} {d n : Nat} (hd : 1 ≤ d) (hd2 : d ≤ 32768) (hw : s.window.wf = true)
    (ht : t.window = s.window.write s.wp.toNat (s.window.read ((s.wp.toNat + 32768 - d) % 32768)))
    (hp : t.wp.toNat = (s.wp.toNat + 1) % 32768) :
    replayBytes s d (n + 1) = s.window.read ((s.wp.toNat + 32768 - d) % 32768) :: replayBytes t d n := by
  have hwp := s.wp.isLt
  simp only [replayBytes, List.range_succ_eq_map, List.map_cons, List.map_map, Nat.zero_mod, Nat.add_zero]
  congr 1
  apply List.map_congr_left
  · intro k _
    simp only [Function.comp_apply, ht, hp, Memory.read_write hw]
    have hm : k % d < d := Nat.mod_lt _ (by omega)
    by_cases he : k % d = d - 1
    · have h1 : (k + 1) % d = 0 := by
        rw [Nat.add_mod, he]
        rcases Nat.lt_or_ge 1 d with h | h
        · rw [Nat.mod_eq_of_lt h, Nat.sub_add_cancel hd, Nat.mod_self]
        · have : d = 1 := by omega
          subst this; simp
      rw [if_pos (by omega)]
      simp [h1]
    · have h1 : (k + 1) % d = k % d + 1 := by
        rw [Nat.add_mod, Nat.mod_eq_of_lt (a := 1) (by omega), Nat.mod_eq_of_lt (by omega)]
      rw [if_neg (by omega)]
      simp only [Nat.succ_eq_add_one, h1]
      congr 1
      omega

/-- `copy` with room for all its bytes. -/
theorem copy_room {n : Nat} {s : State} {d : Nat} (hd : s.distance.toNat = d) (h1 : 1 ≤ d) (h2 : d ≤ 32768)
    (ho : s.outMem.wf = true) (hw : s.window.wf = true) (h : s.outLen.toNat + n ≤ s.cap.toNat) (hn : n ≤ 32768) :
    ∃ t, copy n s = .go t ∧ s.appended t (replayBytes s d n) ∧ State.sameButOutput s t ∧ t.outMem.wf = true
      ∧ t.window.wf = true := by
  induction n generalizing s with
  | zero => exact ⟨s, rfl, s.appended_nil, rfl, ho, hw⟩
  | succ n ih =>
    obtain ⟨t, e1, e2, e3, e4, e5, e6, e7⟩ :=
      emit_room (v := s.window.read s.copySource) ho hw (by omega)
    have hsrc : s.copySource = (s.wp.toNat + 32768 - d) % 32768 := by
      simp only [State.copySource, Config.wsize, hd]; omega
    have hcap : t.cap = s.cap := by rw [e3]
    have hdist : t.distance = s.distance := by rw [e3]
    have hlen := e2.1
    have hwp := e2.2.1
    simp only [List.length_singleton] at hlen hwp
    obtain ⟨u, f1, f2, f3, f4, f5⟩ := ih (s := t) (by rw [hdist, hd]) e4 e5 (by rw [hcap]; omega) (by omega)
    refine ⟨u, by simp [copy, e1, f1], ?_, State.sameButOutput_trans e3 f3, f4, f5⟩
    rw [replayBytes_succ h1 h2 hw (by rw [e6, hsrc]) hwp, ← hsrc]
    exact State.appended_trans e2 f2 (by simp only [List.length_singleton, List.length_map, List.length_range]; omega)

/-- `copy` of a sum is one `copy` after the other. -/
theorem copy_add (m n : Nat) (s : State) :
    copy (m + n) s = match copy m s with
      | .go t => copy n t
      | .raised x t => .raised x t := by
  induction m generalizing s with
  | zero => simp [copy]
  | succ m ih =>
    rw [Nat.succ_add, copy, copy]
    cases emit (s.window.read s.copySource) s with
    | go t => simp [ih]
    | raised x t => rfl

/-- `copy` without room for all its bytes: it stops at the capacity with the bytes before it emitted. -/
theorem copy_full {n : Nat} {s : State} {d : Nat} (hd : s.distance.toNat = d) (h1 : 1 ≤ d) (h2 : d ≤ 32768)
    (ho : s.outMem.wf = true) (hw : s.window.wf = true) (hle : s.outLen.toNat ≤ s.cap.toNat)
    (h : s.cap.toNat < s.outLen.toNat + n) (hn : n ≤ 32768) :
    ∃ t, copy n s = .raised .outputOverflow t ∧ s.appended t (replayBytes s d (s.cap.toNat - s.outLen.toNat))
      ∧ State.sameButOutput s t ∧ t.outMem.wf = true ∧ t.window.wf = true ∧ t.outLen = s.cap := by
  obtain ⟨t, e1, e2, e3, e4, e5⟩ := copy_room (n := s.cap.toNat - s.outLen.toNat) hd h1 h2 ho hw (by omega) (by omega)
  have hlen := e2.1
  rw [replayBytes_length] at hlen
  have hcap : t.cap = s.cap := by rw [e3]
  refine ⟨t, ?_, e2, e3, e4, e5, BitVec.eq_of_toNat_eq (by omega)⟩
  rw [show n = (s.cap.toNat - s.outLen.toNat) + (n - (s.cap.toNat - s.outLen.toNat) - 1 + 1) by omega, copy_add, e1]
  simp [copy, emit_full (s := t) (by rw [hcap]; omega)]

end Sys2Proof.Machine
end

