-- ==== Sys2Proof/Laws/Distance.lean ====
section
/-! SUPPORT. What a distance code does (43_lz77_window_emitter.md R245 to R277), said once for all thirty. -/

namespace Sys2Proof.Machine

/-- A distance beyond the output raises DistanceTooFar, with nothing copied. -/
theorem distanceStep_far {d : Nat} {s : State} (hd : d < 2 ^ 16) (h : s.outLen.toNat < d) :
    (distanceStep d s).outcome = .next (raise .distanceTooFar { s with distance := BitVec.ofNat 16 d }) := by
  have hm : d % 65536 = d := by omega
  simp only [distanceStep]
  rw [if_pos]
  · rfl
  · left; simp only [BitVec.toNat_ofNat]; omega

/-- A legal distance with room for the match appends the replayed bytes. -/
theorem distanceStep_room {d : Nat} {s : State} (h1 : 1 ≤ d) (h2 : d ≤ 32768) (ho : s.outMem.wf = true)
    (hw : s.window.wf = true) (h : d ≤ s.outLen.toNat) (hc : s.outLen.toNat + s.length.toNat ≤ s.cap.toNat) :
    ∃ t, (distanceStep d s).outcome = .next t ∧ s.appended t (s.replay d)
      ∧ State.sameButOutput { s with distance := BitVec.ofNat 16 d, expect := .litLen } t := by
  have hl := s.length.isLt
  have hdd : (BitVec.ofNat 16 d).toNat = d := by simp only [BitVec.toNat_ofNat]; omega
  obtain ⟨t, e1, e2, e3, e4, e5⟩ :=
    copy_room (n := s.length.toNat) (s := { s with distance := BitVec.ofNat 16 d }) hdd h1 h2 ho hw hc (by omega)
  refine ⟨{ t with expect := .litLen }, ?_, e2, ?_⟩
  · simp only [distanceStep]
    rw [if_neg (by simp only [hdd, Config.wsize]; omega), e1]
    rfl
  · unfold State.sameButOutput at e3 ⊢
    rw [e3]

/-- A legal distance without room raises OutputOverflow at the capacity, the bytes before it emitted. -/
theorem distanceStep_full {d : Nat} {s : State} (h1 : 1 ≤ d) (h2 : d ≤ 32768) (ho : s.outMem.wf = true)
    (hw : s.window.wf = true) (h : d ≤ s.outLen.toNat) (hle : s.outLen.toNat ≤ s.cap.toNat)
    (hc : s.cap.toNat < s.outLen.toNat + s.length.toNat) :
    ∃ t, (distanceStep d s).outcome = .next t ∧ t.outLen = s.cap
      ∧ s.appended t ((s.replay d).take (s.cap.toNat - s.outLen.toNat))
      ∧ State.sameButOutput (raise .outputOverflow { s with distance := BitVec.ofNat 16 d }) t := by
  have hl := s.length.isLt
  have hdd : (BitVec.ofNat 16 d).toNat = d := by simp only [BitVec.toNat_ofNat]; omega
  obtain ⟨t, e1, e2, e3, e4, e5, e6⟩ :=
    copy_full (n := s.length.toNat) (s := { s with distance := BitVec.ofNat 16 d }) hdd h1 h2 ho hw hle hc (by omega)
  refine ⟨raise .outputOverflow t, ?_, e6, ?_, ?_⟩
  · simp only [distanceStep]
    rw [if_neg (by simp only [hdd, Config.wsize]; omega), e1]
    rfl
  · have : (s.replay d).take (s.cap.toNat - s.outLen.toNat)
        = replayBytes { s with distance := BitVec.ofNat 16 d } d (s.cap.toNat - s.outLen.toNat) :=
      replayBytes_take s d _ _ (by omega)
    rw [this]
    exact e2
  · unfold State.sameButOutput at e3 ⊢
    rw [e3]; rfl

/-- Every distance code is a distance step at its distance, which lies in 1 to 32768. -/
theorem matchDistance_bounds {i : Instr} {d : Nat} (h : matchDistance i = some d) :
    1 ≤ d ∧ d ≤ 32768 ∧ ∀ s, exec i s = (distanceStep d s).outcome := by
  cases i <;> simp only [matchDistance, Option.some.injEq, reduceCtorEq] at h
  all_goals subst h; exact ⟨by omega, by omega, fun _ => rfl⟩

end Sys2Proof.Machine
end

