-- ==== Sys2Proof/Laws/Dynamic.lean ====
section
/-! SUPPORT. The code-length loop of a dynamic header (42_block_dispatch.md R184 to R192): what a write of code lengths
leaves, and the sizes of the tables built from them. -/

namespace Sys2Proof.Machine

/-- A write of code lengths that fits writes exactly its entries. -/
theorem writeLens_spec {rep : Nat} {v : BitVec 4} {s : State} (h : s.num.toNat + rep ≤ s.lens.length) (h2 : s.lens.length ≤ 320) :
    (writeLens rep v s).lens.length = s.lens.length
    ∧ (∀ j, j < s.lens.length → (writeLens rep v s).lens.getD j 0 = if s.num.toNat ≤ j ∧ j < s.num.toNat + rep then v else s.lens.getD j 0)
    ∧ (writeLens rep v s).num.toNat = s.num.toNat + rep := by
  refine ⟨?_, fun j hj => ?_, ?_⟩
  · simp [writeLens]; omega
  · simp only [writeLens, List.getD]
    have hm : min rep (s.lens.length - s.num.toNat) = rep := by omega
    rw [hm]
    have ht : (List.take s.num.toNat s.lens).length = s.num.toNat := by simp; omega
    by_cases h1 : j < s.num.toNat
    · rw [if_neg (by omega), List.append_assoc, List.getElem?_append_left (by omega), List.getElem?_take, if_pos h1]
    · by_cases h3 : j < s.num.toNat + rep
      · rw [if_pos (by omega), List.append_assoc, List.getElem?_append_right (by omega), List.getElem?_append_left (by simp; omega), ht, List.getElem?_replicate, if_pos (by omega)]; rfl
      · rw [if_neg (by omega), List.getElem?_append_right (by simp; omega), List.getElem?_drop]
        congr 2
        simp; omega
  · simp [writeLens]; omega

/-- A write of code lengths within HLIT + HDIST, then the loop test. -/
theorem nextClSym_writeLens {rep : Nat} {v : BitVec 4} {s : State} (hc : s.countsLegal) (h320 : s.lens.length = 320)
    (h : s.num.toNat + rep ≤ s.hlit.toNat + s.hdist.toNat) : s.lengthsWritten (nextClSym (writeLens rep v s)) rep v := by
  obtain ⟨a1, a2, a3, a4, a5, a6⟩ := hc
  obtain ⟨b1, b2, b3⟩ := writeLens_spec (v := v) (s := s) (rep := rep) (by omega) (by omega)
  have hlt : (writeLens rep v s).lensTotal = s.hlit.toNat + s.hdist.toNat := rfl
  by_cases hl : s.num.toNat + rep < s.hlit.toNat + s.hdist.toNat
  · have : nextClSym (writeLens rep v s) = { writeLens rep v s with expect := .clSym } := by
      unfold nextClSym; rw [if_pos (by rw [hlt, b3]; exact hl)]
    rw [this]
    exact ⟨b1, b2, b3, fun _ => rfl, fun h2 => by omega⟩
  · have : nextClSym (writeLens rep v s) = buildDynamic (writeLens rep v s) := by
      unfold nextClSym; rw [if_neg (by rw [hlt, b3]; exact hl)]
    rw [this]
    exact ⟨b1, b2, b3, fun h2 => by omega, fun _ => rfl⟩

/-- Every symbol entry after a placement is an old one or a symbol of the alphabet. -/
theorem placeSymbols_mem {lengths : List Nat} {s : Nat} {offset : List Nat} {symbols : List Half} {x : Half}
    (h : x ∈ placeSymbols lengths s offset symbols) :
    x ∈ symbols ∨ ∃ k, s ≤ k ∧ k < s + lengths.length ∧ x = BitVec.ofNat 16 k := by
  induction lengths generalizing s offset symbols with
  | nil => exact .inl h
  | cons l lengths ih =>
    simp only [placeSymbols] at h
    split at h
    · rcases ih h with h | ⟨k, h1, h2, h3⟩
      · exact .inl h
      · exact .inr ⟨k, by omega, by simp only [List.length_cons]; omega, h3⟩
    · rcases ih h with h | ⟨k, h1, h2, h3⟩
      · rcases List.mem_or_eq_of_mem_set h with h | h
        · exact .inl h
        · exact .inr ⟨s, le_refl _, by simp, h⟩
      · exact .inr ⟨k, by omega, by simp only [List.length_cons]; omega, h3⟩

/-- A build keeps the sizes of a table RAM. -/
theorem buildTable_sized {old : HuffTable} {lengths : List Nat} {cap bound : Nat} (ho : old.sized cap bound)
    (h : ∀ l ∈ lengths, l ≤ 15) (hn : lengths.length ≤ bound) : (buildTable old lengths).sized cap bound := by
  refine ⟨by simp [buildTable, lengthCounts_length h], by rw [buildTable_symbols_length]; exact ho.2.1, fun x hx => ?_⟩
  rcases placeSymbols_mem hx with hx | ⟨k, -, hk, rfl⟩
  · exact ho.2.2 x hx
  · simp only [BitVec.toNat_ofNat]
    exact Nat.lt_of_le_of_lt (Nat.mod_le _ _) (by omega)

/-- A 4-bit code length is at most 15. -/
theorem lens_le {l : List (BitVec 4)} : ∀ x ∈ l.map BitVec.toNat, x ≤ 15 := by
  intro x hx
  obtain ⟨v, -, rfl⟩ := List.mem_map.mp hx
  have := v.isLt
  omega

/-- A 3-bit code-length code length is at most 15. -/
theorem clLens_le {l : List (BitVec 3)} : ∀ x ∈ l.map BitVec.toNat, x ≤ 15 := by
  intro x hx
  obtain ⟨v, -, rfl⟩ := List.mem_map.mp hx
  have := v.isLt
  omega

end Sys2Proof.Machine
end

