-- ==== Sys2Proof/Laws/Output.lean ====
section
/-! SUPPORT. What the output instructions (STORED_BYTE, LIT and the distance codes) do, said once: the piece of output they
append, how they end, and what appended output keeps. -/

namespace Sys2Proof.Machine

/-- A canonical memory lists only addresses below `size` exactly when every byte from `size` on reads as unwritten. -/
theorem Memory.below_iff {m : Memory} {lo size : Nat} (h : Memory.wfFrom lo m = true) :
    m.below size = true ↔ ∀ a, size ≤ a → m.read a = Config.unwrittenByte := by
  induction m generalizing lo with
  | nil => simp [Memory.below, Memory.read]
  | cons c m ih =>
    obtain ⟨a, v⟩ := c
    simp only [Memory.wfFrom, Bool.and_eq_true, decide_eq_true_eq, bne_iff_ne, ne_eq] at h
    obtain ⟨⟨h1, h2⟩, h3⟩ := h
    have hb : Memory.below ((a, v) :: m) size = true ↔ a < size ∧ Memory.below m size = true := by
      simp only [Memory.below, List.all_cons, Bool.and_eq_true, decide_eq_true_eq]
    rw [hb, ih h3]
    constructor
    · rintro ⟨g1, g2⟩ b hb
      simp only [Memory.read]
      rw [if_neg (by omega), g2 b hb]
    · intro g
      refine ⟨?_, fun b hb => ?_⟩
      · by_contra hn
        have := g a (by omega)
        simp only [Memory.read, if_true] at this
        exact h2 this
      · by_cases hab : b ≤ a
        · exact Memory.read_below h3 (by omega)
        · have := g b hb
          simp only [Memory.read] at this
          rwa [if_neg (by omega)] at this

/-- How an output instruction ends: an error, the next literal/length symbol, the next byte of a stored block, or the end
of the block's body. -/
def OutputEnd (i : Instr) (s t : State) : Prop :=
  (∃ (x : JobError) (d : Half), State.sameButOutput (raise x { s with distance := d }) t
      ∧ ((matchDistance i).isSome = true ∨ d = s.distance) ∧ x ≠ .inputExhausted)
  ∨ (∃ d : Half, State.sameButOutput { s with distance := d, expect := .litLen } t
      ∧ ((matchDistance i).isSome = true ∨ (∃ v, i = .lit v) ∧ d = s.distance))
  ∨ ((∃ v, i = .storedByte v) ∧ 2 ≤ s.storedLeft ∧ State.sameButOutput { s with storedLeft := s.storedLeft - 1 } t)
  ∨ ((∃ v, i = .storedByte v) ∧ State.sameButOutput (endOfBody { s with storedLeft := 0 }) t)

theorem State.sameButOutput.of_eq {s t : State} (h : s = t) : State.sameButOutput s t := by subst h; rfl

/-- `emit` changes only what it writes, and a raise nothing. -/
theorem emit_frame (v : Byte) (s : State) :
    (∃ t, emit v s = .go t ∧ State.sameButOutput s t) ∨ emit v s = .raised .outputOverflow s := by
  simp only [emit]
  split
  · exact .inr rfl
  · exact .inl ⟨_, rfl, rfl⟩

/-- `copy` changes only what `emit` writes. -/
theorem copy_frame (n : Nat) (s : State) :
    ∃ t, State.sameButOutput s t ∧ (copy n s = .go t ∨ copy n s = .raised .outputOverflow t) := by
  induction n generalizing s with
  | zero => exact ⟨s, rfl, .inl rfl⟩
  | succ n ih =>
    rcases emit_frame (s.window.read s.copySource) s with ⟨t, e1, e2⟩ | e1
    · obtain ⟨u, f1, f2⟩ := ih t
      exact ⟨u, State.sameButOutput_trans e2 f1, by simpa only [copy, e1] using f2⟩
    · exact ⟨s, rfl, .inr (by simp only [copy, e1])⟩

/-- Every output instruction ends in one of the four ways. -/
theorem exec_outputEnd {i : Instr} {s t : State} (he : emitsOutput i = true) (h : exec i s = .next t) :
    OutputEnd i s t := by
  by_cases hm : (matchDistance i).isSome = true
  · obtain ⟨d, hd⟩ := Option.isSome_iff_exists.mp hm
    rw [(matchDistance_bounds hd).2.2] at h
    simp only [distanceStep] at h
    split at h
    · cases h; exact .inl ⟨.distanceTooFar, BitVec.ofNat 16 d, rfl, .inl hm, by decide⟩
    · obtain ⟨u, e1, e2 | e2⟩ := copy_frame s.length.toNat { s with distance := BitVec.ofNat 16 d } <;>
        rw [e2] at h <;> cases h
      · refine .inr (.inl ⟨BitVec.ofNat 16 d, ?_, .inl hm⟩)
        show State.sameButOutput _ { u with expect := .litLen }
        unfold State.sameButOutput at e1 ⊢
        rw [e1]
      · refine .inl ⟨.outputOverflow, BitVec.ofNat 16 d, ?_, .inl hm, by decide⟩
        show State.sameButOutput (raise .outputOverflow _) (raise .outputOverflow u)
        unfold State.sameButOutput at e1 ⊢
        rw [e1]; rfl
  · cases i <;> try (exact absurd he (by simpa [emitsOutput] using hm))
    case storedByte v =>
      simp only [exec, execStoredByte] at h
      rcases emit_frame v s with ⟨u, e1, hu⟩ | e1 <;> rw [e1] at h
      · have hl : u.storedLeft = s.storedLeft := by rw [hu]
        have hb : u.bfinal = s.bfinal := by rw [hu]
        simp only at h
        split at h <;> cases h
        · refine .inr (.inr (.inr ⟨⟨v, rfl⟩, ?_⟩))
          show State.sameButOutput _ (endOfBody { u with storedLeft := 0 })
          simp only [endOfBody, hb]
          unfold State.sameButOutput at hu ⊢
          split <;> rw [hu]
        · refine .inr (.inr (.inl ⟨⟨v, rfl⟩, by omega, ?_⟩))
          show State.sameButOutput _ { u with storedLeft := u.storedLeft - 1 }
          unfold State.sameButOutput at hu ⊢
          rw [hu]
      · cases h
        exact .inl ⟨.outputOverflow, s.distance, rfl, .inr rfl, by decide⟩
    case lit v =>
      simp only [exec, execLit] at h
      rcases emit_frame v s with ⟨u, e1, hu⟩ | e1 <;> rw [e1] at h <;> cases h
      · refine .inr (.inl ⟨s.distance, ?_, .inr ⟨⟨v, rfl⟩, rfl⟩⟩)
        show State.sameButOutput _ { u with expect := .litLen }
        unfold State.sameButOutput at hu ⊢
        rw [hu]
      · exact .inl ⟨.outputOverflow, s.distance, rfl, .inr rfl, by decide⟩

/-- What every output instruction does: it appends some bytes, as many as fit. -/
theorem exec_emits {i : Instr} {s t : State} (he : emitsOutput i = true) (ho : s.outMem.wf = true)
    (hw : s.window.wf = true) (h : exec i s = .next t) :
    ∃ bs, s.appended t bs ∧ (bs.length ≤ 1 ∨ ((matchDistance i).isSome = true ∧ bs.length ≤ s.length.toNat))
      ∧ (bs = [] ∨ s.outLen.toNat + bs.length ≤ s.cap.toNat)
      ∧ t.outMem.wf = true ∧ t.window.wf = true := by
  by_cases hm : (matchDistance i).isSome = true
  · obtain ⟨d, hd⟩ := Option.isSome_iff_exists.mp hm
    obtain ⟨h1, h2, hx⟩ := matchDistance_bounds hd
    rw [hx] at h
    rcases Nat.lt_or_ge s.outLen.toNat d with hf | hf
    · rw [distanceStep_far (by omega) hf] at h
      cases h
      exact ⟨[], State.appended_nil s, .inl (Nat.zero_le _), .inl rfl, ho, hw⟩
    · have hl := s.length.isLt
      have hdd : (BitVec.ofNat 16 d).toNat = d := by simp only [BitVec.toNat_ofNat]; omega
      have hstep : distanceStep d s = match copy s.length.toNat { s with distance := BitVec.ofNat 16 d } with
          | .go s2 => .go { s2 with expect := .litLen }
          | .raised x s2 => .raised x s2 := by
        simp only [distanceStep]
        exact if_neg (by simp only [hdd, Config.wsize]; omega)
      rw [hstep] at h
      rcases Nat.lt_or_ge s.cap.toNat (s.outLen.toNat + s.length.toNat) with hc | hc
      · rcases Nat.lt_or_ge s.cap.toNat s.outLen.toNat with hlt | hle
        · have hz : s.length.toNat = 0 ∨ ∃ n, s.length.toNat = n + 1 := by
            rcases s.length.toNat with _ | n
            · exact .inl rfl
            · exact .inr ⟨n, rfl⟩
          rcases hz with hz | ⟨n, hz⟩
          · rw [hz] at h
            cases h
            exact ⟨[], State.appended_nil s, .inl (Nat.zero_le _), .inl rfl, ho, hw⟩
          · rw [hz] at h
            simp only [copy] at h
            rw [emit_full (by exact Nat.le_of_lt hlt)] at h
            cases h
            exact ⟨[], State.appended_nil s, .inl (Nat.zero_le _), .inl rfl, ho, hw⟩
        · obtain ⟨u, e1, e2, e3, e4, e5, e6⟩ :=
            copy_full (n := s.length.toNat) (s := { s with distance := BitVec.ofNat 16 d }) hdd h1 h2 ho hw hle hc
              (by omega)
          rw [e1] at h
          cases h
          refine ⟨_, e2, .inr ⟨hm, ?_⟩, .inr ?_, e4, e5⟩
          · rw [replayBytes_length]; simp only; omega
          · rw [replayBytes_length]; simp only; omega
      · obtain ⟨u, e1, e2, e3, e4, e5⟩ :=
          copy_room (n := s.length.toNat) (s := { s with distance := BitVec.ofNat 16 d }) hdd h1 h2 ho hw hc (by omega)
        rw [e1] at h
        cases h
        refine ⟨_, e2, .inr ⟨hm, ?_⟩, .inr ?_, e4, e5⟩
        · rw [replayBytes_length]
        · rw [replayBytes_length]; exact hc
  · have one : ∀ v, ((∃ u, emit v s = .go u ∧ t.outMem = u.outMem ∧ t.window = u.window ∧ t.wp = u.wp
        ∧ t.outLen = u.outLen ∧ t.adlerA = u.adlerA ∧ t.adlerB = u.adlerB)
        ∨ (emit v s = .raised .outputOverflow s ∧ t = raise .outputOverflow s)) →
        ∃ bs, s.appended t bs ∧ (bs.length ≤ 1 ∨ ((matchDistance i).isSome = true ∧ bs.length ≤ s.length.toNat))
          ∧ (bs = [] ∨ s.outLen.toNat + bs.length ≤ s.cap.toNat)
          ∧ t.outMem.wf = true ∧ t.window.wf = true := by
      rintro v (⟨u, e, k1, k2, k3, k4, k5, k6⟩ | ⟨-, rfl⟩)
      · rcases Nat.lt_or_ge s.outLen.toNat s.cap.toNat with hc | hc
        · obtain ⟨u', e1, e2, e3, e4, e5, -⟩ := emit_room (v := v) ho hw hc
          rw [e1] at e
          cases e
          refine ⟨[v], ?_, .inl (le_refl _), .inr (by simpa using hc), by rw [k1]; exact e4, by rw [k2]; exact e5⟩
          unfold State.appended at e2 ⊢
          rw [k1, k2, k3, k4, k5, k6]
          exact e2
        · rw [emit_full hc] at e; cases e
      · exact ⟨[], State.appended_nil s, .inl (Nat.zero_le _), .inl rfl, ho, hw⟩
    cases i <;> try (exact absurd he (by simpa [emitsOutput] using hm))
    case storedByte v =>
      simp only [exec, execStoredByte] at h
      apply one v
      rcases emit_frame v s with ⟨u, e1, -⟩ | e1 <;> rw [e1] at h
      · refine .inl ⟨u, e1, ?_⟩
        simp only at h
        split at h <;> cases h
        · simp only [Run.state, endOfBody]; split <;> simp
        · simp [Run.state]
      · cases h; exact .inr ⟨e1, rfl⟩
    case lit v =>
      simp only [exec, execLit] at h
      apply one v
      rcases emit_frame v s with ⟨u, e1, -⟩ | e1 <;> rw [e1] at h <;> cases h
      · exact .inl ⟨u, e1, rfl, rfl, rfl, rfl, rfl, rfl⟩
      · exact .inr ⟨e1, rfl⟩

/-- The output grows by the appended bytes. -/
theorem State.output_appended {s t : State} {bs : List Byte} (h : s.appended t bs) : t.output = s.output ++ bs := by
  obtain ⟨h1, -, h3, h4, -⟩ := h
  simp only [State.output, h1, List.range_add, List.map_append, List.map_map]
  congr 1
  · apply List.map_congr_left
    intro a ha
    exact h4 a (.inl (List.mem_range.mp ha))
  · apply List.ext_getElem?
    intro k
    by_cases hk : k < bs.length
    · simp [hk, h3 k hk]
    · simp [hk]

/-- The checksum follows appended output. -/
theorem State.checksum_appended {s t : State} {bs : List Byte} (h : s.appended t bs) (hs : s.checksumOfOutput) :
    t.checksumOfOutput := by
  simp only [State.checksumOfOutput] at hs ⊢
  rw [State.output_appended h, adlerSums_append, ← hs]
  exact h.2.2.2.2.2.2

/-- The pointer follows appended output. -/
theorem State.pointer_appended {s t : State} {bs : List Byte} (h : s.appended t bs) (hs : s.pointerFollows) :
    t.pointerFollows := by
  simp only [State.pointerFollows, Config.wsize] at hs ⊢
  rw [h.2.1, h.1]
  omega

/-- The window mirrors the output after appended output. -/
theorem State.mirrors_appended {s t : State} {bs : List Byte} (h : s.appended t bs) (hl : bs.length ≤ 32768)
    (hp : s.pointerFollows) (hs : s.windowMirrors) : t.windowMirrors := by
  obtain ⟨h1, h2, h3, h4, h5, h6, -⟩ := h
  intro k k1 k2 k3
  simp only [State.pointerFollows, Config.wsize] at *
  rw [h2, h1]
  by_cases hk : k ≤ bs.length
  · have e1 : ((s.wp.toNat + bs.length) % 32768 + 32768 - k) % 32768 = (s.wp.toNat + (bs.length - k)) % 32768 := by omega
    have e2 : s.outLen.toNat + bs.length - k = s.outLen.toNat + (bs.length - k) := by omega
    rw [e1, e2, h5 _ (by omega), h3 _ (by omega)]
  · have e1 : ((s.wp.toNat + bs.length) % 32768 + 32768 - k) % 32768
        = (s.wp.toNat + 32768 - (k - bs.length)) % 32768 := by
      have hw := s.wp.isLt
      rcases Nat.lt_or_ge (s.wp.toNat + bs.length) 32768 with h | h
      · rw [Nat.mod_eq_of_lt h]; congr 1; omega
      · have : (s.wp.toNat + bs.length) % 32768 = s.wp.toNat + bs.length - 32768 := by omega
        rw [this]; omega
    have e2 : s.outLen.toNat + bs.length - k = s.outLen.toNat - (k - bs.length) := by omega
    rw [e1, e2, h6, h4 _ (by omega)]
    · exact hs (k - bs.length) (by omega) (by simp only [Config.wsize]; omega) (by omega)
    · intro j hj; omega

theorem adlerSums_lt {a b : Nat} {bs : List Byte} (ha : a < 65521) (hb : b < 65521) :
    (adlerSums a b bs).1 < 65521 ∧ (adlerSums a b bs).2 < 65521 := by
  induction bs generalizing a b with
  | nil => exact ⟨ha, hb⟩
  | cons v bs ih => exact ih (Nat.mod_lt _ (by omega)) (Nat.mod_lt _ (by omega))

/-- Appended output keeps the sums reduced. -/
theorem State.sums_appended {s t : State} {bs : List Byte} (h : s.appended t bs) (hs : s.sumsReduced) : t.sumsReduced := by
  have h7 := h.2.2.2.2.2.2
  have := adlerSums_lt (bs := bs) hs.1 hs.2
  rw [← h7] at this
  exact this

/-- Appended output that fits keeps OUT and WINDOW within their spaces. -/
theorem State.below_appended {s t : State} {bs : List Byte} {size : Nat} (h : s.appended t bs)
    (hc : s.outMem.wf = true ∧ s.window.wf = true) (hct : t.outMem.wf = true ∧ t.window.wf = true)
    (hb : s.outMem.below size = true ∧ s.window.below Config.wsize = true)
    (hl : bs = [] ∨ s.outLen.toNat + bs.length ≤ size) :
    t.outMem.below size = true ∧ t.window.below Config.wsize = true := by
  obtain ⟨h1, h2, h3, h4, h5, h6, -⟩ := h
  rw [Memory.below_iff hc.1, Memory.below_iff hc.2] at hb
  rw [Memory.below_iff hct.1, Memory.below_iff hct.2]
  refine ⟨fun a ha => ?_, fun a ha => ?_⟩
  · rw [h4, hb.1 a ha]
    rcases hl with rfl | hl
    · simp only [List.length_nil]; omega
    · omega
  · rw [h6, hb.2 a ha]
    intro k _
    simp only [Config.wsize] at ha
    omega

end Sys2Proof.Machine
end

