-- ==== Sys2Proof/Laws/Step.lean ====
section
/-! SUPPORT. The cases of a step: which action it takes, and what each action answers. -/

namespace Sys2Proof.Machine

@[simp] theorem Action.outcome_run (i : Instr) (s : State) : (Action.run i s).outcome = exec i s := rfl
@[simp] theorem Action.outcome_settled (o : Outcome) : (Action.settled o).outcome = o := rfl

theorem step_nil {s : State} (h : s.hostMoves = []) : step s = (engineAction s).outcome := by
  simp only [step, nextAction, h]

theorem step_cons {s : State} {m : HostMove} {moves : List HostMove} (h : s.hostMoves = m :: moves) :
    step s = (hostAction m { s with hostMoves := moves }).outcome := by
  simp only [step, nextAction, h]

/-- On the engine's turn a step is the engine's action on the state without the host's pass. -/
theorem step_engine {s : State} (h : s.engineTurn) :
    ∃ moves, step s = (engineAction { s with hostMoves := moves }).outcome := by
  rcases h with h | ⟨moves, h⟩
  · exact ⟨[], by rw [step_nil h, ← h]⟩
  · exact ⟨moves, step_cons h⟩

theorem engineAction_idle {s : State} (h : s.busy = false) : engineAction s = .settled (.next s) := by
  simp [engineAction, h]

theorem engineAction_ok {s : State} {i : Instr} {r : Reader} (hb : s.busy = true)
    (h : decode s.format s.reader = .ok i r) : engineAction s = .run i { s with inPos := r.pos } := by
  unfold engineAction; rw [if_pos hb, h]

theorem engineAction_exhausted {s : State} {got : List Nat} {r : Reader} (hb : s.busy = true)
    (h : decode s.format s.reader = .exhausted got r) :
    engineAction s = .settled (.next (raise .inputExhausted (latchPart s.format got { s with inPos := r.pos }))) := by
  unfold engineAction; rw [if_pos hb, h]

theorem engineAction_noCode {s : State} {r : Reader} (hb : s.busy = true)
    (h : decode s.format s.reader = .noCode r) :
    engineAction s = .settled (.next (raise .huffmanDecodeOutOfRange { s with inPos := r.pos })) := by
  unfold engineAction; rw [if_pos hb, h]

theorem engineAction_noClSymbol {s : State} {r : Reader} (hb : s.busy = true)
    (h : decode s.format s.reader = .noClSymbol r) : engineAction s = .settled (.refused .noClSymbol) := by
  unfold engineAction; rw [if_pos hb, h]

theorem Run.outcome_go (s : State) : (Run.go s).outcome = .next s := rfl
theorem Run.outcome_raised (x : JobError) (s : State) : (Run.raised x s).outcome = .next (raise x s) := rfl

/-- A run whose first step answers a next state goes on from there. -/
theorem run_succ {k : Nat} {s t : State} (h : step s = .next t) : core.run (k + 1) s = core.run k t := by
  have h1 : core.step s = .next t := h
  have h2 := Host.Core.run.eq_2 core s k
  rw [h1] at h2
  exact h2

theorem run_zero (s : State) : core.run 0 s = .next s := rfl

/-- A host register at a word offset is where the address map puts it (20_memory.md R60). -/
theorem route_reg (p : Config.Params) {o : Nat} (h : o < 64) : route p (p.regBase + o) = .reg o := by
  simp [route, h]

theorem route_regBase (p : Config.Params) : route p p.regBase = .reg 0 := by simp [route]

/-- A word that decodes as the host's command is HOST_START with START set. -/
theorem decodeHost_eq_some {v : Word} {i : Instr} (h : decodeHost v = some i) : i = .hostStart v ∧ v.getLsbD 0 = true := by
  simp only [decodeHost] at h
  split at h <;> cases h
  exact ⟨rfl, by assumption⟩

/-- A drawn FSM is four free bits under zeros (10_state.md R31). -/
@[simp] theorem drawnReg_fsm (v : Word) : drawnReg 0x20 v = (0 : BitVec 28) ++ v.setWidth 4 := by
  apply BitVec.eq_of_getLsbD_eq
  intro i hi
  simp only [drawnReg, if_true, BitVec.getLsbD_setWidth, BitVec.getLsbD_append]
  by_cases h : i < 4 <;> simp [h, hi]

/-- A drawn result register other than FSM is the drawn word. -/
theorem drawnReg_of_ne {offset : Nat} (h : offset ≠ 0x20) (v : Word) : drawnReg offset v = v := if_neg h

/-- While a job runs, a host move other than a pass or a reset changes only the host's side. -/
theorem hostAction_busy {s t : State} {m : HostMove} (hb : s.busy = true) (hp : m ≠ .pass) (hr : m ≠ .reset)
    (hx : (hostAction m s).outcome = .next t) : t = { s with busData := t.busData, draws := t.draws } := by
  cases m with
  | pass => exact absurd rfl hp
  | reset => exact absurd rfl hr
  | busRead addr width =>
    simp only [hostAction, busRead] at hx
    split at hx
    · split at hx <;> cases hx
      unfold readReg; split
      · rfl
      · split <;> rfl
    · rw [if_pos hb] at hx
      split at hx <;> cases hx
      rfl
    · rw [if_pos hb] at hx
      split at hx <;> cases hx
      rfl
    · cases hx
  | busWrite addr width v =>
    simp only [hostAction, busWrite] at hx
    split at hx
    · split at hx
      · cases hx
      · unfold writeReg at hx
        rw [if_pos hb, if_pos hb] at hx
        split at hx
        · split at hx
          · rename_i i hi
            obtain ⟨rfl, -⟩ := decodeHost_eq_some hi
            simp only [Action.outcome, exec, execHostStart] at hx
            rw [if_pos hb] at hx
            cases hx; rfl
          · cases hx; rfl
        · cases hx; rfl
    · rw [if_pos hb] at hx
      split at hx <;> cases hx
    · rw [if_pos hb] at hx
      split at hx <;> cases hx
    · cases hx

/-- While no job runs, a host move other than a reset starts a job, or leaves every result as it is. -/
theorem hostAction_idle {s t : State} {m : HostMove} (hb : s.busy = false) (hr : m ≠ .reset)
    (hx : (hostAction m s).outcome = .next t) :
    (∃ v, m = .busWrite s.params.regBase 4 v ∧ v.getLsbD 0 = true ∧ exec (.hostStart v) s = .next t)
    ∨ (t = { s with
        storedAlign := t.storedAlign
        inLen := t.inLen
        outCap := t.outCap
        inMem := t.inMem
        outMem := t.outMem
        busData := t.busData
        draws := t.draws }) := by
  have hn : ¬ s.busy = true := by rw [hb]; decide
  cases m with
  | pass => rw [show hostAction .pass s = engineAction s from rfl, engineAction_idle hb] at hx; cases hx; exact .inr rfl
  | reset => exact absurd rfl hr
  | busRead addr width =>
    simp only [hostAction, busRead] at hx
    right
    split at hx
    · split at hx <;> cases hx
      unfold readReg; split
      · rfl
      · split <;> rfl
    · rw [if_neg hn] at hx
      split at hx <;> cases hx
      rfl
    · rw [if_neg hn] at hx
      split at hx <;> cases hx
      rfl
    · cases hx
  | busWrite addr width v =>
    simp only [hostAction, busWrite] at hx
    split at hx
    · rename_i o ho
      split at hx
      · cases hx
      · rename_i hw
        unfold writeReg at hx
        split at hx
        · rename_i h0
          split at hx
          · rename_i i hi
            obtain ⟨rfl, h1⟩ := decodeHost_eq_some hi
            refine .inl ⟨v, ?_, h1, hx⟩
            simp only [not_or, not_not] at hw
            unfold route at ho
            repeat' split at ho
            all_goals cases ho
            have : addr = s.params.regBase := by omega
            rw [this, hw.1]
          · cases hx; exact .inr rfl
        · right
          split at hx
          · cases hx; rfl
          · split at hx <;> cases hx <;> rfl
    · right
      rw [if_neg hn] at hx
      split at hx <;> cases hx
      rfl
    · right
      rw [if_neg hn] at hx
      split at hx <;> cases hx
      rfl
    · cases hx

end Sys2Proof.Machine
end

