-- ==== Sys2Proof/Laws/Exec.lean ====
section
/-! SUPPORT. What `exec` does, said once per shape of instruction, and the invariant's parts as later proofs use them. -/

namespace Sys2Proof.Machine

/-- The length a length code stands for (43_lz77_window_emitter.md R215 to R243). -/
def matchLength : Instr → Option Nat
  | .len257 => some 3
  | .len258 => some 4
  | .len259 => some 5
  | .len260 => some 6
  | .len261 => some 7
  | .len262 => some 8
  | .len263 => some 9
  | .len264 => some 10
  | .len265 e => some (11 + e.toNat)
  | .len266 e => some (13 + e.toNat)
  | .len267 e => some (15 + e.toNat)
  | .len268 e => some (17 + e.toNat)
  | .len269 e => some (19 + e.toNat)
  | .len270 e => some (23 + e.toNat)
  | .len271 e => some (27 + e.toNat)
  | .len272 e => some (31 + e.toNat)
  | .len273 e => some (35 + e.toNat)
  | .len274 e => some (43 + e.toNat)
  | .len275 e => some (51 + e.toNat)
  | .len276 e => some (59 + e.toNat)
  | .len277 e => some (67 + e.toNat)
  | .len278 e => some (83 + e.toNat)
  | .len279 e => some (99 + e.toNat)
  | .len280 e => some (115 + e.toNat)
  | .len281 e => some (131 + e.toNat)
  | .len282 e => some (163 + e.toNat)
  | .len283 e => some (195 + e.toNat)
  | .len284 e => some (227 + e.toNat)
  | .len285 => some 258
  | _ => none

/-- Every length code is a length step at its length, which lies in 3 to 258. -/
theorem matchLength_exec {i : Instr} {n : Nat} (h : matchLength i = some n) :
    3 ≤ n ∧ n ≤ 258 ∧ ∀ s, exec i s = .next (lengthStep n s) := by
  cases i <;> simp only [matchLength, Option.some.injEq, reduceCtorEq] at h
  all_goals subst h; exact ⟨by omega, by omega, fun _ => rfl⟩

/-- The error numbers are 1 to 13 (60_exceptions.md R330). -/
theorem JobError.code_bounds (x : JobError) : 1 ≤ x.code.toNat ∧ x.code.toNat ≤ 13 := by cases x <;> decide

/-- Every instruction answers a next state, in every state. -/
theorem exec_next (i : Instr) (s : State) : ∃ t, exec i s = .next t := by
  cases hd : matchDistance i with
  | some d => exact ⟨_, (matchDistance_bounds hd).2.2 s⟩
  | none =>
    cases hl : matchLength i with
    | some n => exact ⟨_, (matchLength_exec hl).2.2 s⟩
    | none =>
      cases i <;> first
        | exact ⟨_, rfl⟩
        | (simp only [matchDistance] at hd; done)
        | (simp only [matchLength] at hl; done)
        | skip
      case zlibHdr c f => show ∃ t, execZlibHdr c f s = _; unfold execZlibHdr; split <;> exact ⟨_, rfl⟩
      case storedLen a b => show ∃ t, execStoredLen a b s = _; unfold execStoredLen; dsimp only; repeat' split
                            all_goals exact ⟨_, rfl⟩
      case storedByte v => show ∃ t, execStoredByte v s = _; unfold execStoredByte; repeat' split
                           all_goals exact ⟨_, rfl⟩
      case clCodelen v => show ∃ t, execClCodelen v s = _; unfold execClCodelen; dsimp only; split <;> exact ⟨_, rfl⟩
      case clRepPrev e => show ∃ t, execClRepPrev e s = _; unfold execClRepPrev; split <;> exact ⟨_, rfl⟩
      case lit v => show ∃ t, execLit v s = _; unfold execLit; split <;> exact ⟨_, rfl⟩
      case adlerTrailer v => show ∃ t, execAdlerTrailer v s = _; unfold execAdlerTrailer; split <;> exact ⟨_, rfl⟩
      case hostStart w => show ∃ t, execHostStart w s = _; unfold execHostStart; split <;> exact ⟨_, rfl⟩

/-- What no instruction of the stream touches. -/
structure State.SameInputs (s t : State) : Prop where
  inMem : t.inMem = s.inMem
  inLen : t.inLen = s.inLen
  outCap : t.outCap = s.outCap
  storedAlign : t.storedAlign = s.storedAlign
  n : t.n = s.n
  cap : t.cap = s.cap
  align : t.align = s.align
  e : t.e = s.e
  params : t.params = s.params
  hostMoves : t.hostMoves = s.hostMoves
  busData : t.busData = s.busData
  draws : t.draws = s.draws

/-- What no instruction but an output instruction touches. -/
structure State.SameOutput (s t : State) : Prop where
  outMem : t.outMem = s.outMem
  window : t.window = s.window
  wp : t.wp = s.wp
  outLen : t.outLen = s.outLen
  adlerA : t.adlerA = s.adlerA
  adlerB : t.adlerB = s.adlerB

theorem State.SameInputs.of_output {b s t : State} (h : State.sameButOutput b t) (hb : s.SameInputs b) : s.SameInputs t :=
  ⟨(sameButOutput_inMem h).trans hb.1, (sameButOutput_inLen h).trans hb.2, (sameButOutput_outCap h).trans hb.3,
    (sameButOutput_storedAlign h).trans hb.4, (sameButOutput_n h).trans hb.5, (sameButOutput_cap h).trans hb.6,
    (sameButOutput_align h).trans hb.7, (sameButOutput_e h).trans hb.8, (sameButOutput_params h).trans hb.9,
    (sameButOutput_hostMoves h).trans hb.10, (sameButOutput_busData h).trans hb.11, (sameButOutput_draws h).trans hb.12⟩

theorem endOfBody_cases (s : State) :
    endOfBody s = { s with fsm := .trailer, expect := .trailer } ∨ endOfBody s = { s with fsm := .blockHeader, expect := .blkHdr } := by
  unfold endOfBody; split
  · exact .inl rfl
  · exact .inr rfl

/-- STATUS and TRAILER after an instruction of the stream: as before, or an error, or the end of a job at its trailer. -/
def StatusAfter (i : Instr) (s t : State) : Prop :=
  (t.busy = s.busy ∧ t.done = s.done ∧ t.error = s.error ∧ t.errcode = s.errcode ∧ t.trailer = s.trailer)
  ∨ (t.busy = false ∧ t.done = false ∧ t.error = true ∧ t.fsm = .error
      ∧ (∃ x : JobError, t.errcode = x.code ∧ x ≠ .inputExhausted))
  ∨ (i = .adlerTrailer t.trailer ∧ t.busy = false ∧ t.done = true ∧ t.error = s.error ∧ t.errcode = s.errcode
      ∧ t.fsm = .done ∧ t.trailer = t.adlerWord)

/-- Every output instruction keeps the job's inputs, and the cursor. -/
theorem exec_output_inputs {i : Instr} {s t : State} (he : emitsOutput i = true) (h : exec i s = .next t) :
    s.SameInputs t ∧ t.inPos = s.inPos ∧ StatusAfter i s t := by
  have out : ∀ {b : State}, State.sameButOutput b t → s.SameInputs b → b.inPos = s.inPos →
      (b.busy = s.busy ∧ b.done = s.done ∧ b.error = s.error ∧ b.errcode = s.errcode ∧ b.trailer = s.trailer) →
      s.SameInputs t ∧ t.inPos = s.inPos ∧ StatusAfter i s t := fun e h1 h2 h3 =>
    ⟨.of_output e h1, (sameButOutput_inPos e).trans h2, .inl ⟨(sameButOutput_busy e).trans h3.1,
      (sameButOutput_done e).trans h3.2.1, (sameButOutput_error e).trans h3.2.2.1,
      (sameButOutput_errcode e).trans h3.2.2.2.1, (sameButOutput_trailer e).trans h3.2.2.2.2⟩⟩
  have same : ∀ {b : State}, (b.inMem = s.inMem ∧ b.inLen = s.inLen ∧ b.outCap = s.outCap ∧ b.storedAlign = s.storedAlign
      ∧ b.n = s.n ∧ b.cap = s.cap ∧ b.align = s.align ∧ b.e = s.e ∧ b.params = s.params ∧ b.hostMoves = s.hostMoves
      ∧ b.busData = s.busData ∧ b.draws = s.draws) → s.SameInputs b :=
    fun ⟨h1, h2, h3, h4, h5, h6, h7, h8, h9, h10, h11, h12⟩ => ⟨h1, h2, h3, h4, h5, h6, h7, h8, h9, h10, h11, h12⟩
  rcases exec_outputEnd he h with ⟨x, d, e, -, hx⟩ | ⟨d, e, -⟩ | ⟨-, -, e⟩ | ⟨-, e⟩
  · have hs : s.SameInputs t := .of_output e (same ⟨rfl, rfl, rfl, rfl, rfl, rfl, rfl, rfl, rfl, rfl, rfl, rfl⟩)
    have hp := sameButOutput_inPos e
    have hc := sameButOutput_errcode e
    exact ⟨hs, hp, .inr (.inl ⟨sameButOutput_busy e, sameButOutput_done e, sameButOutput_error e, sameButOutput_fsm e,
      x, hc, hx⟩)⟩
  · exact out e (same ⟨rfl, rfl, rfl, rfl, rfl, rfl, rfl, rfl, rfl, rfl, rfl, rfl⟩) rfl ⟨rfl, rfl, rfl, rfl, rfl⟩
  · exact out e (same ⟨rfl, rfl, rfl, rfl, rfl, rfl, rfl, rfl, rfl, rfl, rfl, rfl⟩) rfl ⟨rfl, rfl, rfl, rfl, rfl⟩
  · rcases endOfBody_cases { s with storedLeft := 0 } with g | g <;> rw [g] at e
    all_goals exact out e (same ⟨rfl, rfl, rfl, rfl, rfl, rfl, rfl, rfl, rfl, rfl, rfl, rfl⟩) rfl ⟨rfl, rfl, rfl, rfl,
                  rfl⟩

/-- Every other instruction of the stream keeps the job's inputs and the output; only ZLIB_HDR moves the cursor. -/
theorem exec_quiet {i : Instr} {s t : State} (he : emitsOutput i = false) (hi : ∀ w, i ≠ .hostStart w)
    (h : exec i s = .next t) :
    s.SameInputs t ∧ s.SameOutput t ∧ (t.inPos = s.inPos ∨ ((∃ a b, i = .zlibHdr a b) ∧ t.inPos = 16))
      ∧ StatusAfter i s t := by
  have same : ∀ {u : State}, s.SameInputs u → s.SameOutput u → u.inPos = s.inPos →
      (u.busy = s.busy ∧ u.done = s.done ∧ u.error = s.error ∧ u.errcode = s.errcode ∧ u.trailer = s.trailer) →
      s.SameInputs u ∧ s.SameOutput u ∧ (u.inPos = s.inPos ∨ ((∃ a b,
          i = .zlibHdr a b) ∧ u.inPos = 16)) ∧ StatusAfter i s u :=
    fun h1 h2 h3 h4 => ⟨h1, h2, .inl h3, .inl h4⟩
  have err : ∀ {u : State} (x : JobError), s.SameInputs u → s.SameOutput u → u.inPos = s.inPos → x ≠ .inputExhausted →
      s.SameInputs (raise x u) ∧ s.SameOutput (raise x u)
        ∧ ((raise x u).inPos = s.inPos ∨ ((∃ a b, i = .zlibHdr a b) ∧ (raise x u).inPos = 16))
        ∧ StatusAfter i s (raise x u) :=
    fun x h1 h2 h3 h4 => ⟨⟨h1.1, h1.2, h1.3, h1.4, h1.5, h1.6, h1.7, h1.8, h1.9, h1.10, h1.11, h1.12⟩,
      ⟨h2.1, h2.2, h2.3, h2.4, h2.5, h2.6⟩, .inl h3, .inr (.inl ⟨rfl, rfl, rfl, rfl, x, rfl, h4⟩)⟩
  have ri : s.SameInputs s := ⟨rfl, rfl, rfl, rfl, rfl, rfl, rfl, rfl, rfl, rfl, rfl, rfl⟩
  have ro : s.SameOutput s := ⟨rfl, rfl, rfl, rfl, rfl, rfl⟩
  have fin : ∀ {u : State}, s.SameInputs u → s.SameOutput u → u.inPos = s.inPos →
      (u.busy = s.busy ∧ u.done = s.done ∧ u.error = s.error ∧ u.errcode = s.errcode ∧ u.trailer = s.trailer) →
      s.SameInputs (endOfBody u) ∧ s.SameOutput (endOfBody u)
        ∧ ((endOfBody u).inPos = s.inPos ∨ ((∃ a b, i = .zlibHdr a b) ∧ (endOfBody u).inPos = 16))
        ∧ StatusAfter i s (endOfBody u) := by
    intro u h1 h2 h3 h4
    rcases endOfBody_cases u with g | g <;> rw [g]
    all_goals exact same ⟨h1.1, h1.2, h1.3, h1.4, h1.5, h1.6, h1.7, h1.8, h1.9, h1.10, h1.11, h1.12⟩ ⟨h2.1, h2.2, h2.3,
                  h2.4, h2.5, h2.6⟩ h3 h4
  have lens : ∀ rep v, s.SameInputs (nextClSym (writeLens rep v s)) ∧ s.SameOutput (nextClSym (writeLens rep v s))
        ∧ ((nextClSym (writeLens rep v s)).inPos = s.inPos ∨ ((∃ a b,
            i = .zlibHdr a b) ∧ (nextClSym (writeLens rep v s)).inPos = 16))
        ∧ StatusAfter i s (nextClSym (writeLens rep v s)) := by
    intro rep v
    unfold nextClSym
    split
    all_goals exact same ⟨rfl, rfl, rfl, rfl, rfl, rfl, rfl, rfl, rfl, rfl, rfl, rfl⟩ ⟨rfl, rfl, rfl, rfl, rfl,
                  rfl⟩ rfl ⟨rfl, rfl, rfl, rfl, rfl⟩
  cases hl : matchLength i with
  | some n =>
    rw [(matchLength_exec hl).2.2] at h; cases h
    exact same ⟨rfl, rfl, rfl, rfl, rfl, rfl, rfl, rfl, rfl, rfl, rfl, rfl⟩ ⟨rfl, rfl, rfl, rfl, rfl, rfl⟩ rfl ⟨rfl, rfl,
        rfl, rfl, rfl⟩
  | none =>
    cases i <;> first
      | (simp only [matchLength, reduceCtorEq] at hl; done)
      | (simp only [emitsOutput, matchDistance, Option.isSome, reduceCtorEq] at he; done)
      | (cases h; exact err _ ri ro rfl (by decide))
      | (cases h; exact same ⟨rfl, rfl, rfl, rfl, rfl, rfl, rfl, rfl, rfl, rfl, rfl, rfl⟩ ⟨rfl, rfl, rfl, rfl, rfl, rfl⟩ rfl ⟨rfl, rfl, rfl, rfl, rfl⟩)
      | (cases h; exact lens _ _)
      | (cases h; exact fin ri ro rfl ⟨rfl, rfl, rfl, rfl, rfl⟩)
      | skip
    case zlibHdr a b =>
      simp only [exec, execZlibHdr] at h
      split at h
      · rename_i x hx
        cases h
        refine err x ri ro rfl ?_
        simp only [headerCheck] at hx
        repeat' split at hx
        all_goals cases hx
        all_goals decide
      · cases h
        exact ⟨⟨rfl, rfl, rfl, rfl, rfl, rfl, rfl, rfl, rfl, rfl, rfl, rfl⟩, ⟨rfl, rfl, rfl, rfl, rfl, rfl⟩, .inr ⟨⟨a, b,
            rfl⟩, rfl⟩,
          .inl ⟨rfl, rfl, rfl, rfl, rfl⟩⟩
    case blkReserved f =>
      cases h
      exact err (u := latchBlock f 3 s) .invalidBlockType ⟨rfl, rfl, rfl, rfl, rfl, rfl, rfl, rfl, rfl, rfl, rfl,
          rfl⟩ ⟨rfl, rfl, rfl, rfl, rfl, rfl⟩ rfl (by decide)
    case storedLen a b =>
      simp only [exec, execStoredLen] at h
      split at h
      · cases h
        exact err (u := { s with len := a, nlen := b }) .lengthMismatch ⟨rfl, rfl, rfl, rfl, rfl, rfl, rfl, rfl, rfl, rfl,
            rfl, rfl⟩ ⟨rfl, rfl, rfl, rfl, rfl, rfl⟩ rfl (by decide)
      · split at h <;> cases h
        · exact fin (u := { s with len := a, nlen := b, storedLeft := 0 }) ⟨rfl, rfl, rfl, rfl, rfl, rfl, rfl, rfl, rfl,
              rfl, rfl, rfl⟩ ⟨rfl, rfl, rfl, rfl, rfl, rfl⟩ rfl ⟨rfl, rfl, rfl, rfl, rfl⟩
        · exact same ⟨rfl, rfl, rfl, rfl, rfl, rfl, rfl, rfl, rfl, rfl, rfl, rfl⟩ ⟨rfl, rfl, rfl, rfl, rfl, rfl⟩ rfl ⟨rfl,
              rfl, rfl, rfl, rfl⟩
    case clCodelen v =>
      simp only [exec, execClCodelen] at h
      split at h <;> cases h <;>
        exact same ⟨rfl, rfl, rfl, rfl, rfl, rfl, rfl, rfl, rfl, rfl, rfl, rfl⟩ ⟨rfl, rfl, rfl, rfl, rfl, rfl⟩ rfl ⟨rfl,
            rfl, rfl, rfl, rfl⟩
    case clRepPrev e =>
      simp only [exec, execClRepPrev] at h
      split at h
      · cases h; exact err _ ri ro rfl (by decide)
      · simp only [repeatLens] at h; split at h <;> cases h
        · exact err _ ri ro rfl (by decide)
        · exact lens _ _
    case clRepZero3 e =>
      simp only [exec, execClRepZero3, repeatLens] at h; split at h <;> cases h
      · exact err _ ri ro rfl (by decide)
      · exact lens _ _
    case clRepZero11 e =>
      simp only [exec, execClRepZero11, repeatLens] at h; split at h <;> cases h
      · exact err _ ri ro rfl (by decide)
      · exact lens _ _
    case adlerTrailer v =>
      simp only [exec, execAdlerTrailer] at h
      split at h <;> rename_i hv <;> cases h
      · exact err (u := { s with trailer := v }) .checksumMismatch ⟨rfl, rfl, rfl, rfl, rfl, rfl, rfl, rfl, rfl, rfl, rfl,
            rfl⟩ ⟨rfl, rfl, rfl, rfl, rfl, rfl⟩ rfl (by decide)
      · refine ⟨⟨rfl, rfl, rfl, rfl, rfl, rfl, rfl, rfl, rfl, rfl, rfl, rfl⟩, ⟨rfl, rfl, rfl, rfl, rfl, rfl⟩, .inl rfl,
            .inr (.inr ⟨rfl, rfl, rfl, rfl, rfl, rfl, ?_⟩)⟩
        exact not_not.mp hv
    case hostStart w => exact absurd rfl (hi w)

end Sys2Proof.Machine
end

