-- ==== Sys2Proof/Laws/Invariant.lean ====
section
/-! SUPPORT. The invariant in pieces: what no control step touches (`State.Data`), and how a state that ends a job, or goes on
with one, meets it. -/

namespace Sys2Proof.Machine

/-- The part of the invariant about data alone: parameters, memories, RAMs, lengths, sums and pointer. -/
structure State.Data (s : State) : Prop where
  params : s.params.legal = true
  canonical : s.memoriesCanonical
  inSpace : s.memoriesInSpace
  rams : s.ramsSized
  lengths : s.lengthsLegal
  sums : s.sumsReduced
  pointer : s.pointerFollows

theorem State.Inv.data {s : State} (h : s.Inv) : s.Data :=
  ⟨h.params, h.canonical, h.inSpace, h.rams, h.lengths, h.sums, h.pointer⟩

/-- A state with no job running meets the invariant when its data and its status do. -/
theorem State.Inv.of_idle {s : State} (d : s.Data) (hb : s.busy = false) (h : s.statusLegal) : s.Inv :=
  ⟨d.params, d.canonical, d.inSpace, d.rams, d.lengths, d.sums, d.pointer, h,
    fun hx => absurd (hb.symm.trans hx) (by decide), fun hx => absurd (hb.symm.trans hx) (by decide),
    fun hx => absurd (hb.symm.trans hx) (by decide)⟩

/-- An error entry meets the invariant. -/
theorem State.Inv.of_raise {s : State} (x : JobError) (d : s.Data) : (raise x s).Inv :=
  State.Inv.of_idle ⟨d.params, d.canonical, d.inSpace, d.rams, d.lengths, d.sums, d.pointer⟩ rfl
    (.inr (.inr (.inr ⟨rfl, rfl, rfl, x.code_bounds.1, x.code_bounds.2, rfl⟩)))

/-- STATUS of a running job. -/
theorem State.Inv.running {s : State} (h : s.Inv) (hb : s.busy = true) :
    s.done = false ∧ s.error = false ∧ s.errcode = 0 ∧ s.fsm ≠ .idle ∧ s.fsm ≠ .done ∧ s.fsm ≠ .error := by
  rcases h.status with h | h | h | h
  · rw [hb] at h; cases h.1
  · exact h.2
  · rw [hb] at h; cases h.1
  · rw [hb] at h; cases h.1

/-- A running job meets the invariant when its data, its latches, its cursor and its control point do. -/
theorem State.Inv.of_running {s : State} (d : s.Data) (hb : s.busy = true)
    (h : s.done = false ∧ s.error = false ∧ s.errcode = 0)
    (hf : s.fsm ≠ .idle ∧ s.fsm ≠ .done ∧ s.fsm ≠ .error) (hl : s.latchesFollow) (hc : s.cursorInRegion)
    (hk : s.controlLegal) : s.Inv :=
  ⟨d.params, d.canonical, d.inSpace, d.rams, d.lengths, d.sums, d.pointer,
    .inr (.inl ⟨hb, h.1, h.2.1, h.2.2, hf.1, hf.2.1, hf.2.2⟩), fun _ => hl, fun _ => hc, fun _ => hk⟩

/-- The control point of a format is the engine's. -/
theorem format_row_expect (s : State) : Row.expect s.format.row = s.expect := by
  unfold State.format; cases s.expect <;> rfl

/-- The region of a running job lies in the largest input buffer. -/
theorem State.Inv.stop_lt {s : State} (h : s.Inv) (hb : s.busy = true) : 8 * s.reader.stop < 2 ^ 32 := by
  have h1 := (h.latches hb).1
  have h2 := (h.latches hb).2.2.2.1
  have h3 := h.lengths.1
  have h4 := h.params
  simp only [Config.Params.legal, Bool.and_eq_true, decide_eq_true_eq] at h4
  rw [← h1] at h3
  simp only [State.reader]
  omega

/-- The cursor of a running job lies in its region. -/
theorem State.Inv.cursor_le {s : State} (h : s.Inv) (hb : s.busy = true) : s.reader.pos.toNat ≤ 8 * s.reader.stop := by
  have h2 := h.cursor hb
  simp only [State.cursorInRegion, State.reader] at *
  split at h2
  · rw [h2.1]; exact Nat.zero_le _
  · split at h2 <;> exact h2.2

/-- A code-length symbol is below 19, so the decoder never meets another (42_block_dispatch.md R190). -/
theorem decode_ne_noClSymbol {s : State} {r : Reader} (h : s.Inv) (hb : s.busy = true) :
    decode s.format s.reader ≠ .noClSymbol r := by
  intro hd
  have hs := h.stop_lt hb
  have hp := h.cursor_le hb
  unfold State.format at hd
  have extra : ∀ {n : Nat} {make : BitVec n → Instr} {q : Reader}, withExtra n make q ≠ .noClSymbol r := by
    intro n make q hx; simp only [withExtra] at hx; split at hx <;> cases hx
  cases he : s.expect <;> simp only [he, decode] at hd
  case zlibHdr => split at hd <;> cases hd
  case blkHdr => simp only [decodeBlkHdr] at hd; split at hd; cases hd; split at hd <;> cases hd
  case storedLen => simp only [decodeStoredLen] at hd; split at hd; cases hd; split at hd <;> cases hd
  case storedByte => exact extra hd
  case dynHdr =>
    simp only [decodeDynHdr] at hd; split at hd; cases hd; split at hd; cases hd; split at hd <;> cases hd
  case clCodelen => exact extra hd
  case clSym =>
    have hl := decodeFrom_lands (symbols := s.clT.code.symbols) (counts := (s.clT.code.counts.drop 1).take Config.maxBits)
      (base := 0) (offs := 0) hs hp
    simp only [decodeCoded, decodeSym] at hd
    cases hx : decodeFrom s.clT.code.symbols ((s.clT.code.counts.drop 1).take Config.maxBits) 0 0 s.reader with
    | ok sym r1 =>
      rw [hx] at hl hd
      obtain ⟨hm, -⟩ := hl
      simp only [HuffTable.code] at hm
      obtain ⟨v, hv, rfl⟩ := List.mem_map.mp hm
      have := h.rams.1.2.2 v hv
      simp only [clInstr] at hd
      split at hd
      · cases hd
      · split at hd
        · split at hd
          · cases hd
          · exact extra hd
        · split at hd
          · exact extra hd
          · split at hd
            · exact extra hd
            · omega
    | exhausted r1 => rw [hx] at hd; cases hd
    | noCode r1 => rw [hx] at hd; cases hd
  case litLen =>
    simp only [decodeCoded] at hd
    split at hd
    · simp only [litLenInstr] at hd
      split at hd
      · cases hd
      · split at hd <;> first | cases hd | exact extra hd | (split at hd <;> cases hd)
    · cases hd
    · cases hd
  case dist =>
    simp only [decodeCoded] at hd
    split at hd
    · simp only [distInstr] at hd
      split at hd <;> first | cases hd | exact extra hd | (split at hd <;> cases hd)
    · cases hd
    · cases hd
  case trailer => cases hd

/-- What the engine does in a running job: it runs the instruction of its control point, the cursor past its bits; or the
input is exhausted, the cursor at E (at 0 for a header of fewer than two bytes); or a code is none. -/
theorem engineAction_cases {s : State} (h : s.Inv) (hb : s.busy = true) :
    (∃ (i : Instr) (p : Word), engineAction s = .run i { s with inPos := p } ∧ Row.expect i.parts.row = s.expect
        ∧ (i.wf = true ∧ ∀ w, i ≠ .hostStart w) ∧ s.inPos.toNat ≤ p.toNat ∧ p.toNat ≤ 8 * s.e.toNat
        ∧ (s.expect ≠ .zlibHdr → s.expect ≠ .trailer → s.inPos.toNat < p.toNat)
        ∧ (s.expect = .zlibHdr ∨ s.expect = .trailer → p = s.inPos) ∧ (s.expect = .zlibHdr → 2 ≤ s.n.toNat))
    ∨ (∃ (got : List Nat) (p : Word),
        engineAction s = .settled (.next (raise .inputExhausted (latchPart s.format got { s with inPos := p })))
        ∧ s.expect ≠ .trailer ∧ (s.expect = .zlibHdr → p = s.inPos ∧ s.n.toNat < 2)
        ∧ (s.expect ≠ .zlibHdr → p.toNat = 8 * s.e.toNat))
    ∨ (∃ p : Word, engineAction s = .settled (.next (raise .huffmanDecodeOutOfRange { s with inPos := p }))
        ∧ s.inPos.toNat ≤ p.toNat ∧ p.toNat ≤ 8 * s.e.toNat ∧ s.expect ≠ .zlibHdr ∧ s.expect ≠ .trailer) := by
  have hs := h.stop_lt hb
  have hp := h.cursor_le hb
  by_cases hz : s.expect = .zlibHdr
  · have hf : s.format = .zlibHdr := by unfold State.format; rw [hz]
    by_cases hn : s.n.toNat < 2
    · refine .inr (.inl ⟨[], s.inPos, ?_, by rw [hz]; decide, fun _ => ⟨rfl, hn⟩, fun hx => absurd hz hx⟩)
      exact engineAction_exhausted (r := s.reader) hb (by simp [hf, decode, State.reader, hn])
    · refine .inl ⟨.zlibHdr (s.inMem.read 0) (s.inMem.read 1), s.inPos, ?_, hz.symm, ⟨rfl, fun _ => nofun⟩, le_refl _, hp,
        fun hx => absurd hz hx, fun _ => rfl, fun _ => by omega⟩
      exact engineAction_ok (r := s.reader) hb (by simp [hf, decode, State.reader, hn])
  · by_cases ht : s.expect = .trailer
    · have hf : s.format = .trailer := by unfold State.format; rw [ht]
      refine .inl ⟨.adlerTrailer (trailerValue s.inMem s.n.toNat), s.inPos, ?_, ht.symm, ⟨rfl, fun _ => nofun⟩, le_refl _,
          hp,
        fun _ hx => absurd ht hx, fun _ => rfl, fun hx => absurd hx hz⟩
      exact engineAction_ok (r := s.reader) hb (by rw [hf]; rfl)
    · have hfz : s.format ≠ .zlibHdr := by
        intro hf; have := format_row_expect s; rw [hf] at this; exact hz this.symm
      have hft : s.format ≠ .trailer := by
        intro hf; have := format_row_expect s; rw [hf] at this; exact ht this.symm
      have hm : s.format.minBits = 1 := by
        cases hx : s.format <;> first | rfl | exact absurd hx hfz | exact absurd hx hft
      have hl := decode_lands (f := s.format) hs hp (fun hx => absurd hx hfz)
      rw [hm] at hl
      cases hd : decode s.format s.reader with
      | ok i r =>
        rw [hd] at hl
        obtain ⟨k, h1, rfl, h3⟩ := hl
        have hk := Reader.skip_toNat hs h3
        obtain ⟨hrow, hwf⟩ := decode_row hd
        refine .inl ⟨i, (s.reader.skip k).pos, engineAction_ok hb hd, by rw [hrow]; exact format_row_expect s,
          ⟨hwf, fun w hw => ?_⟩, ?_, ?_,
          fun _ _ => ?_, fun hx => hx.elim (fun hx => absurd hx hz) (fun hx => absurd hx ht), fun hx => absurd hx hz⟩
        · subst hw; exact hz ((format_row_expect s).symm.trans (congrArg Row.expect hrow.symm))
        · rw [hk]; exact Nat.le_add_right _ _
        · rw [hk]; exact h3
        · rw [hk]; exact Nat.lt_add_of_pos_right h1
      | exhausted got r =>
        rw [hd] at hl
        obtain ⟨k, rfl, h3⟩ := hl
        have hk := Reader.skip_toNat hs (le_of_eq h3)
        exact .inr (.inl ⟨got, _, engineAction_exhausted hb hd, ht, fun hx => absurd hx hz,
            fun _ => by rw [hk]; exact h3⟩)
      | noCode r =>
        rw [hd] at hl
        obtain ⟨k, rfl, h3⟩ := hl
        have hk := Reader.skip_toNat hs h3
        refine .inr (.inr ⟨_, engineAction_noCode hb hd, ?_, ?_, hz, ht⟩)
        · rw [hk]; exact Nat.le_add_right _ _
        · rw [hk]; exact h3
      | noClSymbol r => exact absurd hd (decode_ne_noClSymbol h hb)

theorem Reader.getBit_end {r : Reader} (h : r.pos.toNat = 8 * r.stop) : r.getBit = .exhausted r := by
  have : r.stop ≤ byteOff r.pos := by simp only [byteOff]; omega
  simp only [Reader.getBit, this, if_true]

theorem Reader.getBits_end {n : Nat} {r : Reader} (h : r.pos.toNat = 8 * r.stop) (hn : 0 < n) :
    r.getBits n = .exhausted r := by
  cases n with
  | zero => omega
  | succ n => simp only [Reader.getBits, Reader.getBit_end h]

theorem decodeSym_end {t : Huff} {r : Reader} (h : r.pos.toNat = 8 * r.stop) (ht : t.counts.length = 16) :
    decodeSym t r = .exhausted r := by
  have : ∃ c cs, (t.counts.drop 1).take Config.maxBits = c :: cs := by
    cases hx : (t.counts.drop 1).take Config.maxBits with
    | nil => have := congrArg List.length hx; simp [ht, Config.maxBits] at this
    | cons c cs => exact ⟨c, cs, rfl⟩
  obtain ⟨c, cs, hx⟩ := this
  simp only [decodeSym, hx, decodeFrom, Reader.getBit_end h]

/-- At the end of the region every format with bits is exhausted (60_exceptions.md R341). -/
theorem engineAction_end {s : State} (h : s.Inv) (hb : s.busy = true) (hz : s.expect ≠ .zlibHdr)
    (ht : s.expect ≠ .trailer) (hp : s.inPos.toNat = 8 * s.e.toNat) :
    ∃ (got : List Nat), engineAction s = .settled (.next (raise .inputExhausted (latchPart s.format got s))) := by
  have hr : s.reader.pos.toNat = 8 * s.reader.stop := hp
  have hlt : s.lt.counts.length = 16 := by
    unfold State.lt; split
    · rfl
    · simp only [HuffTable.code, List.length_map]; exact h.rams.2.1.1
  have hdt : s.dt.counts.length = 16 := by
    unfold State.dt; split
    · rfl
    · simp only [HuffTable.code, List.length_map]; exact h.rams.2.2.1.1
  have hcl : s.clT.code.counts.length = 16 := by simp only [HuffTable.code, List.length_map]; exact h.rams.1.1
  have hx : decode s.format s.reader = .exhausted [] s.reader := by
    unfold State.format
    cases he : s.expect <;> simp only [decode]
    case zlibHdr => exact absurd he hz
    case blkHdr => simp only [decodeBlkHdr, Reader.getBit_end hr]
    case storedLen =>
      have : (if s.align = true then s.reader.align else s.reader) = s.reader := by
        split
        · have : bitOff s.reader.pos = 0 := by simp only [bitOff]; omega
          simp only [Reader.align, alignPos, this, if_true]
        · rfl
      rw [this]
      simp only [decodeStoredLen, Reader.getBits_end hr (by omega : 0 < 16)]
    case storedByte => simp only [withExtra, Reader.getBits_end hr (by omega : 0 < 8)]
    case dynHdr => simp only [decodeDynHdr, Reader.getBits_end hr (by omega : 0 < 5)]
    case clCodelen => simp only [withExtra, Reader.getBits_end hr (by omega : 0 < 3)]
    case clSym => simp only [decodeCoded, decodeSym_end hr hcl]
    case litLen => simp only [decodeCoded, decodeSym_end hr hlt]
    case dist => simp only [decodeCoded, decodeSym_end hr hdt]
    case trailer => exact absurd he ht
  exact ⟨[], engineAction_exhausted hb hx⟩

/-- The host's pending moves are no part of the invariant. -/
theorem State.Inv.with_moves {s : State} (h : s.Inv) (m : List HostMove) : State.Inv { s with hostMoves := m } :=
  ⟨h.1, h.2, h.3, h.4, h.5, h.6, h.7, h.8, h.9, h.10, h.11⟩

/-- Appended output keeps the data part. -/
theorem State.Data.of_appended {s t : State} {bs : List Byte} {b : State} (hd : s.Data) (hcap : s.cap.toNat ≤ s.params.outMemSize) (ha : s.appended t bs)
    (hl : bs = [] ∨ s.outLen.toNat + bs.length ≤ s.cap.toNat) (hw : t.outMem.wf = true ∧ t.window.wf = true)
    (hsame : State.sameButOutput b t) (hb : b.params = s.params ∧ b.inMem = s.inMem ∧ b.clT = s.clT ∧ b.litT = s.litT ∧ b.distT = s.distT ∧ b.clLens = s.clLens ∧ b.lens = s.lens ∧ b.inLen = s.inLen ∧ b.outCap = s.outCap) : t.Data := by
  obtain ⟨h1, h2, h3, h4, h5, h6, h7, h8, h9⟩ := hb
  have e1 := (sameButOutput_params hsame).trans h1
  have e2 := (sameButOutput_inMem hsame).trans h2
  have e3 := (sameButOutput_clT hsame).trans h3
  have e4 := (sameButOutput_litT hsame).trans h4
  have e5 := (sameButOutput_distT hsame).trans h5
  have e6 := (sameButOutput_clLens hsame).trans h6
  have e7 := (sameButOutput_lens hsame).trans h7
  have e8 := (sameButOutput_inLen hsame).trans h8
  have e9 := (sameButOutput_outCap hsame).trans h9
  have hb := State.below_appended (size := s.params.outMemSize) ha hd.canonical.2 hw hd.inSpace.2 (hl.imp id (fun h => le_trans h hcap))
  refine ⟨by rw [e1]; exact hd.params, ⟨by rw [e2]; exact hd.canonical.1, hw⟩, ⟨by rw [e2, e1]; exact hd.inSpace.1, by rw [e1]; exact hb⟩, ?_, ?_, State.sums_appended ha hd.sums, State.pointer_appended ha hd.pointer⟩
  · unfold State.ramsSized; rw [e3, e4, e5, e6, e7]; exact hd.rams
  · unfold State.lengthsLegal; rw [e8, e9, e1]; exact hd.lengths

/-- The end of a block's body keeps the invariant. -/
theorem State.Inv.of_endOfBody {s : State} (d : s.Data) (hb : s.busy = true)
    (h : s.done = false ∧ s.error = false ∧ s.errcode = 0) (hl : s.latchesFollow)
    (hc : 16 < s.inPos.toNat ∧ s.inPos.toNat ≤ 8 * s.e.toNat) : (endOfBody s).Inv := by
  unfold endOfBody
  split
  · rename_i hf
    refine State.Inv.of_running ⟨d.1, d.2, d.3, d.4, d.5, d.6, d.7⟩ hb h ⟨nofun, nofun, nofun⟩ hl ?_ ⟨rfl, hf⟩
    simp only [State.cursorInRegion, reduceCtorEq, if_false]; exact hc
  · refine State.Inv.of_running ⟨d.1, d.2, d.3, d.4, d.5, d.6, d.7⟩ hb h ⟨nofun, nofun, nofun⟩ hl ?_ rfl
    simp only [State.cursorInRegion, reduceCtorEq, if_false, if_true]; omega


/-- A write of code lengths and the loop test keep the invariant. -/
theorem nextClSym_inv {s : State} {p : Word} {rep : Nat} {v : BitVec 4} (h : s.Inv) (hb : s.busy = true) (he : s.expect = .clSym) 
   (hp : s.inPos.toNat < p.toNat) (hp2 : p.toNat ≤ 8 * s.e.toNat) (hle : s.num.toNat + rep ≤ s.hlit.toNat + s.hdist.toNat) :
   State.Inv (nextClSym (writeLens rep v { s with inPos := p })) := by
  have hcur := h.cursor hb
  have hctl := h.control hb
  have hlat := h.latches hb
  obtain ⟨r1, r2, r3, r4, r5, r6⟩ := h.running hb
  have d := h.data
  simp only [State.cursorInRegion, he, reduceCtorEq, if_false] at hcur
  rw [State.controlLegal, he] at hctl
  simp only at hctl
  obtain ⟨w1, w2, w3, w4, w5⟩ := nextClSym_writeLens (s := { s with inPos := p }) (rep := rep) (v := v) hctl.2.1 d.4.2.2.2.2 hle
  have w1 : (nextClSym (writeLens rep v { s with inPos := p })).lens.length = 320 := by rw [w1]; exact d.4.2.2.2.2
  by_cases hlt : s.num.toNat + rep < s.hlit.toNat + s.hdist.toNat
  · rw [w4 hlt]
    refine State.Inv.of_running ⟨d.1, d.2, d.3, ⟨d.4.1, d.4.2.1, d.4.2.2.1, d.4.2.2.2.1, w1⟩, d.5, d.6, d.7⟩ hb ⟨r1, r2,
        r3⟩ ⟨r4, r5, r6⟩ hlat ?_ ⟨hctl.1, hctl.2.1, ?_⟩
    · simp only [State.cursorInRegion, reduceCtorEq, if_false]; omega
    · have : (nextClSym (writeLens rep v { s with inPos := p })).num.toNat < s.hlit.toNat + s.hdist.toNat := by rw [w3]; exact hlt
      exact this
  · have heq : s.num.toNat + rep = s.hlit.toNat + s.hdist.toNat := by omega
    rw [w5 heq]
    obtain ⟨c1, c2, c3, c4, -⟩ := hctl.2.1
    refine State.Inv.of_running ⟨d.1, d.2, d.3, ⟨d.4.1, buildTable_sized d.4.2.1 lens_le ?_,
        buildTable_sized d.4.2.2.1 lens_le ?_, d.4.2.2.2.1, w1⟩, d.5, d.6, d.7⟩ hb ⟨r1, r2, r3⟩ ⟨nofun, nofun,
        nofun⟩ hlat ?_ (.inr ⟨rfl, rfl⟩)
    · simp only [List.length_map, List.length_take]; omega
    · simp only [List.length_map, List.length_take]; omega
    · simp only [State.cursorInRegion, reduceCtorEq, if_false]; omega

/-- An instruction of the stream keeps the invariant, from the state its fetch left. -/
theorem exec_inv {s t : State} {i : Instr} {p : Word} (h : s.Inv) (hb : s.busy = true)
    (hrow : Row.expect i.parts.row = s.expect) (hnh : ∀ w, i ≠ .hostStart w)
    (hp2 : p.toNat ≤ 8 * s.e.toNat)
    (hp3 : s.expect ≠ .zlibHdr → s.expect ≠ .trailer → s.inPos.toNat < p.toNat) 
    (hx : exec i { s with inPos := p } = .next t) : t.Inv := by
  have hcur := h.cursor hb
  have hctl := h.control hb
  have hlat := h.latches hb
  obtain ⟨r1, r2, r3, r4, r5, r6⟩ := h.running hb
  have d0 := h.data
  have d : State.Data { s with inPos := p } := ⟨d0.1, d0.2, d0.3, d0.4, d0.5, d0.6, d0.7⟩
  by_cases he : emitsOutput i = true
  · have hcapP : s.cap.toNat ≤ s.params.outMemSize := by rw [hlat.2.1]; exact d.5.2
    obtain ⟨bs, b1, b2, b3, b4, b5⟩ := exec_emits he d.2.2.1 d.2.2.2 hx
    have hlat' : ∀ {b : State}, State.sameButOutput b t → b.n = s.n ∧ b.inLen = s.inLen ∧ b.cap = s.cap ∧ b.outCap = s.outCap ∧ b.align = s.align ∧ b.storedAlign = s.storedAlign ∧ b.e = s.e → t.latchesFollow := by
      intro b hb2 ⟨g1, g2, g3, g4, g5, g6, g7⟩
      unfold State.latchesFollow at hlat ⊢
      rw [(sameButOutput_n hb2).trans g1, (sameButOutput_inLen hb2).trans g2, (sameButOutput_cap hb2).trans g3,
          (sameButOutput_outCap hb2).trans g4, (sameButOutput_align hb2).trans g5,
          (sameButOutput_storedAlign hb2).trans g6, (sameButOutput_e hb2).trans g7, b1.1]
      refine ⟨hlat.1, hlat.2.1, hlat.2.2.1, hlat.2.2.2.1, ?_⟩
      rcases b3 with rfl | b3
      · exact hlat.2.2.2.2
      · exact b3
    have hexp : s.expect = .storedByte ∨ s.expect = .litLen ∨ s.expect = .dist := by
      rw [← hrow]; cases i <;> simp only [emitsOutput, matchDistance, Option.isSome,
          Bool.false_eq_true] at he <;> simp [Instr.parts, Row.expect]
    have hp : 16 < p.toNat := by
      have := hp3 (by rcases hexp with e | e | e <;> rw [e] <;> decide) (by rcases hexp with e | e | e <;> rw [e] <;> decide)
      rcases hexp with e | e | e <;> simp only [State.cursorInRegion, e, reduceCtorEq, if_false] at hcur <;> omega
    rcases exec_outputEnd he hx with ⟨x, dd, e, -⟩ | ⟨dd, e, e2⟩ | ⟨⟨v, rfl⟩, e2, e⟩ | ⟨⟨v, rfl⟩, e⟩
    · have hd : t.Data := State.Data.of_appended d hcapP b1 b3 ⟨b4, b5⟩ e ⟨rfl, rfl, rfl, rfl, rfl, rfl, rfl, rfl, rfl⟩
      refine State.Inv.of_idle hd (sameButOutput_busy e) (.inr (.inr (.inr ⟨sameButOutput_busy e, sameButOutput_done e,
          sameButOutput_error e, ?_, ?_, sameButOutput_fsm e⟩)))
      · rw [sameButOutput_errcode e]; exact x.code_bounds.1
      · rw [sameButOutput_errcode e]; exact x.code_bounds.2
    · have hd : t.Data := State.Data.of_appended d hcapP b1 b3 ⟨b4, b5⟩ e ⟨rfl, rfl, rfl, rfl, rfl, rfl, rfl, rfl, rfl⟩
      have hbody : s.bodyOf := by
        have : s.expect = .litLen ∨ s.expect = .dist := by
          rcases e2 with e2 | ⟨⟨v, rfl⟩, -⟩
          · right; rw [← hrow]; cases i <;> first | rfl | (simp only [matchDistance, Option.isSome,
                Bool.false_eq_true] at e2)
          · exact .inl hrow.symm
        rcases this with g | g <;> rw [State.controlLegal, g] at hctl
        · exact hctl
        · exact hctl.1
      have hf := sameButOutput_fsm e
      refine State.Inv.of_running hd (by rw [sameButOutput_busy e]; exact hb) ⟨by rw [sameButOutput_done e]; exact r1, by rw [sameButOutput_error e]; exact r2, by rw [sameButOutput_errcode e]; exact r3⟩ ⟨by rw [hf]; exact r4, by rw [hf]; exact r5, by rw [hf]; exact r6⟩ (hlat' e ⟨rfl, rfl, rfl, rfl, rfl, rfl, rfl⟩) ?_ ?_
      · have := sameButOutput_inPos e; have g := sameButOutput_expect e; have g2 := sameButOutput_e e
        simp only at this g g2
        simp only [State.cursorInRegion, g, reduceCtorEq, if_false, this, g2]; omega
      · have g := sameButOutput_expect e; have g2 := sameButOutput_tables e
        unfold State.controlLegal State.bodyOf
        simp only at g
        rw [g, hf, g2]; exact hbody
    · have hd : t.Data := State.Data.of_appended d hcapP b1 b3 ⟨b4, b5⟩ e ⟨rfl, rfl, rfl, rfl, rfl, rfl, rfl, rfl, rfl⟩
      have hf := sameButOutput_fsm e
      have hes : s.expect = .storedByte := hrow.symm
      rw [State.controlLegal, hes] at hctl
      simp only at e2 hctl
      refine State.Inv.of_running hd (by rw [sameButOutput_busy e]; exact hb) ⟨by rw [sameButOutput_done e]; exact r1, by rw [sameButOutput_error e]; exact r2, by rw [sameButOutput_errcode e]; exact r3⟩ ⟨by rw [hf]; exact r4, by rw [hf]; exact r5, by rw [hf]; exact r6⟩ (hlat' e ⟨rfl, rfl, rfl, rfl, rfl, rfl, rfl⟩) ?_ ?_
      · have := sameButOutput_inPos e; have g := sameButOutput_expect e; have g2 := sameButOutput_e e
        simp only [hes] at this g g2
        simp only [State.cursorInRegion, g, reduceCtorEq, if_false, this, g2]; omega
      · have g := sameButOutput_expect e; have g2 := sameButOutput_storedLeft e; have g3 := sameButOutput_len e
        unfold State.controlLegal
        simp only [hes] at g
        rw [g, hf, g2, g3]; simp only; exact ⟨hctl.1, by omega, by omega⟩
    · have hes : s.expect = .storedByte := hrow.symm
      have hk : (endOfBody { s with inPos := p, storedLeft := 0 }).Inv := State.Inv.of_endOfBody (s := { s with inPos := p, storedLeft := 0 }) ⟨d.1, d.2, d.3, d.4, d.5, d.6, d.7⟩ hb ⟨r1, r2, r3⟩ hlat ⟨hp, hp2⟩
      have hkb : (endOfBody { s with inPos := p, storedLeft := 0 }).busy = true := by unfold endOfBody; split <;> exact hb
      have hd : t.Data := State.Data.of_appended d hcapP b1 b3 ⟨b4,
          b5⟩ e (by unfold endOfBody; split <;> exact ⟨rfl, rfl, rfl, rfl, rfl, rfl, rfl, rfl, rfl⟩)
      obtain ⟨q1, q2, q3, q4, q5, q6⟩ := hk.running hkb
      have hf := sameButOutput_fsm e
      refine State.Inv.of_running hd (by rw [sameButOutput_busy e]; exact hkb) ⟨by rw [sameButOutput_done e]; exact q1, by rw [sameButOutput_error e]; exact q2, by rw [sameButOutput_errcode e]; exact q3⟩ ⟨by rw [hf]; exact q4, by rw [hf]; exact q5, by rw [hf]; exact q6⟩ (hlat' e (by unfold endOfBody; split <;> exact ⟨rfl, rfl, rfl, rfl, rfl, rfl, rfl⟩)) ?_ ?_
      · have kc := hk.cursor hkb
        have kz : (endOfBody { s with inPos := p, storedLeft := 0 }).expect ≠ .zlibHdr := by unfold endOfBody; split <;> nofun
        unfold State.cursorInRegion at kc ⊢
        rw [if_neg kz] at kc
        rw [sameButOutput_expect e, if_neg kz, sameButOutput_inPos e, sameButOutput_e e]
        exact kc
      · have kc := hk.control hkb
        by_cases hbf : s.bfinal = true
        · have g1 : endOfBody { s with inPos := p, storedLeft := 0 } = { s with inPos := p, storedLeft := 0, fsm := .trailer, expect := .trailer } := by
            unfold endOfBody; rw [if_pos hbf]
          rw [g1] at e
          have g2 := sameButOutput_expect e
          have g3 := sameButOutput_fsm e
          have g4 := sameButOutput_bfinal e
          unfold State.controlLegal
          rw [g2]
          exact ⟨g3, g4.trans hbf⟩
        · have g1 : endOfBody { s with inPos := p, storedLeft := 0 } = { s with inPos := p, storedLeft := 0, fsm := .blockHeader, expect := .blkHdr } := by
            unfold endOfBody; rw [if_neg hbf]
          rw [g1] at e
          have g2 := sameButOutput_expect e
          have g3 := sameButOutput_fsm e
          unfold State.controlLegal
          rw [g2]
          exact g3
  · cases hl : matchLength i with
    | some n =>
      obtain ⟨n1, n2, hx2⟩ := matchLength_exec hl
      have he : s.expect = .litLen := by
        rw [← hrow]; cases i <;> first | rfl | (simp only [matchLength, reduceCtorEq] at hl)
      rw [hx2] at hx; cases hx
      have hp := hp3 (by rw [he]; decide) (by rw [he]; decide)
      rw [State.controlLegal, he] at hctl
      rw [State.cursorInRegion, he] at hcur
      refine State.Inv.of_running ⟨d.1, d.2, d.3, d.4, d.5, d.6, d.7⟩ hb ⟨r1, r2, r3⟩ ⟨r4, r5, r6⟩ hlat ?_ ?_
      · show State.cursorInRegion (lengthStep n { s with inPos := p })
        simp only [State.cursorInRegion, lengthStep, reduceCtorEq, if_false] at hcur ⊢; omega
      · refine ⟨hctl, ?_⟩
        show 3 ≤ (BitVec.ofNat 9 n).toNat ∧ _
        simp only [lengthStep, BitVec.toNat_ofNat]; omega
    | none =>
      cases i <;> first
        | (exact absurd rfl he)
        | (simp only [matchLength, reduceCtorEq] at hl; done)
        | (cases hx; exact State.Inv.of_raise _ d)
        | skip
      all_goals (have hex : s.expect = _ := hrow.symm; simp only [Instr.parts, Row.expect] at hex; simp only [State.cursorInRegion, hex, reduceCtorEq, if_false, if_true] at hcur;  rw [State.controlLegal, hex] at hctl; simp only [hex, reduceCtorEq, ne_eq, not_false_eq_true, not_true_eq_false, forall_const] at hp3)
      all_goals try simp only at hctl
      case zlibHdr c f =>
        simp only [exec, execZlibHdr] at hx; split at hx <;> cases hx
        · exact State.Inv.of_raise _ d
        · refine State.Inv.of_running ⟨d.1, d.2, d.3, d.4, d.5, d.6, d.7⟩ hb ⟨r1, r2, r3⟩ ⟨nofun, nofun,
              nofun⟩ hlat ?_ rfl
          show State.cursorInRegion _
          have := hlat.2.2.2.1
          have h16 : (cursorAt 2 0).toNat = 16 := rfl
          simp only [State.cursorInRegion, Run.state, reduceCtorEq, if_false, if_true, h16]; omega
      case blkStored f =>
        cases hx
        refine State.Inv.of_running ⟨d.1, d.2, d.3, d.4, d.5, d.6, d.7⟩ hb ⟨r1, r2, r3⟩ ⟨nofun, nofun, nofun⟩ hlat ?_ rfl
        show State.cursorInRegion _
        simp only [State.cursorInRegion, Run.state, latchBlock, reduceCtorEq, if_false]; omega
      case blkFixed f =>
        cases hx
        refine State.Inv.of_running ⟨d.1, d.2, d.3, d.4, d.5, d.6, d.7⟩ hb ⟨r1, r2, r3⟩ ⟨nofun, nofun,
            nofun⟩ hlat ?_ (.inl ⟨rfl, rfl⟩)
        show State.cursorInRegion _
        simp only [State.cursorInRegion, Run.state, latchBlock, reduceCtorEq, if_false]; omega
      case blkDynamic f =>
        cases hx
        refine State.Inv.of_running ⟨d.1, d.2, d.3, d.4, d.5, d.6, d.7⟩ hb ⟨r1, r2, r3⟩ ⟨nofun, nofun, nofun⟩ hlat ?_ rfl
        show State.cursorInRegion _
        simp only [State.cursorInRegion, Run.state, latchBlock, reduceCtorEq, if_false]; omega
      case blkReserved f => cases hx; exact State.Inv.of_raise _ ⟨d.1, d.2, d.3, d.4, d.5, d.6, d.7⟩
      case storedLen a b =>
        simp only [exec, execStoredLen] at hx
        split at hx
        · cases hx; exact State.Inv.of_raise _ ⟨d.1, d.2, d.3, d.4, d.5, d.6, d.7⟩
        · split at hx
          · cases hx
            exact State.Inv.of_endOfBody (s := { s with inPos := p, len := a, nlen := b, storedLeft := 0 }) ⟨d.1, d.2,
                d.3, d.4, d.5, d.6, d.7⟩ hb ⟨r1, r2, r3⟩ hlat (by simp only; omega)
          · rename_i h0
            cases hx
            refine State.Inv.of_running ⟨d.1, d.2, d.3, d.4, d.5, d.6, d.7⟩ hb ⟨r1, r2, r3⟩ ⟨r4, r5, r6⟩ hlat ?_ ⟨hctl,
                ?_, le_refl _⟩
            · show State.cursorInRegion _
              simp only [State.cursorInRegion, Run.state, reduceCtorEq, if_false]; omega
            · show 1 ≤ a.toNat
              by_contra hc
              exact h0 (BitVec.eq_of_toNat_eq (by simp; omega))
      case dynHdr a b c =>
        cases hx
        have e1 := a.isLt
        have e2 := b.isLt
        have e3 := c.isLt
        have hcc : State.countsLegal (Run.state (.go ({ clearLens { s with inPos := p } with
              hlit := BitVec.ofNat 9 (basePlus 257 a)
              hdist := BitVec.ofNat 6 (basePlus 1 b)
              hclen := BitVec.ofNat 5 (basePlus 4 c)
              clIndex := 0
              expect := .clCodelen }))) := by
          simp only [State.countsLegal, Run.state, basePlus, BitVec.toNat_ofNat]; omega
        refine State.Inv.of_running ⟨d.1, d.2, d.3, ⟨d.4.1, d.4.2.1, d.4.2.2.1, List.length_replicate,
            List.length_replicate⟩, d.5, d.6, d.7⟩ hb ⟨r1, r2, r3⟩ ⟨r4, r5, r6⟩ hlat ?_ ⟨hctl, hcc, ?_⟩
        · show State.cursorInRegion _
          simp only [State.cursorInRegion, Run.state, reduceCtorEq, if_false, clearLens]; omega
        · have := hcc.2.2.2.2.1
          exact Nat.lt_of_lt_of_le (by decide : 0 < 4) this
      case clCodelen v =>
        simp only [exec, execClCodelen] at hx
        have hlen : (s.clLens.set (clOrder.getD s.clIndex Config.clN) v).length = 19 := by rw [List.length_set]; exact d.4.2.2.2.1
        split at hx <;> rename_i hlt <;> cases hx
        · refine State.Inv.of_running ⟨d.1, d.2, d.3, ⟨d.4.1, d.4.2.1, d.4.2.2.1, hlen, d.4.2.2.2.2⟩, d.5, d.6,
              d.7⟩ hb ⟨r1, r2, r3⟩ ⟨r4, r5, r6⟩ hlat ?_ ?_
          · show State.cursorInRegion _
            simp only [State.cursorInRegion, Run.state, hex, reduceCtorEq, if_false]; omega
          · show State.controlLegal _
            unfold State.controlLegal
            simp only [Run.state, hex]
            exact ⟨hctl.1, hctl.2.1, hlt⟩
        · have hb19 := buildTable_sized (lengths := (s.clLens.set (clOrder.getD s.clIndex Config.clN) v).map BitVec.toNat) d.4.1 clLens_le (by rw [List.length_map, hlen])
          refine State.Inv.of_running ⟨d.1, d.2, d.3, ⟨hb19, d.4.2.1, d.4.2.2.1, hlen, d.4.2.2.2.2⟩, d.5, d.6,
              d.7⟩ hb ⟨r1, r2, r3⟩ ⟨r4, r5, r6⟩ hlat ?_ ?_
          · show State.cursorInRegion _
            simp only [State.cursorInRegion, Run.state, reduceCtorEq, if_false]; omega
          · refine ⟨hctl.1, hctl.2.1, ?_⟩
            have h1 := hctl.2.1.1
            have h2 := hctl.2.1.2.2.1
            show (0 : BitVec 9).toNat < s.hlit.toNat + s.hdist.toNat
            have : (0 : BitVec 9).toNat = 0 := rfl
            omega
      case clLen v => cases hx; exact nextClSym_inv h hb hex hp3 hp2 (by have := hctl.2.2; simp only [State.lensTotal] at this; omega)
      case clRepPrev e =>
        simp only [exec, execClRepPrev] at hx
        split at hx
        · cases hx; exact State.Inv.of_raise _ d
        · simp only [repeatLens] at hx; split at hx <;> cases hx
          · exact State.Inv.of_raise _ d
          · rename_i hle
            exact nextClSym_inv h hb hex hp3 hp2 (by simp only [State.lensTotal] at hle; omega)
      case clRepZero3 e =>
        simp only [exec, execClRepZero3, repeatLens] at hx; split at hx <;> cases hx
        · exact State.Inv.of_raise _ d
        · rename_i hle
          exact nextClSym_inv h hb hex hp3 hp2 (by simp only [State.lensTotal] at hle; omega)
      case clRepZero11 e =>
        simp only [exec, execClRepZero11, repeatLens] at hx; split at hx <;> cases hx
        · exact State.Inv.of_raise _ d
        · rename_i hle
          exact nextClSym_inv h hb hex hp3 hp2 (by simp only [State.lensTotal] at hle; omega)
      case eob =>
        cases hx
        exact State.Inv.of_endOfBody d hb ⟨r1, r2, r3⟩ hlat (by simp only; omega)
      case adlerTrailer v =>
        simp only [exec, execAdlerTrailer] at hx; split at hx <;> cases hx
        · exact State.Inv.of_raise _ ⟨d.1, d.2, d.3, d.4, d.5, d.6, d.7⟩
        · exact State.Inv.of_idle ⟨d.1, d.2, d.3, d.4, d.5, d.6, d.7⟩ rfl (.inr (.inr (.inl ⟨rfl, rfl, r2, r3, rfl⟩)))
      case hostStart w => exact absurd rfl (hnh w)

/-- The RAMs of the reset state have their sizes. -/
theorem reset_rams : State.reset.ramsSized := by
  refine ⟨⟨rfl, rfl, ?_⟩, ⟨rfl, List.length_replicate, ?_⟩, ⟨rfl, List.length_replicate, ?_⟩, rfl,
      List.length_replicate⟩ <;>
  (intro x hx; rw [List.eq_of_mem_replicate hx]; decide)

/-- HOST_START keeps the invariant. -/
theorem execHostStart_inv {s t : State} {w : BitVec 32} (h : s.Inv) (hx : exec (.hostStart w) s = .next t) : t.Inv := by
  simp only [exec, execHostStart] at hx
  split at hx <;> cases hx
  · exact h
  · refine State.Inv.of_running ⟨h.1, h.2, h.3, h.4, h.5, ?_, ?_⟩ rfl ⟨rfl, rfl, rfl⟩ ⟨nofun, nofun, nofun⟩ ⟨rfl, rfl,
        rfl, ?_, Nat.zero_le _⟩ ?_ rfl
    · exact ⟨(by decide : (1 : Half).toNat < Config.adlerMod), (by decide : (0 : Half).toNat < Config.adlerMod)⟩
    · rfl
    · show (BitVec.ofNat 32 (max 2 (s.inLen.toNat - 4))).toNat = max 2 (s.inLen.toNat - 4)
      have := s.inLen.isLt
      simp only [BitVec.toNat_ofNat]; omega
    · exact ⟨rfl, rfl⟩

/-- The latches of a field group cut short are no part of the data part but for the cleared arrays. -/
theorem latchPart_data {f : Format} {got : List Nat} {s : State} (d : s.Data) : (latchPart f got s).Data := by
  unfold latchPart
  split <;> first
    | exact d
    | exact ⟨d.1, d.2, d.3, d.4, d.5, d.6, d.7⟩
    | exact ⟨d.1, d.2, d.3, ⟨d.4.1, d.4.2.1, d.4.2.2.1, List.length_replicate, List.length_replicate⟩, d.5, d.6, d.7⟩

/-- The decoder of the stream never gives HOST_START. -/
theorem row_not_host {i : Instr} {s : State} {r : Reader} (hr : decode s.format s.reader = .ok i r) : ∀ w, i ≠ .hostStart w := by
  intro w hw
  subst hw
  have := (decode_row hr).1
  unfold State.format at this
  cases he : s.expect <;> rw [he] at this <;> cases this

/-- An action of the engine keeps the invariant. -/
theorem engineAction_inv {s t : State} (h : s.Inv) (hx : (engineAction s).outcome = .next t) : t.Inv := by
  cases hb : s.busy with
  | false => rw [engineAction_idle hb] at hx; cases hx; exact h
  | true =>
    rcases engineAction_cases h hb with ⟨i, p, e1, e2, e3, e4, e5, e6, e7, e8⟩ | ⟨got, p, e1, e2, e3, e4⟩ | ⟨p, e1, e2⟩
    · rw [e1] at hx
      exact exec_inv h hb e2 e3.2 e5 e6 hx
    · rw [e1] at hx; cases hx
      have d := h.data
      exact State.Inv.of_raise _ (latchPart_data ⟨d.1, d.2, d.3, d.4, d.5, d.6, d.7⟩)
    · rw [e1] at hx; cases hx
      have d := h.data
      exact State.Inv.of_raise _ ⟨d.1, d.2, d.3, d.4, d.5, d.6, d.7⟩

/-- The host's side of the state is no part of the invariant. -/
theorem State.Inv.of_hostSide {s t : State} (h : s.Inv) (hb : t = { s with hostMoves := t.hostMoves, busData := t.busData, draws := t.draws }) : t.Inv := by
  rw [hb]; exact ⟨h.1, h.2, h.3, h.4, h.5, h.6, h.7, h.8, h.9, h.10, h.11⟩

/-- A length register keeps a legal value. -/
theorem legalLength_le {v : Word} {n : Nat} : (legalLength v n).toNat ≤ n := by
  simp only [legalLength, BitVec.toNat_ofNat]
  exact le_trans (Nat.mod_le _ _) (Nat.min_le_right _ _)

/-- A change of data while no job runs keeps the invariant. -/
theorem State.Inv.of_idle_update {s t : State} (h : s.Inv) (hb : s.busy = false) (d : t.Data) (h2 : t.busy = s.busy ∧ t.done = s.done ∧ t.error = s.error ∧ t.errcode = s.errcode ∧ t.fsm = s.fsm) : t.Inv := by
  refine State.Inv.of_idle d (h2.1.trans hb) ?_
  unfold State.statusLegal
  rw [h2.1, h2.2.1, h2.2.2.1, h2.2.2.2.1, h2.2.2.2.2]
  exact h.status

/-- What a step of the engine does to a running job: an instruction of the stream runs, keeps the job's inputs and appends
some output; or a failed fetch raises its error with the cursor where reading stopped. -/
theorem engine_run {s t : State} (h : s.Inv) (hb : s.busy = true) (hx : (engineAction s).outcome = .next t) :
    (∃ (i : Instr) (p : Word), exec i { s with inPos := p } = .next t ∧ Row.expect i.parts.row = s.expect
        ∧ (∀ w, i ≠ .hostStart w) ∧ (s.inPos.toNat ≤ p.toNat ∧ p.toNat ≤ 8 * s.e.toNat
          ∧ (s.expect ≠ .zlibHdr → s.expect ≠ .trailer → s.inPos.toNat < p.toNat)
          ∧ (s.expect = .zlibHdr ∨ s.expect = .trailer → p = s.inPos) ∧ (s.expect = .zlibHdr → 2 ≤ s.n.toNat))
        ∧ s.SameInputs t ∧ (t.inPos = p ∨ (s.expect = .zlibHdr ∧ t.inPos = 16))
        ∧ StatusAfter i { s with inPos := p } t
        ∧ ∃ bs, s.appended t bs ∧ (bs.length ≤ 1 ∨ (s.expect = .dist ∧ bs.length ≤ s.length.toNat))
          ∧ (bs = [] ∨ s.outLen.toNat + bs.length ≤ s.cap.toNat))
    ∨ (∃ x : JobError, s.SameInputs t ∧ s.SameOutput t ∧ s.inPos.toNat ≤ t.inPos.toNat
        ∧ t.inPos.toNat ≤ 8 * s.e.toNat ∧ t.busy = false ∧ t.done = false ∧ t.error = true ∧ t.errcode = x.code
        ∧ t.fsm = .error ∧ t.trailer = s.trailer) := by
  have hcur := h.cursor_le hb
  rcases engineAction_cases h hb with ⟨i, p, e1, e2, e3, e4, e5, e6, e7, e8⟩ | ⟨got, p, e1, e2, e3, e4⟩ | ⟨p, e1, e2, e3,
      e4, e5⟩
  · rw [e1] at hx
    simp only [Action.outcome] at hx
    refine .inl ⟨i, p, hx, e2, e3.2, ⟨e4, e5, e6, e7, e8⟩, ?_⟩
    have back : ∀ {u : State}, State.SameInputs { s with inPos := p } u → s.SameInputs u :=
      fun g => ⟨g.1, g.2, g.3, g.4, g.5, g.6, g.7, g.8, g.9, g.10, g.11, g.12⟩
    by_cases hem : emitsOutput i = true
    · obtain ⟨g1, g2, g3⟩ := exec_output_inputs hem hx
      obtain ⟨bs, b1, b2, b3, -⟩ := exec_emits (s := { s with inPos := p }) hem h.canonical.2.1 h.canonical.2.2 hx
      refine ⟨back g1, .inl g2, g3, bs, b1, ?_, b3⟩
      rcases b2 with b2 | ⟨hd, b2⟩
      · exact .inl b2
      · refine .inr ⟨?_, b2⟩
        rw [← e2]
        cases i <;> first | rfl | (simp only [matchDistance, Option.isSome, Bool.false_eq_true] at hd)
    · obtain ⟨g1, g2, g3, g4⟩ := exec_quiet (by simpa using hem) e3.2 hx
      refine ⟨back g1, ?_, g4, [], ?_, .inl (Nat.zero_le _), .inl rfl⟩
      · rcases g3 with g3 | ⟨⟨a, b, rfl⟩, g3⟩
        · exact .inl g3
        · exact .inr ⟨e2.symm, g3⟩
      · have := State.appended_nil s
        unfold State.appended at this ⊢
        rw [g2.1, g2.2, g2.3, g2.4, g2.5, g2.6]
        exact this
  · rw [e1] at hx; cases hx
    refine .inr ⟨.inputExhausted, ?_⟩
    have hlp : (latchPart s.format got { s with inPos := p }).inPos = p := by unfold latchPart; split <;> rfl
    have hin : s.SameInputs (latchPart s.format got { s with inPos := p }) := by
      unfold latchPart; split <;> exact ⟨rfl, rfl, rfl, rfl, rfl, rfl, rfl, rfl, rfl, rfl, rfl, rfl⟩
    have hout : s.SameOutput (latchPart s.format got { s with inPos := p }) := by
      unfold latchPart; split <;> exact ⟨rfl, rfl, rfl, rfl, rfl, rfl⟩
    have htr : (latchPart s.format got { s with inPos := p }).trailer = s.trailer := by unfold latchPart; split <;> rfl
    refine ⟨⟨hin.1, hin.2, hin.3, hin.4, hin.5, hin.6, hin.7, hin.8, hin.9, hin.10, hin.11, hin.12⟩,
      ⟨hout.1, hout.2, hout.3, hout.4, hout.5, hout.6⟩, ?_, ?_, rfl, rfl, rfl, rfl, rfl, htr⟩
    all_goals
      rw [raise_inPos, hlp]
      by_cases hz : s.expect = .zlibHdr
      · rw [(e3 hz).1]
        try exact hcur
      · rw [e4 hz]
        try exact hcur
  · rw [e1] at hx; cases hx
    exact .inr ⟨.huffmanDecodeOutOfRange, ⟨rfl, rfl, rfl, rfl, rfl, rfl, rfl, rfl, rfl, rfl, rfl, rfl⟩,
      ⟨rfl, rfl, rfl, rfl, rfl, rfl⟩, e2, e3, rfl, rfl, rfl, rfl, rfl, rfl⟩

/-- A step of a running job that is no reset: the engine acts, or only the host's side changes. -/
theorem step_busy {s t : State} (h : s.Inv) (hb : s.busy = true) (hx : step s = .next t) (hr : ∀ rest, s.hostMoves ≠ .reset :: rest) :
   (∃ moves, State.Inv { s with hostMoves := moves } ∧ (engineAction { s with hostMoves := moves }).outcome = .next t)
   ∨ (∃ moves, t = { s with hostMoves := moves, busData := t.busData, draws := t.draws }) := by
  cases hm : s.hostMoves with
  | nil =>
    rw [step_nil hm] at hx
    exact .inl ⟨[], State.Inv.with_moves h [], by rw [← hm]; exact hx⟩
  | cons m moves =>
    rw [step_cons hm] at hx
    by_cases hp : m = .pass
    · subst hp
      exact .inl ⟨moves, State.Inv.with_moves h moves, hx⟩
    · exact .inr ⟨moves, hostAction_busy (s := { s with hostMoves := moves }) hb hp (fun hh => hr moves (by rw [hm, hh])) hx⟩

/-- Unchanged output is no output appended. -/
theorem State.SameOutput.appended {s t : State} (h : s.SameOutput t) : s.appended t [] := by
  have := State.appended_nil s
  unfold State.appended at this ⊢
  rw [h.1, h.2, h.3, h.4, h.5, h.6]; exact this

/-- A step of the engine in a running job appends output. -/
theorem engine_appends {s t : State} (h : s.Inv) (hb : s.busy = true) (hx : (engineAction s).outcome = .next t) :
   ∃ bs, s.appended t bs ∧ bs.length ≤ 511 := by
  have := s.length.isLt
  rcases engine_run h hb hx with ⟨i, p, e1, e2, e3, -, e9, e10, -, bs, e11, e12, e13⟩ | ⟨x, e1, e2, -⟩
  · exact ⟨bs, e11, by omega⟩
  · exact ⟨[], State.SameOutput.appended e2, by simp⟩

end Sys2Proof.Machine
end

