-- ==== Sys2Proof/Tests/Slice0.lean ====
section
/-! SUPPORT. The model's own tests. Expected values come from the spec: the encodings of 30_encoding.md, the ranges and the
vectors of 95_test_vectors.md (each test names its source). At the end: for each obligation with hypotheses, a
witness that meets them. -/

namespace Sys2Proof.Tests

set_option Elab.async false

open Sys2Proof Sys2Proof.Machine

/-! ### Well-formedness: an ill-formed term for each check -/

theorem test_wf_llReserved : (Instr.llReserved 285).wf = false ∧ (Instr.llReserved 288).wf = false := by decide
theorem test_wf_llReserved_ok : (Instr.llReserved 286).wf = true ∧ (Instr.llReserved 287).wf = true := by decide
theorem test_wf_distReserved : (Instr.distReserved 29).wf = false ∧ (Instr.distReserved 31).wf = true := by decide
theorem test_wf_hostStart : (Instr.hostStart 2).wf = false ∧ (Instr.hostStart 3).wf = true := by decide

/-! ### Decoding: words in read order, first bit leftmost, as 30_encoding.md and the rules of the codes write them -/

/-- A reader whose region starts with a word of `n` bits, written in read order, followed by zeros. -/
def reading (n w : Nat) : Reader :=
  let bytes := packBits (codeBits n w)
  { mem := storeBytes [] 2 bytes, n := bytes.length + 6, stop := bytes.length + 2, pos := 16 }

/-- Every word of the list decodes to its instruction, and every bit of it is consumed. -/
def decodesAll (f : Format) (words : List (Nat × Nat × Instr)) : Bool :=
  words.all fun (n, w, i) => decide (decode f (reading n w) = .ok i ((reading n w).skip n))

/-- R93, vector V1: 78 9C; R100: the trailer is big-endian. -/
theorem test_decode_bytes :
    decode .zlibHdr { mem := storeBytes [] 0 [0x78, 0x9C], n := 2, stop := 2, pos := 0 }
      = .ok (.zlibHdr 0x78 0x9C) { mem := storeBytes [] 0 [0x78, 0x9C], n := 2, stop := 2, pos := 0 }
    ∧ decode .trailer { mem := storeBytes [] 2 [0x06, 0x2C, 0x02, 0x15], n := 6, stop := 2, pos := 16 }
      = .ok (.adlerTrailer 0x062C0215) { mem := storeBytes [] 2 [0x06, 0x2C, 0x02, 0x15], n := 6, stop := 2, pos := 16 } := by
  decide +kernel

/-- R94: BFINAL, then BTYPE low bit first. -/
theorem test_decode_blocks : decodesAll .blkHdr
    [(3, 0b000, .blkStored false), (3, 0b100, .blkStored true), (3, 0b010, .blkFixed false), (3, 0b110, .blkFixed true),
     (3, 0b001, .blkDynamic false), (3, 0b101, .blkDynamic true), (3, 0b011, .blkReserved false),
     (3, 0b111, .blkReserved true)] = true := by decide +kernel

/-- Program P2, lines 3 and 4: STORED_LEN 6 and BYTE 0x68. -/
theorem test_decode_stored :
    decodesAll (.storedLen false) [(32, 0b01100000000000001001111111111111, .storedLen 6 0xFFF9)] = true
    ∧ decodesAll .storedByte [(8, 0b00010110, .storedByte 0x68)] = true := by decide +kernel

/-- R96 with R181: HLIT - 257 = 1, HDIST - 1 = 2, HCLEN - 4 = 8; one 3-bit length 6. -/
theorem test_decode_dynHdr :
    decodesAll .dynHdr [(14, 0b10000010000001, .dynHdr 1 2 8)] = true
    ∧ decodesAll .clCodelen [(3, 0b011, .clCodelen 6)] = true := by decide +kernel

/-- The code-length code of program P3: symbol 18 is `0`, 1 is `10`, 2 is `11`. -/
def p3ClTable : Huff :=
  (buildTable (HuffTable.zero 19) [0, 2, 2, 0, 0, 0, 0, 0, 0, 0, 0, 0, 0, 0, 0, 0, 0, 0, 1]).code

/-- A code-length code with symbol 0 `0`, 16 `10`, 17 `11`. -/
def repClTable : Huff :=
  (buildTable (HuffTable.zero 19) [1, 0, 0, 0, 0, 0, 0, 0, 0, 0, 0, 0, 0, 0, 0, 0, 2, 2, 0]).code

/-- R97: CL symbols with their extra bits, 2, 3 and 7 wide; the first of a header reads none after symbol 16 (R186). -/
theorem test_decode_cl :
    decodesAll (.clSym p3ClTable false)
      [(2, 0b10, .clLen 1), (2, 0b11, .clLen 2), (8, 0b01000000, .clRepZero11 1)] = true
    ∧ decodesAll (.clSym repClTable false)
      [(1, 0b0, .clLen 0), (4, 0b1001, .clRepPrev 2), (5, 0b11100, .clRepZero3 1)] = true
    ∧ decodesAll (.clSym repClTable true) [(2, 0b10, .clRepPrev 0)] = true := by decide +kernel

/-- R101: literals at the edges of each range, EOB, and the reserved symbols (H1, H3, H3b). -/
theorem test_decode_literals : decodesAll (.litLen fixedLit)
    [(8, 0b00110000, .lit 0x00), (8, 0b10111111, .lit 0x8F), (9, 0b110010000, .lit 0x90), (9, 0b111111111, .lit 0xFF),
     (8, 0b10010001, .lit 0x61), (7, 0b0000000, .eob), (8, 0b11000110, .llReserved 286),
     (8, 0b11000111, .llReserved 287)] = true := by decide +kernel

/-- The fixed codes of R215 to R243, each followed by its extra bits with only the first read set (value 1). -/
theorem test_decode_lengths : decodesAll (.litLen fixedLit) (
  [(7, 0b0000001, .len257), (7, 0b0000010, .len258), (7, 0b0000011, .len259),
   (7, 0b0000100, .len260), (7, 0b0000101, .len261), (7, 0b0000110, .len262),
   (7, 0b0000111, .len263), (7, 0b0001000, .len264), (8, 0b00010011, .len265 1),
   (8, 0b00010101, .len266 1), (8, 0b00010111, .len267 1), (8, 0b00011001, .len268 1),
   (9, 0b000110110, .len269 1), (9, 0b000111010, .len270 1), (9, 0b000111110, .len271 1)] ++
  [(9, 0b001000010, .len272 1), (10, 0b0010001100, .len273 1),
   (10, 0b0010010100, .len274 1), (10, 0b0010011100, .len275 1),
   (10, 0b0010100100, .len276 1), (11, 0b00101011000, .len277 1),
   (11, 0b00101101000, .len278 1), (11, 0b00101111000, .len279 1),
   (12, 0b110000001000, .len280 1), (13, 0b1100000110000, .len281 1),
   (13, 0b1100001010000, .len282 1), (13, 0b1100001110000, .len283 1),
   (13, 0b1100010010000, .len284 1), (8, 0b11000101, .len285)]) = true := by decide +kernel

/-- The fixed codes of R245 to R274, each followed by its extra bits with only the first read set (value 1). -/
theorem test_decode_distances : decodesAll (.dist fixedDist) (
  [(5, 0b00000, .dist0), (5, 0b00001, .dist1), (5, 0b00010, .dist2),
   (5, 0b00011, .dist3), (6, 0b001001, .dist4 1), (6, 0b001011, .dist5 1),
   (7, 0b0011010, .dist6 1), (7, 0b0011110, .dist7 1), (8, 0b01000100, .dist8 1),
   (8, 0b01001100, .dist9 1), (9, 0b010101000, .dist10 1), (9, 0b010111000, .dist11 1),
   (10, 0b0110010000, .dist12 1), (10, 0b0110110000, .dist13 1), (11, 0b01110100000, .dist14 1)] ++
  [(11, 0b01111100000, .dist15 1), (12, 0b100001000000, .dist16 1),
   (12, 0b100011000000, .dist17 1), (13, 0b1001010000000, .dist18 1),
   (13, 0b1001110000000, .dist19 1), (14, 0b10100100000000, .dist20 1),
   (14, 0b10101100000000, .dist21 1), (15, 0b101101000000000, .dist22 1),
   (15, 0b101111000000000, .dist23 1), (16, 0b1100010000000000, .dist24 1),
   (16, 0b1100110000000000, .dist25 1), (17, 0b11010100000000000, .dist26 1),
   (17, 0b11011100000000000, .dist27 1), (18, 0b111001000000000000, .dist28 1),
   (18, 0b111011000000000000, .dist29 1)]) = true := by decide +kernel

/-- R102: the fixed strings 11110 and 11111 have no symbol; the decode fails after 15 bits (H2, H2b). -/
theorem test_decode_no_code :
    decode (.dist fixedDist) (reading 15 0b111100000000000) = .noCode ((reading 15 0b111100000000000).skip 15)
    ∧ decode (.dist fixedDist) (reading 15 0b111111111111111) = .noCode ((reading 15 0b111111111111111).skip 15) := by
  decide +kernel

/-- R275, as in vector Y6: a table with a code for D symbol 30. -/
theorem test_decode_distReserved : decodesAll
    (.dist (buildTable (HuffTable.zero 288) ([1] ++ List.replicate 29 0 ++ [1])).code)
    [(1, 0b0, .dist0), (1, 0b1, .distReserved 30)] = true := by decide +kernel

/-- R300: START is bit 0 of the word written to CTRL (Q3, Q4, Q6). -/
theorem test_decode_host :
    decodeHost 3 = some (.hostStart 3) ∧ decodeHost 2 = none ∧ decodeHost 0xFFFFFFFC = none := by decide

/-- The numbers of opcode_table.json: one of each family. -/
theorem test_decode_table :
    decodeTableWord 3 6 = some (.blkReserved false) ∧ decodeTableWord 9 256 = some .eob
    ∧ decodeTableWord 9 285 = some .len285 ∧ decodeTableWord 5 3 = some .dist3
    ∧ decodeTableWord 32 0xFFFF0000 = some (.storedLen 0 0xFFFF) := by decide +kernel

/-! ### The code lengths of the encoder -/

/-- R92, R145: a coded word is its code, most significant bit first, then the extra bits, low bit first. -/
theorem test_encode : encode (.litLen fixedLit) (.len277 1) = some (codeBits 11 0b00101011000)
    ∧ encode (.dist fixedDist) (.dist29 8191) = some (codeBits 18 0b111011111111111111)
    ∧ encode (.dist fixedDist) (.distReserved 30) = none
    ∧ encode .dynHdr (.dynHdr 1 2 8) = some (codeBits 14 0b10000010000001) := by decide +kernel

/-! ### One instruction on a small state -/

/-- A field of the state an outcome answers. -/
def after {α : Type} (o : Outcome) (field : State → α) : Option α :=
  match o with
  | .next t => some (field t)
  | _ => none

/-- A running job with room for 300 bytes, the control point and FSM given. -/
def job (ex : Expect) (f : Fsm) : State :=
  { State.reset with
    busy := true
    fsm := f
    expect := ex
    inLen := 20
    n := 20
    e := 16
    outCap := 300
    cap := 300
    inPos := 24
    hlit := 257
    hdist := 1
    hclen := 4
    storedLeft := 1
    len := 1
    length := 3
    bfinal := true }

/-- Q6, Q10: HOST_START 3 with IN_LEN 13: E = 9, ALIGN = 1, BUSY = 1. -/
theorem test_hostStart : after (exec (.hostStart 3) { State.reset with inLen := 13, outCap := 16 })
    (fun t => (t.e, t.align, t.statusWord, t.fsmWord, t.adlerWord, t.cap)) = some (9, true, 1, 1, 1,
        16) := by decide +kernel

/-- Q9: HOST_START while BUSY = 1 is ignored. -/
theorem test_hostStart_busy : after (exec (.hostStart 1) (job .blkHdr .blockHeader)) (fun t => (t.inPos, t.align, t.fsm))
    = some (24, false, .blockHeader) := by decide +kernel

/-- V1: the header 78 9C is accepted. V4, V5b, S3, S4, S5, S6, S8: the checks and their order. -/
theorem test_zlibHdr :
    after (exec (.zlibHdr 0x78 0x9C) (job .zlibHdr .zlibHeader)) (fun t => (t.inPos, t.fsm)) = some (16, .blockHeader)
    ∧ [(0x79, 0x9C), (0x78, 0xBC), (0x88, 0x01), (0x78, 0x9D), (0x89, 0x00), (0x88, 0x20), (0x78, 0x20)].map
        (fun (c, f) => after (exec (.zlibHdr c f) (job .zlibHdr .zlibHeader)) State.statusWord)
      = [some 0x14, some 0x44, some 0x24, some 0x34, some 0x14, some 0x24, some 0x44] := by decide +kernel

/-- V2: BLK_FIXED. D1: BLK_RESERVED. R172, R174: the other two. -/
theorem test_blocks :
    after (exec (.blkFixed true) (job .blkHdr .blockHeader)) (fun t => (t.fsm, t.tables, t.btype)) = some (.fixed, .fixed,
        1)
    ∧ after (exec (.blkReserved true) (job .blkHdr .blockHeader)) (fun t => (t.statusWord, t.fsmWord)) = some (0x54, 9)
    ∧ after (exec (.blkStored false) (job .blkHdr .blockHeader)) (fun t => (t.fsm, t.bfinal)) = some (.stored, false)
    ∧ after (exec (.blkDynamic true) (job .blkHdr .blockHeader)) (fun t => (t.fsm, t.btype)) = some (.dynamicHeader,
        2) := by
  decide +kernel

/-- V6: LEN = 5. V6f, D3b: a mismatch. D3: LEN = 0 ends the body. -/
theorem test_storedLen :
    after (exec (.storedLen 5 0xFFFA) (job .storedLen .stored)) (fun t => (t.storedLeft, t.expect)) = some (5,
        .storedByte)
    ∧ after (exec (.storedLen 5 0xFFFB) (job .storedLen .stored)) State.statusWord = some 0x64
    ∧ after (exec (.storedLen 0xFFFF 0xFFFF) (job .storedLen .stored)) State.statusWord = some 0x64
    ∧ after (exec (.storedLen 0 0xFFFF) (job .storedLen .stored)) (fun t => t.fsm) = some .trailer := by decide +kernel

/-- B7: after the byte "h" OUT is "h" and ADLER 0x00690069. -/
theorem test_storedByte : after (exec (.storedByte 0x68) (job .storedByte .stored))
    (fun t => (t.output, t.adlerWord, t.wp, t.fsm)) = some ([0x68], 0x00690069, 1, .trailer) := by decide +kernel

/-- R181: the largest counts. -/
theorem test_dynHdr : after (exec (.dynHdr 31 31 15) (job .dynHdr .dynamicHeader)) (fun t => (t.hlit, t.hdist, t.hclen))
    = some (288, 32, 19) := by decide +kernel

/-- R182: the first length goes to entry 16; after the fourth of HCLEN = 4 the symbols follow, num 0. -/
theorem test_clCodelen :
    after (exec (.clCodelen 5) (job .clCodelen .dynamicHeader)) (fun t => (t.clLens.getD 16 0, t.clIndex)) = some (5, 1)
    ∧ after (exec (.clCodelen 1) { job .clCodelen .dynamicHeader with clIndex := 3 })
        (fun t => (t.clLens.getD 0 0, t.expect, t.num, t.clT.counts.getD 1 0)) = some (1, .clSym, 0,
            1) := by decide +kernel

/-- R185: one entry. -/
theorem test_clLen : after (exec (.clLen 9) { job .clSym .dynamicHeader with num := 7 })
    (fun t => (t.lens.getD 7 0, t.lens.getD 6 0, t.num)) = some (9, 0, 8) := by decide +kernel

/-- Y2: no previous length. Y3: extra 0 copies it 3 times. -/
theorem test_clRepPrev :
    after (exec (.clRepPrev 0) (job .clSym .dynamicHeader)) State.statusWord = some 0x74
    ∧ after (exec (.clRepPrev 0) { job .clSym .dynamicHeader with num := 1, lens := (job .clSym .dynamicHeader).lens.set 0 3 })
        (fun t => (t.lens.take 5, t.num)) = some ([3, 3, 3, 3, 0], 4) := by decide +kernel

/-- R187: 3 + 7 zeros; R188 with Y4: 138 zeros, and an overrun of 258 entries. -/
theorem test_clRepZeros :
    after (exec (.clRepZero3 7) (job .clSym .dynamicHeader)) (fun t => t.num) = some 10
    ∧ after (exec (.clRepZero11 127) (job .clSym .dynamicHeader)) (fun t => t.num) = some 138
    ∧ after (exec (.clRepZero11 127) { job .clSym .dynamicHeader with num := 138 }) State.statusWord = some 0xC4 := by
  decide +kernel

/-- Y4b: 138 + 120 = 258 entries end the loop, and the dynamic body begins. -/
theorem test_clRepZero11_ends : after (exec (.clRepZero11 109) { job .clSym .dynamicHeader with num := 138 })
    (fun t => (t.num, t.fsm, t.tables, t.expect)) = some (258, .dynamic, .dynamic, .litLen) := by decide +kernel

/-- V3: "a"; H1: 0xFF after nothing gives a = b = 256 (Adler-32 values of 2.6). Z4: CAP = 0. -/
theorem test_lit :
    after (exec (.lit 0x61) (job .litLen .fixed)) (fun t => (t.output, t.adlerWord, t.expect)) = some ([0x61], 0x00620062,
        .litLen)
    ∧ after (exec (.lit 0xFF) (job .litLen .fixed)) State.adlerWord = some 0x01000100
    ∧ after (exec (.lit 0x61) { job .litLen .fixed with cap := 0 }) (fun t => (t.statusWord, t.outLen)) = some (0xD4,
        0) := by
  decide +kernel

/-- V2, D2: EOB of a final and of a non-final block. -/
theorem test_eob :
    after (exec .eob (job .litLen .fixed)) (fun t => t.fsm) = some .trailer
    ∧ after (exec .eob { job .litLen .fixed with bfinal := false }) (fun t => t.fsm) = some .blockHeader := by decide +kernel

/-- H3 and Y6: the reserved symbols raise error 8. -/
theorem test_reserved :
    after (exec (.llReserved 286) (job .litLen .fixed)) State.statusWord = some 0x84
    ∧ after (exec (.distReserved 30) (job .dist .fixed)) State.statusWord = some 0x84 := by decide +kernel

/-- Each length code's instruction latches the length the table of 95_test_vectors.md 2.5 gives. -/
def latchesLengths (rows : List (Instr × Nat)) : Bool :=
  rows.all fun (i, n) => after (exec i (job .litLen .fixed)) (fun t => (t.length.toNat, t.expect)) == some (n, .dist)

theorem test_lengths_low : latchesLengths
  [(.len257, 3), (.len258, 4), (.len259, 5), (.len260, 6), (.len261, 7), (.len262, 8),
   (.len263, 9), (.len264, 10), (.len265 0, 11), (.len266 0, 13), (.len267 0, 15), (.len268 0, 17),
   (.len269 0, 19), (.len270 0, 23), (.len271 0, 27), (.len272 0, 31), (.len273 0, 35), (.len274 0, 43),
   (.len275 0, 51), (.len276 0, 59), (.len277 0, 67), (.len278 0, 83), (.len279 0, 99), (.len280 0, 115),
   (.len281 0, 131), (.len282 0, 163), (.len283 0, 195), (.len284 0, 227), (.len285, 258)] = true := by decide +kernel

theorem test_lengths_high : latchesLengths
  [(.len265 (BitVec.allOnes 1), 12), (.len266 (BitVec.allOnes 1), 14), (.len267 (BitVec.allOnes 1), 16),
   (.len268 (BitVec.allOnes 1), 18), (.len269 (BitVec.allOnes 2), 22), (.len270 (BitVec.allOnes 2), 26),
   (.len271 (BitVec.allOnes 2), 30), (.len272 (BitVec.allOnes 2), 34), (.len273 (BitVec.allOnes 3), 42),
   (.len274 (BitVec.allOnes 3), 50), (.len275 (BitVec.allOnes 3), 58), (.len276 (BitVec.allOnes 3), 66),
   (.len277 (BitVec.allOnes 4), 82), (.len278 (BitVec.allOnes 4), 98), (.len279 (BitVec.allOnes 4), 114),
   (.len280 (BitVec.allOnes 4), 130), (.len281 (BitVec.allOnes 5), 162), (.len282 (BitVec.allOnes 5), 194),
   (.len283 (BitVec.allOnes 5), 226), (.len284 (BitVec.allOnes 5), 258)] = true := by decide +kernel

/-- Each distance code's instruction latches the distance the table of 95_test_vectors.md 2.5 gives and copies 3 bytes. -/
def copiesFrom (rows : List (Instr × Nat)) : Bool :=
  rows.all fun (i, d) =>
    after (exec i { job .dist .fixed with outLen := 32768, cap := 40000 })
      (fun t => (t.distance.toNat, t.outLen.toNat, t.busy)) == some (d, 32771, true)

theorem test_distances_low : copiesFrom
  [(.dist0, 1), (.dist1, 2), (.dist2, 3), (.dist3, 4), (.dist4 0, 5), (.dist5 0, 7),
   (.dist6 0, 9), (.dist7 0, 13), (.dist8 0, 17), (.dist9 0, 25), (.dist10 0, 33), (.dist11 0, 49),
   (.dist12 0, 65), (.dist13 0, 97), (.dist14 0, 129), (.dist15 0, 193), (.dist16 0, 257), (.dist17 0, 385),
   (.dist18 0, 513), (.dist19 0, 769), (.dist20 0, 1025), (.dist21 0, 1537), (.dist22 0, 2049), (.dist23 0, 3073),
   (.dist24 0, 4097), (.dist25 0, 6145), (.dist26 0, 8193), (.dist27 0, 12289), (.dist28 0, 16385), (.dist29 0,
       24577)] = true := by decide +kernel

theorem test_distances_high : copiesFrom
  [(.dist4 (BitVec.allOnes 1), 6), (.dist5 (BitVec.allOnes 1), 8), (.dist6 (BitVec.allOnes 2), 12),
   (.dist7 (BitVec.allOnes 2), 16), (.dist8 (BitVec.allOnes 3), 24), (.dist9 (BitVec.allOnes 3), 32),
   (.dist10 (BitVec.allOnes 4), 48), (.dist11 (BitVec.allOnes 4), 64), (.dist12 (BitVec.allOnes 5), 96),
   (.dist13 (BitVec.allOnes 5), 128), (.dist14 (BitVec.allOnes 6), 192), (.dist15 (BitVec.allOnes 6), 256),
   (.dist16 (BitVec.allOnes 7), 384), (.dist17 (BitVec.allOnes 7), 512), (.dist18 (BitVec.allOnes 8), 768),
   (.dist19 (BitVec.allOnes 8), 1024), (.dist20 (BitVec.allOnes 9), 1536), (.dist21 (BitVec.allOnes 9), 2048),
   (.dist22 (BitVec.allOnes 10), 3072), (.dist23 (BitVec.allOnes 10), 4096), (.dist24 (BitVec.allOnes 11), 6144),
   (.dist25 (BitVec.allOnes 11), 8192), (.dist26 (BitVec.allOnes 12), 12288), (.dist27 (BitVec.allOnes 12), 16384),
   (.dist28 (BitVec.allOnes 13), 24576), (.dist29 (BitVec.allOnes 13), 32768)] = true := by decide +kernel

/-- A job that has emitted "ab". -/
def emittedAb : State :=
  { job .dist .fixed with
    outMem := [(0, 0x61), (1, 0x62)]
    window := [(0, 0x61), (1, 0x62)]
    wp := 2
    outLen := 2
    adlerA := 0x00C4
    adlerB := 0x0126 }

/-- V7c: length 3 from distance 2 after "ab" gives "ababa"; V7b: distance 3 is too far; Z4b: CAP = 4 cuts it. -/
theorem test_copy :
    after (exec .dist1 emittedAb) (fun t => (t.output, t.adlerWord)) = some ([0x61, 0x62, 0x61, 0x62, 0x61], 0x05BA01E8)
    ∧ after (exec .dist2 emittedAb) (fun t => (t.statusWord, t.outLen)) = some (0xB4, 2)
    ∧ after (exec .dist1 { emittedAb with cap := 4 }) (fun t => (t.statusWord, t.output, t.adlerWord))
      = some (0xD4, [0x61, 0x62, 0x61, 0x62], 0x03D20187) := by decide +kernel

/-- V2: the trailer 1 after no output. S9, S9b: another one. -/
theorem test_trailer :
    after (exec (.adlerTrailer 1) (job .trailer .trailer)) (fun t => (t.statusWord, t.fsmWord, t.trailer)) = some (2, 8,
        1)
    ∧ after (exec (.adlerTrailer 2) (job .trailer .trailer)) (fun t => (t.statusWord, t.fsmWord, t.trailer)) = some (0xA4,
        9, 2)
    ∧ after (exec (.adlerTrailer 0x00010000) (job .trailer .trailer)) State.statusWord = some 0xA4 := by decide +kernel

/-- Q1, Q3: registers right after reset, and STORED_ALIGN written without START. -/
theorem test_registers :
    after (step { State.reset with hostMoves := [.busRead 0x14 4] }) State.busData = some 1
    ∧ after (step { State.reset with hostMoves := [.busWrite 0x00 4 2] }) (fun t => (t.ctrlWord, t.statusWord)) = some (2,
        0)
    ∧ after (step { State.reset with hostMoves := [.busWrite 0x08 4 0xFFFFFFFF] }) State.inLen = some 0x20000000 := by
  decide +kernel

/-- Each row's number, placed where the next step reads, runs its instruction: LEN_285, DIST_3, BLK_FIXED. -/
theorem test_withFetchWord :
    after (step (State.reset.withFetchWord 9 285)) (fun t => (t.length, t.expect)) = some (258, .dist)
    ∧ after (step (State.reset.withFetchWord 5 3)) (fun t => (t.distance, t.statusWord)) = some (4, 0xB4)
    ∧ after (step (State.reset.withFetchWord 3 2)) (fun t => t.fsm) = some .fixed := by decide +kernel

/-- R31, R42, U23: a drawn FSM shows its bits 3:0, a drawn result register all 32. -/
theorem test_drawn_fsm : drawnReg 0x20 0xFFFFFFFF = 0xF ∧ drawnReg 0x10 0xFFFFFFFF = 0xFFFFFFFF := by decide

/-! ### Witnesses: states and operands that meet the hypotheses of each obligation -/

/-- A reader over three bytes from the first block byte on. -/
def bytesReader (bytes : List Byte) : Reader :=
  { mem := storeBytes [] 2 bytes, n := bytes.length + 6, stop := bytes.length + 2, pos := 16 }

theorem job_data (ex : Expect) (f : Fsm) : (job ex f).Data :=
  ⟨(by decide : Config.resetParams.legal = true), ⟨rfl, rfl, rfl⟩, ⟨rfl, rfl, rfl⟩, reset_rams,
    ⟨(by decide : 20 ≤ Config.resetParams.inMemSize), (by decide : 300 ≤ Config.resetParams.outMemSize)⟩,
    ⟨(by decide : (1 : Half).toNat < Config.adlerMod), (by decide : (0 : Half).toNat < Config.adlerMod)⟩, rfl⟩

/-- A job past its header, at any legal control point, meets the invariant. -/
theorem job_inv {ex : Expect} {f : Fsm} (hf : f ≠ .idle ∧ f ≠ .done ∧ f ≠ .error) (hz : ex ≠ .zlibHdr)
    (hk : (job ex f).controlLegal) : (job ex f).Inv :=
  State.Inv.of_running (job_data ex f) rfl ⟨rfl, rfl, rfl⟩ hf
    ⟨rfl, rfl, rfl, (by decide : (16 : BitVec 32).toNat = max 2 ((20 : BitVec 32).toNat - 4)),
      (by decide : (0 : BitVec 32).toNat ≤ (300 : BitVec 32).toNat)⟩
    (by
      have h1 : 16 < (job ex f).inPos.toNat ∧ (job ex f).inPos.toNat ≤ 8 * (job ex f).e.toNat :=
        (by decide : 16 < (24 : BitVec 32).toNat ∧ (24 : BitVec 32).toNat ≤ 8 * (16 : BitVec 32).toNat)
      unfold State.cursorInRegion
      rw [if_neg (show (job ex f).expect ≠ .zlibHdr from hz)]
      split <;> omega)
    hk

theorem job_blkHdr_inv : (job .blkHdr .blockHeader).Inv := job_inv (by decide) (by decide) rfl
theorem job_litLen_inv : (job .litLen .fixed).Inv := job_inv (by decide) (by decide) (.inl ⟨rfl, rfl⟩)
theorem job_trailer_inv : (job .trailer .trailer).Inv := job_inv (by decide) (by decide) ⟨rfl, rfl⟩

/-- A job right after HOST_START. -/
def jobStart (n : Word) : State :=
  { State.reset with busy := true, fsm := .zlibHeader, inLen := n, n := n, e := BitVec.ofNat 32 (max 2 (n.toNat - 4)) }

theorem reset_inv : State.reset.Inv :=
  State.Inv.of_idle
    ⟨by decide, ⟨rfl, rfl, rfl⟩, ⟨rfl, rfl, rfl⟩, reset_rams, ⟨Nat.zero_le _, Nat.zero_le _⟩,
      ⟨(by decide : (1 : Half).toNat < Config.adlerMod), (by decide : (0 : Half).toNat < Config.adlerMod)⟩, rfl⟩
    rfl (.inl ⟨rfl, rfl, rfl, rfl, rfl⟩)

theorem jobStart_inv (n : Word) (h : n.toNat ≤ 1000) : (jobStart n).Inv := by
  have h0 := reset_inv
  have hp : (1000 : Nat) ≤ Config.resetParams.inMemSize := by decide
  refine State.Inv.of_running ⟨h0.1, h0.2, h0.3, h0.4, ⟨le_trans h hp, Nat.zero_le _⟩, h0.6, h0.7⟩ rfl ⟨rfl, rfl, rfl⟩
    ⟨nofun, nofun, nofun⟩ ⟨rfl, rfl, rfl, ?_, Nat.zero_le _⟩ ⟨rfl, rfl⟩ rfl
  show (BitVec.ofNat 32 (max 2 (n.toNat - 4))).toNat = max 2 (n.toNat - 4)
  simp only [BitVec.toNat_ofNat]
  omega

/-- EncodeThenDecode: a plain format, a padded one on a byte boundary, a coded one, and the two whole-byte formats. -/
theorem witness_encodeThenDecode :
    (encode .blkHdr (.blkFixed true) = some [true, true, false] ∧ (bytesReader [0x03]).sees [true, true, false])
    ∧ ((encode (.storedLen true) (.storedLen 0 0xFFFF)).isSome = true ∧ bitOff (bytesReader [0, 0, 0xFF, 0xFF]).pos = 0)
    ∧ (encode (.litLen fixedLit) .eob = some (List.replicate 7 false) ∧ (bytesReader [0]).sees (List.replicate 7 false))
    ∧ (encode .zlibHdr (.zlibHdr 0x78 0x9C) = some (fieldBits (0x78 : BitVec 8) ++ fieldBits (0x9C : BitVec 8)) ∧ 2 ≤ 2)
    ∧ encode .trailer (.adlerTrailer 1) = some (List.replicate 24 false ++ fieldBits (1 : BitVec 8)) :=
  ⟨⟨by decide +kernel, ⟨by decide +kernel, by decide +kernel, by decide +kernel, trivial⟩⟩,
      ⟨by decide +kernel, by decide +kernel⟩,
    ⟨by decide +kernel, by
      refine ⟨?_, ?_, ?_, ?_, ?_, ?_, ?_, trivial⟩ <;> decide +kernel⟩,
    ⟨by decide +kernel, le_refl _⟩, by decide +kernel⟩

/-- EveryInstructionHasAnEncoding: HOST_START and an instruction of each coded row, the last distance code and a reserved one. -/
theorem witness_everyInstructionHasAnEncoding :
    (Instr.hostStart 1).wf = true ∧ (Instr.len285).wf = true ∧ (Instr.len285).parts.row = .litLen
    ∧ (Instr.dist29 0).wf = true ∧ (Instr.dist29 0).parts.row = .dist ∧ (Instr.dist29 0).parts.sym < 30
    ∧ (Instr.distReserved 30).wf = true ∧ ¬ (Instr.distReserved 30).parts.sym < 30 := by decide

/-- FixedCodesAreCanonical: a distance code that decodes, and fifteen bits that start with 1111. -/
theorem witness_fixedCodesAreCanonical :
    decodeSym fixedDist (bytesReader [0xB7]) = .ok 29 ((bytesReader [0xB7]).skip 5)
    ∧ (List.replicate 11 true).length = 11
    ∧ (bytesReader [0xFF, 0xFF]).sees ([true, true, true, true] ++ List.replicate 11 true) := by
  refine ⟨by decide +kernel, by decide, ?_⟩
  refine ⟨?_, ?_, ?_, ?_, ?_, ?_, ?_, ?_, ?_, ?_, ?_, ?_, ?_, ?_, ?_, trivial⟩ <;> decide +kernel

/-- BuildResult and CanonicalCodesDecode: lengths 1 to 15 and 15, a complete code, and its first code read. -/
theorem witness_canonicalCodesDecode :
    let lengths := [1, 2, 3, 4, 5, 6, 7, 8, 9, 10, 11, 12, 13, 14, 15, 15]
    (∀ l ∈ lengths, l ≤ 15) ∧ lengths.length ≤ (HuffTable.zero 288).symbols.length
    ∧ (HuffTable.zero 288).symbols.length ≤ 288 ∧ kraftSum lengths ≤ 2 ^ 15 ∧ 0 < lengths.length ∧ lengths.getD 0 0 ≠ 0
    ∧ (bytesReader [0]).sees (codeBits 1 (firstCode lengths 1 + (lengths.take 0).count 1)) := by
  refine ⟨by decide, by decide +kernel, by decide +kernel, by decide +kernel, by decide, by decide, ?_, trivial⟩
  decide +kernel

/-- An incomplete code: three symbols of length 2 (00, 01, 10); no code starts with 1, 1. -/
def incomplete : Huff := (buildTable (HuffTable.zero 19) [2, 2, 2]).code

theorem incomplete_codes {s : Nat} {code : List Bool} (h : codeOf incomplete s = some code) :
    code = [false, false] ∨ code = [false, true] ∨ code = [true, false] := by
  have h0 : codeOf incomplete 0 = some [false, false] := by decide +kernel
  have h1 : codeOf incomplete 1 = some [false, true] := by decide +kernel
  have h2 : codeOf incomplete 2 = some [true, false] := by decide +kernel
  have ht : incomplete.symbols.take incomplete.coded = [0, 1, 2] := by decide +kernel
  have hn : ∀ s, 3 ≤ s → codeOf incomplete s = none := by
    intro s hs
    have : [0, 1, 2].idxOf? s = none := by
      rw [List.idxOf?_eq_none_iff]; simp; omega
    unfold codeOf
    rw [ht, this]
  rcases (by omega : s = 0 ∨ s = 1 ∨ s = 2 ∨ 3 ≤ s) with rfl | rfl | rfl | hs
  · exact .inl (Option.some.inj (h.symm.trans h0))
  · exact .inr (.inl (Option.some.inj (h.symm.trans h1)))
  · exact .inr (.inr (Option.some.inj (h.symm.trans h2)))
  · exact absurd h (by rw [hn s hs]; nofun)

/-- SymbolDecodeOutcomes: the hypotheses of each clause, a string that is no code of an incomplete table (1, 1 and thirteen
zeros) among them, the last at a code-length table of 19 symbols. -/
theorem witness_symbolDecodeOutcomes :
    (8 * (bytesReader [0]).stop < 2 ^ 32 ∧ (bytesReader [0]).pos.toNat ≤ 8 * (bytesReader [0]).stop)
    ∧ ((bytesReader [3, 0]).sees (true :: true :: List.replicate 13 false)
      ∧ ∀ s code, codeOf incomplete s = some code →
        ¬ code <+: true :: true :: List.replicate 13 false)
    ∧ ((∀ l ∈ [0, 0, 0], l = 0) ∧ (bytesReader [0, 0]).sees (List.replicate 15 false))
    ∧ (0 < 1 ∧ 1 ≤ (HuffTable.zero 19).symbols.length ∧ (bytesReader [0]).sees [false]
      ∧ (bytesReader [1, 0]).sees (true :: List.replicate 14 false))
    ∧ ((List.replicate 19 (7 : BitVec 3)).length = 19 ∧ (HuffTable.zero 19).symbols.length = 19) := by
  refine ⟨by decide +kernel, ⟨?_, fun s code h => ?_⟩, ⟨by decide, ?_⟩,
    ⟨by decide, by decide, ⟨by decide +kernel, trivial⟩, ?_⟩, by decide⟩
  · refine ⟨?_, ?_, ?_, ?_, ?_, ?_, ?_, ?_, ?_, ?_, ?_, ?_, ?_, ?_, ?_, trivial⟩ <;> decide +kernel
  · rcases incomplete_codes h with rfl | rfl | rfl <;> decide
  · refine ⟨?_, ?_, ?_, ?_, ?_, ?_, ?_, ?_, ?_, ?_, ?_, ?_, ?_, ?_, ?_, trivial⟩ <;> decide +kernel
  · refine ⟨?_, ?_, ?_, ?_, ?_, ?_, ?_, ?_, ?_, ?_, ?_, ?_, ?_, ?_, ?_, trivial⟩ <;> decide +kernel

/-- GetBitReadsAndAdvances: at the end of the region, inside a byte and at its last bit. -/
theorem witness_getBit :
    ((bytesReader []).stop ≤ 2 ^ 29 ∧ (bytesReader []).stop ≤ byteOff (bytesReader []).pos)
    ∧ (byteOff (bytesReader [1]).pos < (bytesReader [1]).stop ∧ bitOff (bytesReader [1]).pos ≠ 7)
    ∧ (byteOff ((bytesReader [1]).skip 7).pos < (bytesReader [1]).stop ∧ bitOff ((bytesReader [1]).skip 7).pos = 7
      ∧ ((bytesReader [1]).skip 7).pos.toNat + 1 < 2 ^ 32) := by decide +kernel

/-- GetBitsAssemblesLowBitFirst, StoredLengthIsChecked, DynamicHeaderCounts: exactly enough bits, and one too few. -/
theorem witness_getBits :
    (bytesReader [0, 0, 0, 0]).stop < 2 ^ 29
    ∧ (bytesReader [0, 0, 0, 0]).pos.toNat + 32 = 8 * (bytesReader [0, 0, 0, 0]).stop
    ∧ 8 * (bytesReader [0, 0, 0, 0]).stop < (bytesReader [0, 0, 0, 0]).pos.toNat + 33
    ∧ 8 * (bytesReader [0]).stop < (bytesReader [0]).pos.toNat + 14 := by decide +kernel

/-- AlignSkipsToByteBoundary: on a boundary and off it; a job at LEN with each value of ALIGN. -/
theorem witness_align :
    ((bytesReader [1]).pos.toNat + 8 < 2 ^ 32 ∧ bitOff (bytesReader [1]).pos = 0)
    ∧ (((bytesReader [1]).skip 3).pos.toNat + 8 < 2 ^ 32 ∧ bitOff ((bytesReader [1]).skip 3).pos ≠ 0)
    ∧ ((job .storedLen .stored).expect = .storedLen ∧ (job .storedLen .stored).align = false)
    ∧ ({ job .storedLen .stored with align := true }.expect = .storedLen) := by decide +kernel

/-- The engine's turn in a running job of the invariant, with the step it takes: CursorOnlyMovesForward,
EngineWritesOnlyNewOutput, EngineNeverStops, InvariantIsKept, JobInputsAreFixed, ChecksumIsAdlerOfOutput and
WindowMirrorsOutput. -/
theorem witness_engineTurn :
    (job .blkHdr .blockHeader).Inv ∧ (job .blkHdr .blockHeader).busy = true ∧ (job .blkHdr .blockHeader).engineTurn
    ∧ (job .blkHdr .blockHeader).hostMoves = [] ∧ (job .blkHdr .blockHeader).checksumOfOutput
    ∧ (job .blkHdr .blockHeader).windowMirrors
    ∧ ∃ t, step (job .blkHdr .blockHeader) = .next t ∧ t.busy = true := by
  refine ⟨job_blkHdr_inv, rfl, .inl rfl, rfl, rfl, fun k h1 _ h3 => ?_, _, rfl, rfl⟩
  have h3 : k ≤ (0 : BitVec 32).toNat := h3
  simp at h3
  omega

/-- The same at the start of a job of the invariant, where a step moves the cursor to 16 or leaves it at 0. -/
theorem witness_engineTurn_start :
    (jobStart 8).Inv ∧ (jobStart 1).Inv ∧ (jobStart 1).engineTurn ∧ (jobStart 8).expect = .zlibHdr ∧ (jobStart 1).n.toNat < 2
    ∧ 2 ≤ (jobStart 8).n.toNat ∧ (∃ t, step (jobStart 8) = .next t) ∧ ∃ t, step (jobStart 1) = .next t :=
  ⟨jobStart_inv 8 (by decide), jobStart_inv 1 (by decide), .inl rfl, rfl, by decide, by decide, ⟨_, rfl⟩, ⟨_, rfl⟩⟩

/-- StepRunsDecodedInstruction: a decode that answers, one that runs out of input, a code that is none, and an idle state. -/
theorem witness_stepRunsDecodedInstruction :
    ((job .blkHdr .blockHeader).hostMoves = [] ∧ (job .blkHdr .blockHeader).busy = true
      ∧ ∃ i r, decode (job .blkHdr .blockHeader).format (job .blkHdr .blockHeader).reader = .ok i r)
    ∧ (∃ got r, decode ({ job .blkHdr .blockHeader with inPos := 128 }.format)
        ({ job .blkHdr .blockHeader with inPos := 128 }.reader) = .exhausted got r)
    ∧ (∃ r, decode ({ job .clSym .dynamicHeader with num := 1 }.format) ({ job .clSym .dynamicHeader with num := 1 }.reader)
        = .noCode r)
    ∧ ({ State.reset with hostMoves := [.pass] }.hostMoves = .pass :: [] ∧ State.reset.busy = false) :=
  ⟨⟨rfl, rfl, _, _, rfl⟩, ⟨_, _, rfl⟩, ⟨_, rfl⟩, rfl, rfl⟩

/-- HostStartInitialisesTheJob, StartWriteRunsHostStart: both values of BUSY and of START. -/
theorem witness_hostStart :
    State.reset.busy = false ∧ (job .blkHdr .blockHeader).busy = true
    ∧ { State.reset with hostMoves := [.busWrite 0 4 1] }.hostMoves = .busWrite State.reset.params.regBase 4 1 :: []
    ∧ (1 : Word).getLsbD 0 = true ∧ (2 : Word).getLsbD 0 = false := by decide +kernel

/-- HeaderChecksInOrder: bytes for each clause, and N = 1 and N = 2. -/
theorem witness_headerChecks :
    (0x79 : BitVec 8).toNat % 16 ≠ 8
    ∧ ((0x88 : BitVec 8).toNat % 16 = 8 ∧ 7 < (0x88 : BitVec 8).toNat / 16)
    ∧ ((0x78 : BitVec 8).toNat / 16 ≤ 7 ∧ (0x20 : BitVec 8).getLsbD 5 = true)
    ∧ ((0x9D : BitVec 8).getLsbD 5 = false ∧ ((0x78 : BitVec 8).toNat * 256 + (0x9D : BitVec 8).toNat) % 31 ≠ 0)
    ∧ ((0x78 : BitVec 8).toNat * 256 + (0x9C : BitVec 8).toNat) % 31 = 0
    ∧ ((jobStart 1).busy = true ∧ (jobStart 1).hostMoves = [] ∧ (jobStart 1).expect = .zlibHdr ∧ (jobStart 1).n.toNat < 2)
    ∧ 2 ≤ (jobStart 2).n.toNat := by decide +kernel

/-- TrailerDecidesTheJob: a job of the invariant at its trailer, and a trailer of each kind. -/
theorem witness_trailer :
    (job .trailer .trailer).Inv ∧ (job .trailer .trailer).busy = true ∧ (job .trailer .trailer).hostMoves = []
    ∧ (job .trailer .trailer).expect = .trailer ∧ 4 ≤ (job .trailer .trailer).n.toNat
    ∧ (2 : Word).toNat ≠ (job .trailer .trailer).adlerB.toNat * 2 ^ 16 + (job .trailer .trailer).adlerA.toNat
    ∧ (1 : Word).toNat = (job .trailer .trailer).adlerB.toNat * 2 ^ 16 + (job .trailer .trailer).adlerA.toNat :=
  ⟨job_trailer_inv, rfl, rfl, rfl, by decide, by decide, by decide⟩

/-- EndOfBlockBody: both values of bfinal; a table whose first code is symbol 256. -/
theorem witness_endOfBlockBody :
    (job .litLen .fixed).bfinal = true ∧ { job .litLen .fixed with bfinal := false }.bfinal = false
    ∧ decodeSym fixedLit (bytesReader [0]) = .ok 256 ((bytesReader [0]).skip 7) := by decide +kernel

/-- StoredLengthIsChecked: a mismatch, LEN = 1 and LEN = 0. -/
theorem witness_storedLength :
    (0xFFFF : BitVec 16).toNat ≠ 0xFFFF - (0xFFFF : BitVec 16).toNat
    ∧ ((0xFFFE : BitVec 16).toNat = 0xFFFF - (1 : BitVec 16).toNat ∧ (1 : BitVec 16) ≠ 0)
    ∧ ((0xFFFF : BitVec 16).toNat = 0xFFFF - (0 : BitVec 16).toNat ∧ (job .storedLen .stored).bfinal = true) := by
  decide +kernel

/-- StoredByteIsEmitted, LiteralIsEmitted: room for exactly one byte, and none; the last byte of a block and not the last. -/
theorem witness_emit :
    ((job .storedByte .stored).outMem.wf = true ∧ (job .storedByte .stored).window.wf = true)
    ∧ ({ job .storedByte .stored with cap := 1 }.outLen.toNat < 1)
    ∧ { job .storedByte .stored with cap := 0 }.cap.toNat ≤ (job .storedByte .stored).outLen.toNat
    ∧ ((job .storedByte .stored).storedLeft ≤ 1 ∧ 2 ≤ { job .storedByte .stored with storedLeft := 2 }.storedLeft)
    ∧ decodeSym fixedLit (bytesReader [0xFF, 0xFF]) = .ok 255 ((bytesReader [0xFF, 0xFF]).skip 9) := by decide +kernel

/-- DynamicHeaderCounts: a job before its three counts with 0, 4, 5, 9, 10 and 13 bits left. -/
theorem witness_dynHdr :
    (job .dynHdr .dynamicHeader).e.toNat < 2 ^ 29
    ∧ ∀ pos ∈ [(128 : Word), 124, 123, 119, 118, 115],
      { job .dynHdr .dynamicHeader with inPos := pos }.busy = true
      ∧ { job .dynHdr .dynamicHeader with inPos := pos }.hostMoves = []
      ∧ { job .dynHdr .dynamicHeader with inPos := pos }.expect = .dynHdr
      ∧ pos.toNat ≤ 8 * (job .dynHdr .dynamicHeader).e.toNat
      ∧ 8 * (job .dynHdr .dynamicHeader).e.toNat < pos.toNat + 14 := by
  refine ⟨(by decide +kernel : 16 < 2 ^ 29), fun pos hp => ⟨rfl, rfl, rfl, ?_⟩⟩
  simp only [List.mem_cons, List.not_mem_nil, or_false] at hp
  rcases hp with rfl | rfl | rfl | rfl | rfl | rfl <;> decide +kernel

/-- CodeLengthCodeLengthsArePlaced: the first entry of HCLEN = 4, the last one, and the 19th of 19. -/
theorem witness_clCodelen :
    [16, 17, 18, 0, 8, 7, 9, 6, 10, 5, 11, 4, 12, 3, 13, 2, 14, 1, 15][(job .clCodelen .dynamicHeader).clIndex]? = some 16
    ∧ (job .clCodelen .dynamicHeader).clIndex + 1 < (job .clCodelen .dynamicHeader).hclen.toNat
    ∧ (job .clCodelen .dynamicHeader).hclen.toNat ≤ 3 + 1
    ∧ [16, 17, 18, 0, 8, 7, 9, 6, 10, 5, 11, 4, 12, 3, 13, 2, 14, 1, 15][18]? = some 15
    ∧ (bytesReader [5]).getBits 3 = .ok 5 ((bytesReader [5]).skip 3)
    ∧ (bytesReader []).getBits 3 = .exhausted (bytesReader []) := by decide +kernel

/-- CodeLengthSymbolIsWritten, CodeLengthRepeatsAreWritten: symbols 15, 16, 17 and 18 decoded, the first and the last entry, a
repeat that ends exactly at HLIT + HDIST and one that passes it. -/
theorem witness_codeLengths :
    (job .clSym .dynamicHeader).countsLegal ∧ (job .clSym .dynamicHeader).lens.length = 320
    ∧ (job .clSym .dynamicHeader).num = 0 ∧ (257 : BitVec 9).toNat < 257 + 1
    ∧ (255 : BitVec 9).toNat + 3 = 257 + 1 ∧ 257 + 1 < (256 : BitVec 9).toNat + 3
    ∧ decodeSym loadClTable.code (reading 5 15) = .ok 15 ((reading 5 15).skip 5)
    ∧ decodeSym loadClTable.code (reading 5 16) = .ok 16 ((reading 5 16).skip 5)
    ∧ decodeSym loadClTable.code (reading 5 17) = .ok 17 ((reading 5 17).skip 5)
    ∧ decodeSym loadClTable.code (reading 5 18) = .ok 18 ((reading 5 18).skip 5) := by
  refine ⟨(by decide : 257 ≤ (257 : BitVec 9).toNat ∧ (257 : BitVec 9).toNat ≤ 288 ∧ 1 ≤ (1 : BitVec 6).toNat
    ∧ (1 : BitVec 6).toNat ≤ 32 ∧ 4 ≤ (4 : BitVec 5).toNat ∧ (4 : BitVec 5).toNat ≤ 19), List.length_replicate, rfl, ?_⟩
  decide +kernel

/-- ReservedSymbolsRaise: the symbols decoded, in the fixed table and in a distance table that has codes for them. -/
theorem witness_reserved :
    decodeSym fixedLit (reading 8 0b11000110) = .ok 286 ((reading 8 0b11000110).skip 8)
    ∧ decodeSym fixedLit (reading 8 0b11000111) = .ok 287 ((reading 8 0b11000111).skip 8)
    ∧ decodeSym loadDistTable.code (reading 5 30) = .ok 30 ((reading 5 30).skip 5)
    ∧ decodeSym loadDistTable.code (reading 5 31) = .ok 31 ((reading 5 31).skip 5) := by decide +kernel

/-- LengthCodes257To266, LengthCodes267To276, LengthCodes277To285, EveryMatchHasItsCodes: a length symbol decoded, its extra
bits there and missing. -/
theorem witness_lengthCodes :
    decodeSym fixedLit (reading 7 0b0010101) = .ok 277 ((reading 7 0b0010101).skip 7)
    ∧ ((reading 11 0b00101011000).skip 7).getBits 4 = .ok 1 ((reading 11 0b00101011000).skip 11)
    ∧ (bytesReader []).getBits 4 = .exhausted (bytesReader []) := by decide +kernel

/-- DistanceCodes0To9, DistanceCodes10To19, DistanceCodes20To29, EveryMatchHasItsCodes: a distance symbol decoded with its
extra bits, a distance too far by one, and the largest legal one with room for exactly the match. -/
theorem witness_distanceCodes :
    decodeSym fixedDist (reading 5 0b11101) = .ok 29 ((reading 5 0b11101).skip 5)
    ∧ ((reading 18 0b111010000000000001).skip 5).getBits 13 = .ok 4096 ((reading 18 0b111010000000000001).skip 18)
    ∧ { job .dist .fixed with outLen := 32767 }.outLen.toNat < 24577 + (8191 : BitVec 13).toNat
    ∧ (24577 + (8191 : BitVec 13).toNat ≤ { job .dist .fixed with outLen := 32768 }.outLen.toNat
      ∧ { job .dist .fixed with outLen := 32768 }.outLen.toNat + (job .dist .fixed).length.toNat
        ≤ { job .dist .fixed with cap := 32771 }.cap.toNat
      ∧ (job .dist .fixed).outMem.wf = true ∧ (job .dist .fixed).window.wf = true) := by decide +kernel

/-- CopyStopsAtCapacity, MatchCopiesEarlierOutput, EveryMatchHasItsCodes: after "ab", distance 2 and length 3, with room for 2 bytes and for 3. -/
theorem witness_copy :
    matchDistance .dist1 = some 2 ∧ emittedAb.outMem.wf = true ∧ emittedAb.window.wf = true
    ∧ 2 ≤ emittedAb.outLen.toNat ∧ emittedAb.wp.toNat = emittedAb.outLen.toNat % 32768
    ∧ { emittedAb with cap := 4 }.outLen.toNat ≤ { emittedAb with cap := 4 }.cap.toNat
    ∧ { emittedAb with cap := 4 }.cap.toNat < { emittedAb with cap := 4 }.outLen.toNat + emittedAb.length.toNat
    ∧ emittedAb.outLen.toNat + emittedAb.length.toNat ≤ { emittedAb with cap := 5 }.cap.toNat
    ∧ emittedAb.windowMirrors := by
  refine ⟨rfl, by decide, by decide, by decide, by decide, by decide, by decide, by decide, fun k h1 _ h3 => ?_⟩
  have h3 : k ≤ (2 : BitVec 32).toNat := h3
  have : k = 1 ∨ k = 2 := by simp at h3; omega
  rcases this with rfl | rfl <;> decide +kernel

/-- InputExhaustedLeavesCursorAtEnd: a job of the invariant at (E, 0), and the step that ends there. -/
theorem witness_inputExhausted :
    State.Inv { job .blkHdr .blockHeader with inPos := 128 }
    ∧ { job .blkHdr .blockHeader with inPos := 128 }.inPos.toNat = 8 * (job .blkHdr .blockHeader).e.toNat
    ∧ ∃ t, step { job .blkHdr .blockHeader with inPos := 128 } = .next t ∧ t.error = true ∧ t.errcode = 9 := by
  have h := job_blkHdr_inv
  refine ⟨⟨h.1, h.2, h.3, h.4, h.5, h.6, h.7, h.8, h.9, fun _ => ?_, h.11⟩, by decide, _, rfl, rfl, rfl⟩
  show 16 ≤ (128 : BitVec 32).toNat ∧ (128 : BitVec 32).toNat ≤ 8 * (16 : BitVec 32).toNat
  decide

/-- NoStepOutsideAJob, ResetState: an idle state; a reset of a running job. -/
theorem witness_idle :
    State.reset.busy = false ∧ State.reset.hostMoves = []
    ∧ { job .blkHdr .blockHeader with hostMoves := [.reset] }.hostMoves = .reset :: [] := ⟨rfl, rfl, rfl⟩

/-- RegistersReadWhileIdle, RegistersReadWhileBusy: a read of FSM and of the last reserved offset; an OUT byte. -/
theorem witness_registerReads :
    (∃ rest, { State.reset with hostMoves := [.busRead 0x3C 4] }.hostMoves = .busRead (State.reset.params.regBase + 0x3C) 4 :: rest)
    ∧ State.reset.busy = false ∧ State.Inv { job .blkHdr .blockHeader with hostMoves := [.busRead 0x20 4] }
    ∧ route State.reset.params (2 ^ 32) = .output 0 :=
  ⟨⟨[], rfl⟩, rfl, State.Inv.with_moves job_blkHdr_inv _, by decide +kernel⟩

/-- RegisterWritesKeepLegalValues, RegisterWritesWhileBusyAreIgnored, HostAccessesRefused: a write at the first and the last
offset, a narrow and a misaligned one, and a buffer write while BUSY = 1. -/
theorem witness_registerWrites :
    { State.reset with hostMoves := [.busWrite 0x08 4 5] }.hostMoves = .busWrite (State.reset.params.regBase + 0x08) 4 5 :: []
    ∧ State.reset.busy = false ∧ (job .blkHdr .blockHeader).busy = true ∧ 0x3C < 64 ∧ 0x3C % 4 = 0
    ∧ ((1 : Nat) ≠ 4 ∧ (62 : Nat) % 4 ≠ 0) ∧ route State.reset.params (2 ^ 30) = .input 0 := by decide +kernel

/-- BufferReadsWhatTheHostWrote: spaces that do not overlap, and a write and read of the first byte of each. -/
theorem witness_bufferReads :
    State.reset.params.disjoint ∧ State.reset.inMem.wf = true ∧ State.reset.outMem.wf = true
    ∧ 0 < State.reset.params.inMemSize ∧ 0 < State.reset.params.outMemSize := by
  refine ⟨fun a => ?_, rfl, rfl, by decide, by decide⟩
  have h1 : State.reset.params.regBase = 0 := rfl
  have h2 : State.reset.params.inBase = 2 ^ 30 := rfl
  have h3 : State.reset.params.outBase = 2 ^ 32 := rfl
  have h4 : State.reset.params.inMemSize = 2 ^ 29 := rfl
  simp only [h1, h2, h3, h4]
  omega

/-- OnlyOutputInstructionsWriteMemory, StreamInstructionsWriteOnlyTheirState: an instruction of each kind answers. -/
theorem witness_exec :
    (∃ t, exec .eob (job .litLen .fixed) = .next t) ∧ emitsOutput .eob = false
    ∧ (∃ t, exec (.lit 1) (job .litLen .fixed) = .next t) ∧ emitsOutput (.lit 1) = true
    ∧ (∃ t, exec (.dist29 0) (job .dist .fixed) = .next t) ∧ emitsOutput (.dist29 0) = true :=
  ⟨⟨_, rfl⟩, rfl, ⟨_, rfl⟩, rfl, ⟨_, rfl⟩, rfl⟩

/-- InvariantIsKept, OnlyStartBeginsAJob: the START write from reset begins a job. -/
theorem witness_onlyStart :
    State.Inv { State.reset with hostMoves := [.busWrite 0 4 1] }
    ∧ ∃ t, step { State.reset with hostMoves := [.busWrite 0 4 1] } = .next t ∧ t.busy = true :=
  ⟨State.Inv.with_moves reset_inv _, _, rfl, rfl⟩

/-- EveryJobEnds, JobsEndOnlyInDoneErrorOrReset: a job of the invariant whose step ends it in DONE, and one in an error. -/
theorem witness_jobsEnd :
    (job .trailer .trailer).Inv ∧ (∃ t, step { job .trailer .trailer with inMem := [(19, 1)] } = .next t ∧ t.busy = false ∧ t.done = true)
    ∧ ∃ t, step (job .trailer .trailer) = .next t ∧ t.busy = false ∧ t.error = true :=
  ⟨job_trailer_inv, ⟨_, rfl, rfl, rfl⟩, _, rfl, rfl, rfl⟩

/-- ResultsPersist: a host write while idle that starts nothing. -/
theorem witness_resultsPersist :
    ∃ t, step { State.reset with hostMoves := [.busWrite 0x08 4 5] } = .next t ∧ t.busy = false ∧ t.inLen = 5 :=
  ⟨_, rfl, rfl, rfl⟩

/-- JobsAreIndependent: two idle states of the invariant that differ in what an earlier job left. -/
theorem witness_jobsAreIndependent :
    State.reset.Inv ∧ State.Inv { State.reset with window := [(5, 1)], bfinal := true, num := 3 }
    ∧ { State.reset with window := [(5, 1)], bfinal := true, num := 3 }.busy = false
    ∧ { State.reset with window := [(5, 1)], bfinal := true, num := 3 }.inMem = State.reset.inMem := by
  have h := reset_inv
  exact ⟨h, ⟨h.1, ⟨h.2.1, h.2.2.1, rfl⟩, ⟨h.3.1, h.3.2.1, rfl⟩, h.4, h.5, h.6, h.7, h.8, h.9, h.10, h.11⟩, rfl, rfl⟩

end Sys2Proof.Tests
end

section
/-! Rules of the host port: what a host access answers, said once per access. -/

namespace Sys2Proof.Machine

/-- A host access that leads to IN stays within IN_MEM_SIZE. -/
theorem route_input_lt {p : Config.Params} {addr o : Nat} (h : route p addr = .input o) : o < p.inMemSize := by
  unfold route at h
  repeat' split at h
  all_goals cases h
  omega

/-- A host access that leads to OUT stays within OUT_MEM_SIZE. -/
theorem route_output_lt {p : Config.Params} {addr o : Nat} (h : route p addr = .output o) : o < p.outMemSize := by
  unfold route at h
  repeat' split at h
  all_goals cases h
  omega

/-- A length register keeps exactly the smaller of the value and the memory size (10_state.md R25, R26). -/
theorem legalLength_toNat (v : Word) (size : Nat) : (legalLength v size).toNat = min v.toNat size := by
  have := v.isLt
  simp only [legalLength, BitVec.toNat_ofNat]
  omega

/-- A read of a register changes only the host's side (20_memory.md R73). -/
theorem readReg_hostSide (o : Nat) (s : State) :
    readReg o s = { s with busData := (readReg o s).busData, draws := (readReg o s).draws } := by
  unfold readReg
  split
  · rfl
  · split <;> rfl

/-- A host read changes only the host's side, whether a job runs or not (20_memory.md R73). -/
theorem busRead_hostSide {s t : State} {addr width : Nat} (hx : (busRead addr width s).outcome = .next t) :
    t = { s with busData := t.busData, draws := t.draws } := by
  simp only [busRead] at hx
  split at hx
  · split at hx <;> cases hx
    exact readReg_hostSide _ s
  · split at hx
    · cases hx
    · split at hx <;> cases hx <;> rfl
  · split at hx
    · cases hx
    · split at hx <;> cases hx <;> rfl
  · cases hx

/-- What a host write can do while no job runs: start a job, store STORED_ALIGN, keep a legal length, store a byte of IN or
OUT inside its space, or nothing. -/
theorem busWrite_idle {s t : State} {addr width : Nat} {v : Word} (hb : s.busy = false)
    (hx : (busWrite addr width v s).outcome = .next t) :
    exec (.hostStart v) s = .next t
    ∨ t = { s with storedAlign := v.getLsbD 1 }
    ∨ t = { s with inLen := legalLength v s.params.inMemSize }
    ∨ t = { s with outCap := legalLength v s.params.outMemSize }
    ∨ (∃ o, o < s.params.inMemSize ∧ t = { s with inMem := s.inMem.write o (v.setWidth 8) })
    ∨ (∃ o, o < s.params.outMemSize ∧ t = { s with outMem := s.outMem.write o (v.setWidth 8) })
    ∨ t = s := by
  have hn : ¬ s.busy = true := by rw [hb]; decide
  simp only [busWrite, if_neg hn] at hx
  split at hx
  case h_1 o ho =>
    split at hx
    · cases hx
    · simp only [writeReg, if_neg hn] at hx
      split at hx
      · split at hx
        · rename_i i hi
          obtain ⟨rfl, -⟩ := decodeHost_eq_some hi
          exact .inl hx
        · cases hx; exact .inr (.inl rfl)
      · split at hx
        · cases hx; exact .inr (.inr (.inl rfl))
        · split at hx
          · cases hx; exact .inr (.inr (.inr (.inl rfl)))
          · cases hx; exact .inr (.inr (.inr (.inr (.inr (.inr rfl)))))
  case h_2 o ho =>
    split at hx <;> cases hx
    exact .inr (.inr (.inr (.inr (.inl ⟨o, route_input_lt ho, rfl⟩))))
  case h_3 o ho =>
    split at hx <;> cases hx
    exact .inr (.inr (.inr (.inr (.inr (.inl ⟨o, route_output_lt ho, rfl⟩)))))
  case h_4 => cases hx

end Sys2Proof.Machine
end

section
/-! The invariant along a step (10_state.md R24 to R39, 40_bitstream_reader.md R127). -/

namespace Sys2Proof.Machine

/-- A host write of a byte of IN keeps the data part. -/
theorem State.Data.with_inMem {s : State} (d : s.Data) {o : Nat} (v : Byte) (ho : o < s.params.inMemSize) :
    State.Data { s with inMem := s.inMem.write o v } :=
  ⟨d.params, ⟨Memory.write_wf o v d.canonical.1, d.canonical.2⟩, ⟨Memory.write_below v d.inSpace.1 ho, d.inSpace.2⟩,
    d.rams, d.lengths, d.sums, d.pointer⟩

/-- A host write of a byte of OUT keeps the data part. -/
theorem State.Data.with_outMem {s : State} (d : s.Data) {o : Nat} (v : Byte) (ho : o < s.params.outMemSize) :
    State.Data { s with outMem := s.outMem.write o v } := by
  obtain ⟨wfIn, wfOut, wfWin⟩ := d.canonical
  obtain ⟨inIn, inOut, inWin⟩ := d.inSpace
  exact ⟨d.params, ⟨wfIn, Memory.write_wf o v wfOut, wfWin⟩, ⟨inIn, Memory.write_below v inOut ho, inWin⟩, d.rams,
    d.lengths, d.sums, d.pointer⟩

/-- A host write while no job runs keeps the invariant. -/
theorem busWrite_idle_inv {s t : State} {addr width : Nat} {v : Word} (h : s.Inv) (hb : s.busy = false)
    (hx : (busWrite addr width v s).outcome = .next t) : t.Inv := by
  have d := h.data
  rcases busWrite_idle hb hx with hs | rfl | rfl | rfl | ⟨o, ho, rfl⟩ | ⟨o, ho, rfl⟩ | rfl
  · exact execHostStart_inv h hs
  · exact .of_idle_update h hb ⟨d.1, d.2, d.3, d.4, d.5, d.6, d.7⟩ ⟨rfl, rfl, rfl, rfl, rfl⟩
  · exact .of_idle_update h hb ⟨d.1, d.2, d.3, d.4, ⟨legalLength_le, d.lengths.2⟩, d.6, d.7⟩ ⟨rfl, rfl, rfl, rfl, rfl⟩
  · exact .of_idle_update h hb ⟨d.1, d.2, d.3, d.4, ⟨d.lengths.1, legalLength_le⟩, d.6, d.7⟩ ⟨rfl, rfl, rfl, rfl, rfl⟩
  · exact .of_idle_update h hb (d.with_inMem _ ho) ⟨rfl, rfl, rfl, rfl, rfl⟩
  · exact .of_idle_update h hb (d.with_outMem _ ho) ⟨rfl, rfl, rfl, rfl, rfl⟩
  · exact h

/-- A host reset leads to a state of the invariant, by the values the model names for unspecified state (log 6). -/
theorem resetBlock_inv {s : State} (h : s.Inv) : (resetBlock s).Inv := by
  obtain ⟨wfIn, wfOut, -⟩ := h.canonical
  obtain ⟨inIn, inOut, -⟩ := h.inSpace
  refine .of_idle ⟨h.params, ⟨wfIn, wfOut, rfl⟩, ⟨inIn, inOut, rfl⟩, reset_rams, ⟨Nat.zero_le _, Nat.zero_le _⟩, ?_, rfl⟩ rfl
    (.inl ⟨rfl, rfl, rfl, rfl, rfl⟩)
  exact ⟨(by decide : (1 : Half).toNat < Config.adlerMod), (by decide : (0 : Half).toNat < Config.adlerMod)⟩

/-- Every move of the host keeps the invariant. -/
theorem hostAction_inv {s t : State} {m : HostMove} (h : s.Inv) (hx : (hostAction m s).outcome = .next t) : t.Inv := by
  cases m with
  | pass => exact engineAction_inv h hx
  | reset => cases hx; exact resetBlock_inv h
  | busRead addr width =>
    have ht := busRead_hostSide hx
    exact h.of_hostSide (by rw [ht])
  | busWrite addr width v =>
    cases hb : s.busy with
    | false => exact busWrite_idle_inv h hb hx
    | true =>
      have ht := hostAction_busy (m := .busWrite addr width v) hb nofun nofun hx
      exact h.of_hostSide (by rw [ht])

/-- Settles O51: the engine's action keeps the invariant, and so does each move of the host. -/
theorem invariantIsKept : Obligations.InvariantIsKept := by
  intro s t h hx
  cases hm : s.hostMoves with
  | nil => exact engineAction_inv h ((step_nil hm).symm.trans hx)
  | cons m moves => exact hostAction_inv (h.with_moves moves) ((step_cons hm).symm.trans hx)

end Sys2Proof.Machine
end

section
/-! What a job works on and what it leaves: the window, the inputs, the results. -/

namespace Sys2Proof.Machine

/-- HOST_START while no job runs is the job's start (44_stream_driver_adler32.md R300, R301). -/
theorem exec_hostStart_idle {s t : State} {w : BitVec 32} (hb : s.busy = false) (hx : exec (.hostStart w) s = .next t) :
    t = jobInit { s with storedAlign := w.getLsbD 1 } := by
  simp only [exec, execHostStart, hb, Bool.false_eq_true, if_false] at hx
  cases hx
  rfl

/-- Settles O55: a started job has no output, and a step appends at most a match, which the window mirrors. -/
theorem windowMirrorsOutput : Obligations.WindowMirrorsOutput := by
  refine ⟨fun w s t hb hx => ?_, fun s t h hb hs hx hr => ?_⟩
  · rw [exec_hostStart_idle hb hx]
    intro k k1 _ k3
    have : k ≤ 0 := k3
    omega
  · rcases step_busy h hb hx hr with ⟨moves, hi, he⟩ | ⟨moves, ht⟩
    · obtain ⟨bs, ha, hl⟩ := engine_appends hi hb he
      exact State.mirrors_appended ha (by omega) hi.pointer hs
    · rw [ht]
      exact hs

/-- A host reset leaves no job running (70_reset_and_hazards.md R361). -/
theorem step_reset_busy {s t : State} {rest : List HostMove} (hm : s.hostMoves = .reset :: rest) (hx : step s = .next t) :
    t.busy = false := by
  rw [step_cons hm] at hx
  cases hx
  rfl

/-- Settles O59: the engine keeps a job's inputs, and while it runs the host reaches only its own side. -/
theorem jobInputsAreFixed : Obligations.JobInputsAreFixed := by
  intro s t h hx hb hbt
  have hr : ∀ rest, s.hostMoves ≠ .reset :: rest := by
    intro rest hm
    rw [step_reset_busy hm hx] at hbt
    cases hbt
  rcases step_busy h hb hx hr with ⟨moves, hi, he⟩ | ⟨moves, ht⟩
  · have g : State.SameInputs { s with hostMoves := moves } t := by
      rcases engine_run hi hb he with ⟨_, _, -, -, -, -, g, -⟩ | ⟨_, g, -⟩ <;> exact g
    exact ⟨g.inMem, g.inLen, g.outCap, g.storedAlign, g.n, g.cap, g.align, g.e⟩
  · rw [ht]
    exact ⟨rfl, rfl, rfl, rfl, rfl, rfl, rfl, rfl⟩

/-- The results and the status a step can leave while no job runs: a START write begins a job, a reset clears them, and
every other step keeps them (10_state.md R43). -/
theorem step_idle {s t : State} (hb : s.busy = false) (hx : step s = .next t) :
    (∃ v rest, s.hostMoves = .busWrite s.params.regBase 4 v :: rest ∧ v.getLsbD 0 = true ∧ t.busy = true)
    ∨ (∃ rest, s.hostMoves = .reset :: rest ∧ t.busy = false)
    ∨ t = { s with
        storedAlign := t.storedAlign
        inLen := t.inLen
        outCap := t.outCap
        inMem := t.inMem
        outMem := t.outMem
        hostMoves := t.hostMoves
        busData := t.busData
        draws := t.draws } := by
  cases hm : s.hostMoves with
  | nil =>
    rw [step_nil hm, engineAction_idle hb] at hx
    cases hx
    exact .inr (.inr rfl)
  | cons m moves =>
    by_cases hr : m = .reset
    · subst hr
      exact .inr (.inl ⟨moves, rfl, step_reset_busy hm hx⟩)
    · rw [step_cons hm] at hx
      rcases hostAction_idle (s := { s with hostMoves := moves }) hb hr hx with ⟨v, rfl, hv, hs⟩ | ht
      · refine .inl ⟨v, moves, rfl, hv, ?_⟩
        rw [exec_hostStart_idle (s := { s with hostMoves := moves }) hb hs]
        rfl
      · right; right
        rw [ht]

/-- Settles O56: of the steps while no job runs only the START write sets BUSY. -/
theorem onlyStartBeginsAJob : Obligations.OnlyStartBeginsAJob := by
  intro s t hx hb hbt
  rcases step_idle hb hx with ⟨v, rest, hm, hv, -⟩ | ⟨rest, -, hf⟩ | ht
  · exact ⟨v, rest, hm, hv⟩
  · rw [hf] at hbt
    cases hbt
  · rw [ht] at hbt
    exact absurd (hb.symm.trans hbt) (by decide)

/-- Settles O58: while no job runs a step that is neither START nor reset keeps the results, and an error entry writes
STATUS and FSM only. -/
theorem resultsPersist : Obligations.ResultsPersist := by
  refine ⟨fun s t hx hb hbt hr => ?_, fun x s => ⟨rfl, rfl, rfl, rfl, rfl⟩⟩
  rcases step_idle hb hx with ⟨v, rest, -, -, hbusy⟩ | ⟨rest, hm, -⟩ | ht
  · rw [hbusy] at hbt
    cases hbt
  · exact absurd hm (hr rest)
  · rw [ht]
    exact ⟨rfl, rfl, rfl, rfl, rfl, rfl⟩

end Sys2Proof.Machine
end

section
/-! The frame of the stream's instructions: what a rule does not name is unchanged (10_state.md R41 and the column "State
written" of 42_block_dispatch.md to 44_stream_driver_adler32.md). -/

namespace Sys2Proof.Machine

/-- An output instruction is a distance code, LIT or STORED_BYTE. -/
theorem emitsOutput_cases {i : Instr} (h : emitsOutput i = true) :
    (∃ d, matchDistance i = some d) ∨ (∃ v, i = .lit v) ∨ ∃ v, i = .storedByte v := by
  cases i
  case lit v => exact .inr (.inl ⟨v, rfl⟩)
  case storedByte v => exact .inr (.inr ⟨v, rfl⟩)
  all_goals exact .inl (Option.isSome_iff_exists.mp h)

/-- A distance code writes what `emit` writes and the latch `distance`. -/
theorem writtenBy_distance {i : Instr} {d : Nat} (h : matchDistance i = some d) (s t : State) :
    writtenBy i s t = { s with
      outMem := t.outMem
      window := t.window
      wp := t.wp
      outLen := t.outLen
      adlerA := t.adlerA
      adlerB := t.adlerB
      distance := t.distance } := by
  cases i <;> first | rfl | exact nomatch h

/-- A length code writes the latch `length`. -/
theorem writtenBy_length {i : Instr} {n : Nat} (h : matchLength i = some n) (s t : State) :
    writtenBy i s t = { s with length := t.length } := by
  cases i <;> first | rfl | exact nomatch h

/-- The end of a block's body moves only FSM and the control point. -/
theorem endOfBody_sameData (s : State) : s.sameData (endOfBody s) := by
  rcases endOfBody_cases s with h | h <;> rw [h] <;> rfl

/-- A write of code lengths and the loop test change the entries, `num` and, after the last entry, the tables. -/
theorem nextClSym_sameData {s t : State} {rep : Nat} {v : BitVec 4} (h : t = nextClSym (writeLens rep v s)) :
    State.sameData { s with lens := t.lens, num := t.num, litT := t.litT, distT := t.distT, tables := t.tables } t := by
  unfold nextClSym at h
  split at h <;> subst h <;> rfl

/-- A repeat writes its entries as above, or raises its error and writes none (42_block_dispatch.md R189). -/
theorem repeatLens_sameData {s t : State} {rep : Nat} {v : BitVec 4} (h : (repeatLens rep v s).outcome = .next t) :
    State.sameData { s with lens := t.lens, num := t.num, litT := t.litT, distT := t.distT, tables := t.tables } t := by
  unfold repeatLens at h
  split at h <;> cases h
  · rfl
  · exact nextClSym_sameData rfl

/-- An output instruction writes the output and the fields its rule names, however it ends. -/
theorem exec_output_sameData {i : Instr} {s t : State} (he : emitsOutput i = true) (h : exec i s = .next t) :
    (writtenBy i s t).sameData t := by
  rcases exec_outputEnd he h with ⟨x, d, e, hd, -⟩ | ⟨d, e, hd⟩ | ⟨⟨v, rfl⟩, -, e⟩ | ⟨⟨v, rfl⟩, e⟩
  · rcases emitsOutput_cases he with ⟨d', hm⟩ | ⟨v, rfl⟩ | ⟨v, rfl⟩
    · rw [writtenBy_distance hm, e]; rfl
    · obtain rfl : d = s.distance := hd.resolve_left nofun
      rw [e]; rfl
    · obtain rfl : d = s.distance := hd.resolve_left nofun
      rw [e]; rfl
  · rcases hd with hd | ⟨⟨v, rfl⟩, rfl⟩
    · obtain ⟨d', hm⟩ := Option.isSome_iff_exists.mp hd
      rw [writtenBy_distance hm, e]; rfl
    · rw [e]; rfl
  · rw [e]; rfl
  · rcases endOfBody_cases { s with storedLeft := 0 } with g | g
    all_goals rw [g] at e; rw [e]; rfl

/-- Every other instruction of the stream writes the fields its rule names, whether it goes on or raises. -/
theorem exec_quiet_sameData {i : Instr} {s t : State} (he : emitsOutput i = false) (hi : ∀ w, i ≠ .hostStart w)
    (h : exec i s = .next t) : (writtenBy i s t).sameData t := by
  cases hl : matchLength i with
  | some n =>
    rw [(matchLength_exec hl).2.2] at h
    cases h
    rw [writtenBy_length hl]
    rfl
  | none =>
    cases i
    case zlibHdr cmf flg =>
      simp only [exec, execZlibHdr] at h
      split at h <;> cases h <;> rfl
    case storedLen len nlen =>
      simp only [exec, execStoredLen] at h
      split at h
      · cases h; rfl
      · split at h <;> cases h
        · rcases endOfBody_cases { s with len := len, nlen := nlen, storedLeft := 0 } with g | g
          all_goals simp only [Run.state, g]; rfl
        · rfl
    case clCodelen length =>
      simp only [exec, execClCodelen] at h
      split at h <;> cases h <;> rfl
    case clLen sym => cases h; exact nextClSym_sameData rfl
    case clRepPrev extra =>
      simp only [exec, execClRepPrev] at h
      split at h
      · cases h; rfl
      · exact repeatLens_sameData h
    case clRepZero3 extra => exact repeatLens_sameData h
    case clRepZero11 extra => exact repeatLens_sameData h
    case eob => cases h; exact endOfBody_sameData s
    case adlerTrailer value =>
      simp only [exec, execAdlerTrailer] at h
      split at h <;> cases h <;> rfl
    case hostStart w => exact absurd rfl (hi w)
    case blkStored | blkFixed | blkDynamic | blkReserved | dynHdr | llReserved | distReserved => cases h; rfl
    all_goals first
      | (cases he; done)
      | cases hl

/-- The flags after an instruction other than ADLER_TRAILER: as before, or those of an error (10_state.md R41). -/
theorem StatusAfter.flags {i : Instr} {s t : State} (h : StatusAfter i s t) (hi : ∀ T, i ≠ .adlerTrailer T) :
    s.flagsKeptOrError t := by
  rcases h with ⟨hb, hd, he, hc, -⟩ | ⟨hb, hd, he, hf, x, hc, -⟩ | ⟨h, -⟩
  · exact .inl ⟨hb, hd, he, hc⟩
  · obtain ⟨one_le, le_13⟩ := x.code_bounds
    exact .inr ⟨hb, hd, he, hc ▸ one_le, hc ▸ le_13, hf⟩
  · exact absurd h (hi _)

/-- Settles O48, for the output instructions and for the others. -/
theorem streamInstructionsWriteOnlyTheirState : Obligations.StreamInstructionsWriteOnlyTheirState := by
  intro i s t h hi
  cases he : emitsOutput i with
  | true =>
    obtain ⟨-, -, hs⟩ := exec_output_inputs he h
    exact ⟨exec_output_sameData he h, hs.flags⟩
  | false =>
    obtain ⟨-, -, -, hs⟩ := exec_quiet he hi h
    exact ⟨exec_quiet_sameData he hi h, hs.flags⟩

end Sys2Proof.Machine
end

section
/-! The register file as the host sees it (10_state.md R22 to R32, R42). -/

namespace Sys2Proof.Machine

/-- Appending bit strings is adding numbers. -/
theorem append_toNat {m n : Nat} (x : BitVec m) (y : BitVec n) : (x ++ y).toNat = x.toNat * 2 ^ n + y.toNat := by
  rw [BitVec.toNat_append, ← Nat.shiftLeft_add_eq_or_of_lt y.isLt, Nat.shiftLeft_eq]

/-- CTRL is STORED_ALIGN in bit 1 (10_state.md R23). -/
theorem ctrlWord_bits (s : State) : s.ctrlWord = (0 : BitVec 30) ++ BitVec.ofBool s.storedAlign ++ (0 : BitVec 1) := by
  unfold State.ctrlWord
  cases s.storedAlign <;> rfl

/-- STATUS is BUSY, DONE, ERROR in bits 2:0 and ERRCODE in bits 7:4 (10_state.md R24). -/
theorem statusWord_bits (s : State) :
    s.statusWord = (0 : BitVec 24) ++ s.errcode ++ (0 : BitVec 1) ++ BitVec.ofBool s.error ++ BitVec.ofBool s.done
      ++ BitVec.ofBool s.busy := by
  apply BitVec.eq_of_toNat_eq
  have he := s.errcode.isLt
  have h1 := s.error.toNat_lt
  have h2 := s.done.toNat_lt
  have h3 := s.busy.toNat_lt
  simp only [State.statusWord, append_toNat, BitVec.toNat_ofBool, BitVec.toNat_ofNat, BitVec.ofNat_eq_ofNat]
  omega

/-- STATUS of a running job shows BUSY alone. -/
theorem State.Inv.statusWord_running {s : State} (h : s.Inv) (hb : s.busy = true) : s.statusWord = 1 := by
  obtain ⟨hd, he, hc, -⟩ := h.running hb
  simp only [State.statusWord, hb, hd, he, hc]
  rfl

/-- The reserved offsets read 0 (10_state.md R32). -/
theorem steadyReg_reserved {o : Nat} (h : 0x24 ≤ o) (s : State) : steadyReg o s = some 0 := by
  unfold steadyReg
  rw [if_neg (by omega), if_neg (by omega), if_neg (by omega), if_neg (by omega), if_pos h]

section Access

variable {s : State} {o : Nat} {rest : List HostMove} {v : Word}

/-- A 32-bit read at a word offset of REG is a register read. -/
theorem step_busRead_reg (h : s.hostMoves = .busRead (s.params.regBase + o) 4 :: rest) (ho : o < 64) (h4 : o % 4 = 0) :
    step s = .next (readReg o { s with hostMoves := rest }) := by
  rw [step_cons h]
  simp [hostAction, busRead, route_reg, ho, h4]

/-- A register the host may read at any time answers its value. -/
theorem step_read_steady (h : s.hostMoves = .busRead (s.params.regBase + o) 4 :: rest) (ho : o < 64) (h4 : o % 4 = 0)
    (hv : steadyReg o s = some v) : step s = .next { s with hostMoves := rest, busData := v } := by
  have hv' : steadyReg o { s with hostMoves := rest } = some v := hv
  rw [step_busRead_reg h ho h4, readReg, hv']

/-- A result register answers its value while no job runs. -/
theorem step_read_result (h : s.hostMoves = .busRead (s.params.regBase + o) 4 :: rest) (ho : o < 64) (h4 : o % 4 = 0)
    (hb : s.busy = false) (hv : steadyReg o s = none) :
    step s = .next { s with hostMoves := rest, busData := resultReg o s } := by
  have hv' : steadyReg o { s with hostMoves := rest } = none := hv
  rw [step_busRead_reg h ho h4, readReg, hv']
  simp only [hb]
  rfl

/-- A result register answers a draw while a job runs (10_state.md R42). -/
theorem step_read_draw (h : s.hostMoves = .busRead (s.params.regBase + o) 4 :: rest) (ho : o < 64) (h4 : o % 4 = 0)
    (hb : s.busy = true) (hv : steadyReg o s = none) :
    step s = .next { s with
      hostMoves := rest
      busData := drawnReg o (Config.freeWord s.draws)
      draws := s.draws + 1 } := by
  have hv' : steadyReg o { s with hostMoves := rest } = none := hv
  rw [step_busRead_reg h ho h4, readReg, hv']
  simp only [hb]
  rfl

/-- A byte of OUT answers a draw while a job runs (10_state.md R42). -/
theorem step_read_output_busy {addr : Nat} (h : s.hostMoves = .busRead addr 1 :: rest)
    (hr : route s.params addr = .output o) (hb : s.busy = true) :
    step s = .next { s with
      hostMoves := rest
      busData := (Config.freeByte s.draws).setWidth 32
      draws := s.draws + 1 } := by
  rw [step_cons h]
  simp [hostAction, busRead, hr, hb, drawByte]

/-- A 32-bit write at a word offset of REG is a register write. -/
theorem step_busWrite_reg (h : s.hostMoves = .busWrite (s.params.regBase + o) 4 v :: rest) (ho : o < 64)
    (h4 : o % 4 = 0) : step s = (writeReg o v { s with hostMoves := rest }).outcome := by
  rw [step_cons h]
  simp [hostAction, busWrite, route_reg, ho, h4]

/-- A word with START = 1 written to CTRL is HOST_START (44_stream_driver_adler32.md R300). -/
theorem writeReg_start (hv : v.getLsbD 0 = true) : writeReg 0x00 v s = .run (.hostStart v) s := by
  have hd : decodeHost v = some (.hostStart v) := if_pos hv
  rw [writeReg, if_pos rfl, hd]

/-- A word with START = 0 written to CTRL stores STORED_ALIGN while no job runs (10_state.md R23). -/
theorem writeReg_ctrl (hv : v.getLsbD 0 = false) :
    writeReg 0x00 v s = .settled (.next (if s.busy then s else { s with storedAlign := v.getLsbD 1 })) := by
  have hd : decodeHost v = none := if_neg (by rw [hv]; decide)
  rw [writeReg, if_pos rfl, hd]

/-- A write of IN_LEN while no job runs (10_state.md R25). -/
theorem writeReg_inLen (hb : s.busy = false) :
    writeReg 0x08 v s = .settled (.next { s with inLen := legalLength v s.params.inMemSize }) := by
  rw [writeReg, if_neg (by decide), if_neg (by rw [hb]; decide), if_pos rfl]

/-- A write of OUT_CAP while no job runs (10_state.md R26). -/
theorem writeReg_outCap (hb : s.busy = false) :
    writeReg 0x0C v s = .settled (.next { s with outCap := legalLength v s.params.outMemSize }) := by
  rw [writeReg, if_neg (by decide), if_neg (by rw [hb]; decide), if_neg (by decide), if_pos rfl]

/-- A write at STATUS, a result register or a reserved offset is ignored (20_memory.md R73). -/
theorem writeReg_ignored (hb : s.busy = false) (hCtrl : o ≠ 0x00) (hInLen : o ≠ 0x08) (hOutCap : o ≠ 0x0C) :
    writeReg o v s = .settled (.next s) := by
  rw [writeReg, if_neg hCtrl, if_neg (by rw [hb]; decide), if_neg hInLen, if_neg hOutCap]

end Access

/-- Settles O15: the write at REG_BASE is the write of CTRL, whose START bit says whether the word is HOST_START. -/
theorem startWriteRunsHostStart : Obligations.StartWriteRunsHostStart := by
  intro s w rest h
  have hs : step s = (writeReg 0 w { s with hostMoves := rest }).outcome :=
    step_busWrite_reg (o := 0) h (by decide) (by decide)
  refine ⟨fun hw => ?_, fun hw hb => ?_, fun hw hb => ?_⟩
  · rw [hs, writeReg_start hw]; rfl
  · rw [hs, writeReg_ctrl hw]; simp only [hb]; rfl
  · rw [hs, writeReg_ctrl hw]; simp only [hb]; rfl

/-- Settles O40: each offset is a steady register, a result register, or reserved. -/
theorem registersReadWhileIdle : Obligations.RegistersReadWhileIdle := by
  intro s o rest h hb
  refine ⟨?_, ?_, ?_, ?_, ?_, ?_, ?_, ?_, ?_, fun h1 h2 h4 => ?_⟩
  · rintro rfl; exact step_read_steady h (by decide) (by decide) (congrArg some (ctrlWord_bits s))
  · rintro rfl; exact step_read_steady h (by decide) (by decide) (congrArg some (statusWord_bits s))
  · rintro rfl; exact step_read_steady h (by decide) (by decide) rfl
  · rintro rfl; exact step_read_steady h (by decide) (by decide) rfl
  · rintro rfl; exact step_read_result h (by decide) (by decide) hb rfl
  · rintro rfl; exact step_read_result h (by decide) (by decide) hb rfl
  · rintro rfl; exact step_read_result h (by decide) (by decide) hb rfl
  · rintro rfl; exact step_read_result h (by decide) (by decide) hb rfl
  · rintro rfl
    rw [step_read_result h (by decide) (by decide) hb rfl]
    show Host.Outcome.next { s with hostMoves := rest, busData := s.fsmWord } = _
    unfold State.fsmWord
    cases s.fsm <;> rfl
  · exact step_read_steady h (by omega) h4 (steadyReg_reserved h1 s)

/-- Settles O41: during a job the steady registers answer as ever, and a result register or a byte of OUT is a draw. -/
theorem registersReadWhileBusy : Obligations.RegistersReadWhileBusy := by
  intro s rest hb hi
  refine ⟨fun o h => ⟨?_, ?_, ?_, ?_, fun h1 h2 h4 => ?_, fun ho => ?_, ?_⟩, fun addr o h hr => ?_⟩
  · rintro rfl; exact step_read_steady h (by decide) (by decide) (congrArg some (hi.statusWord_running hb))
  · rintro rfl; exact step_read_steady h (by decide) (by decide) rfl
  · rintro rfl; exact step_read_steady h (by decide) (by decide) rfl
  · rintro rfl; exact step_read_steady h (by decide) (by decide) rfl
  · exact step_read_steady h (by omega) h4 (steadyReg_reserved h1 s)
  · simp only [List.mem_cons, List.not_mem_nil, or_false] at ho
    rcases ho with rfl | rfl | rfl | rfl <;> exact step_read_draw h (by decide) (by decide) hb rfl
  · rintro rfl
    refine ⟨_, rfl, ?_⟩
    rw [step_read_draw h (by decide) (by decide) hb rfl, drawnReg_fsm]
  · exact step_read_output_busy h hr hb

/-- Settles O42: the two length registers keep the legal value, and every other offset but CTRL ignores the write. -/
theorem registerWritesKeepLegalValues : Obligations.RegisterWritesKeepLegalValues := by
  intro s o v rest h hb
  have hb' : State.busy { s with hostMoves := rest } = false := hb
  refine ⟨?_, ?_, fun ho => ?_⟩
  · rintro rfl
    refine ⟨_, legalLength_toNat v s.params.inMemSize, ?_⟩
    rw [step_busWrite_reg h (by decide) (by decide), writeReg_inLen hb']
    rfl
  · rintro rfl
    refine ⟨_, legalLength_toNat v s.params.outMemSize, ?_⟩
    rw [step_busWrite_reg h (by decide) (by decide), writeReg_outCap hb']
    rfl
  · simp only [List.mem_cons, List.not_mem_nil, or_false] at ho
    rw [step_busWrite_reg h (by omega) (by omega), writeReg_ignored hb' (by omega) (by omega) (by omega)]
    rfl

end Sys2Proof.Machine
end

section
/-! Which memory an instruction, or a step of the engine, may write (20_memory.md R62 to R64, R79). -/

namespace Sys2Proof.Machine

/-- Appended output lies from OUT_LEN before to OUT_LEN after in OUT, and from `wp` on in WINDOW; every other byte of both
is unchanged (43_lz77_window_emitter.md R212). -/
theorem State.appended_frame {s t : State} {bs : List Byte} (h : s.appended t bs) :
    s.outLen.toNat ≤ t.outLen.toNat
    ∧ (∀ a, a < s.outLen.toNat ∨ t.outLen.toNat ≤ a → t.outMem.read a = s.outMem.read a)
    ∧ (∀ a, (∀ k, k < t.outLen.toNat - s.outLen.toNat → a ≠ (s.wp.toNat + k) % 32768) →
        t.window.read a = s.window.read a) := by
  obtain ⟨hlen, -, -, hout, -, hwin, -⟩ := h
  rw [hlen, Nat.add_sub_cancel_left]
  exact ⟨Nat.le_add_right .., hout, hwin⟩

/-- HOST_START leaves every memory (44_stream_driver_adler32.md R300, R301). -/
theorem exec_hostStart_sameBytes {s t : State} {w : BitVec 32} (h : exec (.hostStart w) s = .next t) :
    s.sameBytes t := by
  simp only [exec, execHostStart] at h
  split at h <;> cases h <;> exact ⟨fun _ => rfl, fun _ => rfl, fun _ => rfl⟩

/-- An instruction that emits nothing leaves every memory, HOST_START included (20_memory.md R63, R64). -/
theorem exec_quiet_sameBytes {i : Instr} {s t : State} (he : emitsOutput i = false) (h : exec i s = .next t) :
    s.sameBytes t := by
  by_cases hi : ∃ w, i = .hostStart w
  · obtain ⟨w, rfl⟩ := hi
    exact exec_hostStart_sameBytes h
  · obtain ⟨hin, hout, -⟩ := exec_quiet he (not_exists.mp hi) h
    exact ⟨fun a => by rw [hin.inMem], fun a => by rw [hout.outMem], fun a => by rw [hout.window]⟩

/-- Settles O47: what emits appends output and keeps IN; what does not emit keeps every memory. -/
theorem onlyOutputInstructionsWriteMemory : Obligations.OnlyOutputInstructionsWriteMemory := by
  intro i s t h
  refine ⟨fun he => exec_quiet_sameBytes he h, fun he wfOut wfWin => ?_⟩
  obtain ⟨hin, -⟩ := exec_output_inputs he h
  obtain ⟨bs, happ, -⟩ := exec_emits he wfOut wfWin h
  exact ⟨fun a => by rw [hin.inMem], State.appended_frame happ⟩

/-- A step of the engine in a running job keeps the job's inputs and appends output that fits in OUT_CAP: an instruction
some bytes, a failed fetch none. -/
theorem engine_appends_fitting {s t : State} (h : s.Inv) (hb : s.busy = true)
    (hx : (engineAction s).outcome = .next t) :
    s.SameInputs t ∧ ∃ bs, s.appended t bs ∧ (bs = [] ∨ s.outLen.toNat + bs.length ≤ s.cap.toNat) := by
  rcases engine_run h hb hx with ⟨_, _, -, -, -, -, hin, -, -, bs, happ, -, hfit⟩ | ⟨_, hin, hout, -⟩
  · exact ⟨hin, bs, happ, hfit⟩
  · exact ⟨hin, [], hout.appended, .inl rfl⟩

/-- Settles O49: outside a job the engine's turn changes nothing; in a job it appends output that fits. -/
theorem engineWritesOnlyNewOutput : Obligations.EngineWritesOnlyNewOutput := by
  intro s t h hturn hx
  obtain ⟨moves, hstep⟩ := step_engine hturn
  have he := hstep.symm.trans hx
  cases hb : s.busy with
  | false =>
    rw [engineAction_idle (s := { s with hostMoves := moves }) hb] at he
    cases he
    exact ⟨rfl, rfl, rfl, rfl, le_rfl, nofun, fun _ _ => rfl⟩
  | true =>
    obtain ⟨hin, bs, happ, hfit⟩ := engine_appends_fitting (h.with_moves moves) hb he
    obtain ⟨hmono, hout, -⟩ := State.appended_frame happ
    obtain ⟨-, -, -, -, hcap⟩ := h.latches hb
    have hlen : t.outLen.toNat = s.outLen.toNat + bs.length := happ.1
    refine ⟨hin.inMem, hin.storedAlign, hin.inLen, hin.outCap, hmono, fun _ => ?_, hout⟩
    rcases hfit with rfl | hfit
    · exact hlen.trans_le hcap
    · exact hlen.trans_le hfit

end Sys2Proof.Machine
end

section
/-! The engine's turn as one of the decoder's answers (20_memory.md R75, 60_exceptions.md R340, R341, R352). -/

namespace Sys2Proof.Machine

/-- With no host move pending, or past the host's pass, a step is the engine's action (20_memory.md R75). -/
theorem step_eq_engineAction {s u : State} {moves : List HostMove}
    (h : (s.hostMoves = [] ∧ u = s) ∨ (s.hostMoves = .pass :: moves ∧ u = { s with hostMoves := moves })) :
    step s = (engineAction u).outcome := by
  rcases h with ⟨hm, rfl⟩ | ⟨hm, rfl⟩
  · exact step_nil hm
  · exact step_cons hm

/-- Settles O13: the step is the engine's action, one clause for each answer of the decoder and one for no job. -/
theorem stepRunsDecodedInstruction : Obligations.StepRunsDecodedInstruction := by
  intro s u moves h
  rw [step_eq_engineAction h]
  refine ⟨fun hb => ⟨fun i r hd => ?_, fun got r hd => ?_, fun r hd => ?_⟩, fun hb => ?_⟩
  · rw [engineAction_ok hb hd, Action.outcome_run]
  · rw [engineAction_exhausted hb hd, Action.outcome_settled]
  · rw [engineAction_noCode hb hd, Action.outcome_settled]
  · rw [engineAction_idle hb, Action.outcome_settled]

end Sys2Proof.Machine
end

section
/-! The buffers as the host reaches them (20_memory.md R60, R61, R73, R78). -/

namespace Sys2Proof.Machine

/-- Where the spaces do not overlap, IN_BASE + o leads to offset o of IN (20_memory.md R60). -/
theorem route_inBase {p : Config.Params} {o : Nat} (hp : p.disjoint) (ho : o < p.inMemSize) :
    route p (p.inBase + o) = .input o := by
  have hIn : p.inBase ≤ p.inBase + o ∧ p.inBase + o < p.inBase + p.inMemSize := by omega
  obtain ⟨regIn, -, -⟩ := hp (p.inBase + o)
  rw [route, if_neg fun hReg => regIn ⟨hReg, hIn⟩, if_pos hIn, Nat.add_sub_cancel_left]

/-- Where the spaces do not overlap, OUT_BASE + o leads to offset o of OUT (20_memory.md R60). -/
theorem route_outBase {p : Config.Params} {o : Nat} (hp : p.disjoint) (ho : o < p.outMemSize) :
    route p (p.outBase + o) = .output o := by
  have hOut : p.outBase ≤ p.outBase + o ∧ p.outBase + o < p.outBase + p.outMemSize := by omega
  obtain ⟨-, regOut, inOut⟩ := hp (p.outBase + o)
  rw [route, if_neg fun hReg => regOut ⟨hReg, hOut⟩, if_neg fun hIn => inOut ⟨hIn, hOut⟩, if_pos hOut,
    Nat.add_sub_cancel_left]

section Access

variable {s : State} {addr width o : Nat} {rest : List HostMove} {v : Word}

/-- A host write of a byte of IN while no job runs (20_memory.md R60). -/
theorem step_busWrite_input (h : s.hostMoves = .busWrite addr 1 v :: rest) (hr : route s.params addr = .input o)
    (hb : s.busy = false) :
    step s = .next { s with hostMoves := rest, inMem := s.inMem.write o (v.setWidth 8) } := by
  rw [step_cons h]
  simp [hostAction, busWrite, hr, hb]

/-- A host write of a byte of OUT while no job runs (20_memory.md R60). -/
theorem step_busWrite_output (h : s.hostMoves = .busWrite addr 1 v :: rest) (hr : route s.params addr = .output o)
    (hb : s.busy = false) :
    step s = .next { s with hostMoves := rest, outMem := s.outMem.write o (v.setWidth 8) } := by
  rw [step_cons h]
  simp [hostAction, busWrite, hr, hb]

/-- A host read of a byte of IN while no job runs answers it, zero-extended (20_memory.md R60, R73). -/
theorem step_busRead_input (h : s.hostMoves = .busRead addr 1 :: rest) (hr : route s.params addr = .input o)
    (hb : s.busy = false) : step s = .next { s with hostMoves := rest, busData := (s.inMem.read o).setWidth 32 } := by
  rw [step_cons h]
  simp [hostAction, busRead, hr, hb]

/-- A host read of a byte of OUT while no job runs answers it, zero-extended (20_memory.md R60, R73). -/
theorem step_busRead_output (h : s.hostMoves = .busRead addr 1 :: rest) (hr : route s.params addr = .output o)
    (hb : s.busy = false) : step s = .next { s with hostMoves := rest, busData := (s.outMem.read o).setWidth 32 } := by
  rw [step_cons h]
  simp [hostAction, busRead, hr, hb]

/-- A host write of a byte of IN or OUT while a job runs is refused (20_memory.md R78). -/
theorem step_busWrite_buffer_busy (h : s.hostMoves = .busWrite addr 1 v :: rest)
    (hr : route s.params addr = .input o ∨ route s.params addr = .output o) (hb : s.busy = true) :
    step s = .refused .hostWriteWhileBusy := by
  rw [step_cons h]
  rcases hr with hr | hr <;> simp [hostAction, busWrite, hr, hb]

/-- A host access to REG of a width other than 4 or at an offset that is no multiple of 4 is refused, a read as well
as a write (20_memory.md R61). -/
theorem step_reg_refused (ho : o < 64) (hw : width ≠ 4 ∨ o % 4 ≠ 0)
    (h : s.hostMoves = .busRead (s.params.regBase + o) width :: rest
      ∨ s.hostMoves = .busWrite (s.params.regBase + o) width v :: rest) : step s = .refused .regAccess := by
  rcases h with h | h <;> rw [step_cons h]
  · simp only [hostAction, busRead, route_reg _ ho, if_pos hw, Action.outcome_settled]
  · simp only [hostAction, busWrite, route_reg _ ho, if_pos hw, Action.outcome_settled]

end Access

/-- Two steps that answer a next state are a run of two. -/
theorem run_two {s t u : State} (h1 : step s = .next t) (h2 : step t = .next u) : core.run 2 s = .next u := by
  rw [run_succ h1, run_succ h2, run_zero]

/-- In a canonical memory a written byte reads back, and every other byte reads as before (20_memory.md R62, R63). -/
theorem Memory.write_reads {m : Memory} (h : m.wf = true) (o : Nat) (v : Byte) :
    (m.write o v).read o = v ∧ ∀ a, a ≠ o → (m.write o v).read a = m.read a :=
  ⟨by rw [Memory.read_write h, if_pos rfl], fun a ha => by rw [Memory.read_write h, if_neg ha]⟩

/-- Settles O45: the write stores the byte at the offset its address leads to, and the read answers that byte. -/
theorem bufferReadsWhatTheHostWrote : Obligations.BufferReadsWhatTheHostWrote := by
  intro s v o rest hb hp wfIn wfOut
  refine ⟨fun ho hm => ?_, fun ho hm => ?_⟩
  · have hr := route_inBase hp ho
    have hrw := Memory.write_reads wfIn o (v.setWidth 8)
    have hread := step_busRead_input (s := { s with
      hostMoves := .busRead (s.params.inBase + o) 1 :: rest, inMem := s.inMem.write o (v.setWidth 8) }) rfl hr hb
    rw [hrw.1] at hread
    exact ⟨_, run_two (step_busWrite_input hm hr hb) hread, hrw⟩
  · have hr := route_outBase hp ho
    have hrw := Memory.write_reads wfOut o (v.setWidth 8)
    have hread := step_busRead_output (s := { s with
      hostMoves := .busRead (s.params.outBase + o) 1 :: rest, outMem := s.outMem.write o (v.setWidth 8) }) rfl hr hb
    rw [hrw.1] at hread
    exact ⟨_, run_two (step_busWrite_output hm hr hb) hread, hrw⟩

/-- Settles O44: REG takes aligned 32-bit accesses only, and a job keeps the host from writing the buffers. -/
theorem hostAccessesRefused : Obligations.HostAccessesRefused :=
  fun _ _ _ _ => ⟨fun _ ho hw h => step_reg_refused ho hw h,
    fun _ _ hb hr h => step_busWrite_buffer_busy h hr hb⟩

end Sys2Proof.Machine
end

section
/-! The encoder against the decoder (30_encoding.md R90 to R100, R105). -/

namespace Sys2Proof

open Sys2Proof.Machine

section Encoder

variable {f : Format} {i : Instr} {bits : List Bool} {t : Huff} {first : Bool}

/-- Only a well-formed instruction of the format's own row has an encoding in it. -/
theorem encode_eq_some (h : encode f i = some bits) : i.wf = true ∧ i.parts.row = f.row := by
  unfold encode at h
  split at h
  · rename_i hg
    simpa using hg
  · cases h

/-- In a plain format the encoding is the plain bits (30_encoding.md R91). -/
theorem encode_plain (hw : i.wf = true) (hr : i.parts.row = f.row) (hcl : ∀ t first, f ≠ .clSym t first)
    (hll : ∀ t, f ≠ .litLen t) (hd : ∀ t, f ≠ .dist t) : encode f i = some i.parts.bits := by
  have hg : (i.wf && i.parts.row == f.row) = true := by simp [hw, hr]
  cases f
  case clSym t first => exact absurd rfl (hcl t first)
  case litLen t => exact absurd rfl (hll t)
  case dist t => exact absurd rfl (hd t)
  all_goals exact if_pos hg

/-- A literal/length instruction is its symbol's code and its extra bits (30_encoding.md R98). -/
theorem encode_litLen (hw : i.wf = true) (hr : i.parts.row = .litLen) :
    encode (.litLen t) i = encodeCoded t i.parts :=
  if_pos (by simp [hw, hr, Format.row])

/-- A distance code is its symbol's code and its extra bits (30_encoding.md R99). -/
theorem encode_dist (hw : i.wf = true) (hr : i.parts.row = .dist) : encode (.dist t) i = encodeCoded t i.parts :=
  if_pos (by simp [hw, hr, Format.row])

/-- A code-length instruction is its symbol's code and its extra bits (30_encoding.md R97), but for CL_REP_PREV at the
first code length, which is its code alone (42_block_dispatch.md R186). -/
theorem encode_clSym (hw : i.wf = true) (hr : i.parts.row = .clSym) :
    encode (.clSym t first) i =
      if first = true ∧ i.parts.sym = 16 then (if i = .clRepPrev 0 then codeOf t 16 else none)
      else encodeCoded t i.parts := by
  rw [encode, if_pos (by simp [hw, hr, Format.row])]
  simp only [Bool.and_eq_true, beq_iff_eq]

/-- The encoding of a Huffman-coded instruction is a code of its symbol and its extra bits (30_encoding.md R92). -/
theorem encodeCoded_eq_some {p : Parts} (h : encodeCoded t p = some bits) :
    ∃ code, codeOf t p.sym = some code ∧ bits = code ++ p.bits := by
  unfold encodeCoded at h
  split at h
  · cases h
  · rename_i code hc
    exact ⟨code, hc, (Option.some.inj h).symm⟩

end Encoder

/-! ### The instructions of a plain row -/

theorem row_zlibHdr {i : Instr} (h : i.parts.row = .zlibHdr) : ∃ cmf flg, i = .zlibHdr cmf flg := by
  cases i
  case zlibHdr cmf flg => exact ⟨cmf, flg, rfl⟩
  all_goals exact nomatch h

/-- A block header is a BFINAL bit and a BTYPE field (30_encoding.md R94). -/
theorem row_blkHdr {i : Instr} (h : i.parts.row = .blkHdr) :
    ∃ bfinal btype, i = blkInstr bfinal btype ∧ i.parts.bits = bfinal :: fieldBits btype := by
  cases i
  case blkStored bfinal => exact ⟨bfinal, 0, rfl, rfl⟩
  case blkFixed bfinal => exact ⟨bfinal, 1, rfl, rfl⟩
  case blkDynamic bfinal => exact ⟨bfinal, 2, rfl, rfl⟩
  case blkReserved bfinal => exact ⟨bfinal, 3, rfl, rfl⟩
  all_goals exact nomatch h

theorem row_storedLen {i : Instr} (h : i.parts.row = .storedLen) : ∃ len nlen, i = .storedLen len nlen := by
  cases i
  case storedLen len nlen => exact ⟨len, nlen, rfl⟩
  all_goals exact nomatch h

theorem row_storedByte {i : Instr} (h : i.parts.row = .storedByte) : ∃ data, i = .storedByte data := by
  cases i
  case storedByte data => exact ⟨data, rfl⟩
  all_goals exact nomatch h

theorem row_dynHdr {i : Instr} (h : i.parts.row = .dynHdr) : ∃ hlit hdist hclen, i = .dynHdr hlit hdist hclen := by
  cases i
  case dynHdr hlit hdist hclen => exact ⟨hlit, hdist, hclen, rfl⟩
  all_goals exact nomatch h

theorem row_clCodelen {i : Instr} (h : i.parts.row = .clCodelen) : ∃ length, i = .clCodelen length := by
  cases i
  case clCodelen length => exact ⟨length, rfl⟩
  all_goals exact nomatch h

theorem row_trailer {i : Instr} (h : i.parts.row = .trailer) : ∃ value, i = .adlerTrailer value := by
  cases i
  case adlerTrailer value => exact ⟨value, rfl⟩
  all_goals exact nomatch h

theorem row_host {i : Instr} (h : i.parts.row = .host) : ∃ word, i = .hostStart word := by
  cases i
  case hostStart word => exact ⟨word, rfl⟩
  all_goals exact nomatch h

/-! ### What a reader that sees an encoding answers -/

section Sees

variable {r : Reader} {i : Instr}

theorem decodeBlkHdr_sees (hr : i.parts.row = .blkHdr) (hs : r.sees i.parts.bits) :
    decodeBlkHdr r = .ok i (r.skip i.parts.bits.length) := by
  obtain ⟨bfinal, btype, hi, hb⟩ := row_blkHdr hr
  rw [hb] at hs ⊢
  obtain ⟨hbit, hfield⟩ := hs
  simp only [decodeBlkHdr, hbit, Reader.getBits_of_sees btype hfield, Reader.skip_skip, hi, List.length_cons,
    fieldBits_length]

theorem decodeStoredLen_sees (hr : i.parts.row = .storedLen) (hs : r.sees i.parts.bits) :
    decodeStoredLen r = .ok i (r.skip i.parts.bits.length) := by
  obtain ⟨len, nlen, rfl⟩ := row_storedLen hr
  obtain ⟨hlen, hnlen⟩ := Reader.sees_append.mp hs
  rw [fieldBits_length] at hnlen
  simp only [decodeStoredLen, Reader.getBits_of_sees len hlen, Reader.getBits_of_sees nlen hnlen, Reader.skip_skip,
    Instr.parts, List.length_append, fieldBits_length]

theorem decodeDynHdr_sees (hr : i.parts.row = .dynHdr) (hs : r.sees i.parts.bits) :
    decodeDynHdr r = .ok i (r.skip i.parts.bits.length) := by
  obtain ⟨hlit, hdist, hclen, rfl⟩ := row_dynHdr hr
  obtain ⟨h1, hs⟩ := Reader.sees_append.mp hs
  obtain ⟨h2, h3⟩ := Reader.sees_append.mp hs
  simp only [fieldBits_length, Reader.skip_skip] at h2 h3
  simp only [decodeDynHdr, Reader.getBits_of_sees hlit h1, Reader.getBits_of_sees hdist h2,
    Reader.getBits_of_sees hclen h3, Reader.skip_skip, Instr.parts, List.length_append, fieldBits_length]

/-- On a byte boundary there is no padding to skip (40_bitstream_reader.md R125). -/
theorem Machine.Reader.align_of_bitOff_zero (h : bitOff r.pos = 0) : r.align = r := by
  simp [Reader.align, alignPos, h]

theorem decode_storedLen_sees {align : Bool} (hr : i.parts.row = .storedLen) (ha : align = true → bitOff r.pos = 0)
    (hs : r.sees i.parts.bits) : decode (.storedLen align) r = .ok i (r.skip i.parts.bits.length) := by
  have hpad : (if align then r.align else r) = r := by
    split
    · rename_i h
      exact Reader.align_of_bitOff_zero (ha h)
    · rfl
  rw [decode, hpad]
  exact decodeStoredLen_sees hr hs

/-- A reader that sees an encoding in a coded format reads the symbol, then what the symbol stands for. -/
theorem decodeCoded_sees {t : Huff} {instr : Nat → Reader → DecodeResult} {bits : List Bool}
    (h : encodeCoded t i.parts = some bits) (hs : r.sees bits)
    (hi : ∀ r1 : Reader, r1.sees i.parts.bits → instr i.parts.sym r1 = .ok i (r1.skip i.parts.bits.length)) :
    decodeCoded t instr r = .ok i (r.skip bits.length) := by
  obtain ⟨code, hc, rfl⟩ := encodeCoded_eq_some h
  exact coded_sees hc hs hi

theorem decode_clSym_sees {t : Huff} {first : Bool} {bits : List Bool} (h : encode (.clSym t first) i = some bits)
    (hs : r.sees bits) : decode (.clSym t first) r = .ok i (r.skip bits.length) := by
  obtain ⟨hw, hr⟩ := encode_eq_some h
  rw [encode_clSym hw hr] at h
  split at h
  · rename_i hfirst
    split at h
    · rename_i hi
      obtain ⟨rfl, -⟩ := hfirst
      subst hi
      rw [← List.append_nil bits] at hs ⊢
      exact coded_sees h hs fun r1 _ => by simp [clInstr]
    · cases h
  · rename_i hfirst
    exact decodeCoded_sees h hs (clSym_parts hr fun hf h16 => hfirst ⟨hf, h16⟩)

/-- Formats whose encoding lies in the bit region: decoding the encoding gives the instruction back. -/
theorem decode_sees_encode {f : Format} {bits : List Bool} (h : encode f i = some bits) (hz : f ≠ .zlibHdr)
    (ht : f ≠ .trailer) (ha : f = .storedLen true → bitOff r.pos = 0) (hs : r.sees bits) :
    decode f r = .ok i (r.skip bits.length) := by
  obtain ⟨hw, hr⟩ := encode_eq_some h
  have plain (hcl : ∀ t first, f ≠ .clSym t first) (hll : ∀ t, f ≠ .litLen t) (hd : ∀ t, f ≠ .dist t) :
      bits = i.parts.bits := Option.some.inj (h.symm.trans (encode_plain hw hr hcl hll hd))
  cases f with
  | zlibHdr => exact absurd rfl hz
  | trailer => exact absurd rfl ht
  | blkHdr =>
    obtain rfl := plain nofun nofun nofun
    exact decodeBlkHdr_sees hr hs
  | storedLen align =>
    obtain rfl := plain nofun nofun nofun
    exact decode_storedLen_sees hr (fun h => ha (h ▸ rfl)) hs
  | storedByte =>
    obtain rfl := plain nofun nofun nofun
    obtain ⟨data, rfl⟩ := row_storedByte hr
    exact withExtra_sees hs
  | dynHdr =>
    obtain rfl := plain nofun nofun nofun
    exact decodeDynHdr_sees hr hs
  | clCodelen =>
    obtain rfl := plain nofun nofun nofun
    obtain ⟨length, rfl⟩ := row_clCodelen hr
    exact withExtra_sees hs
  | clSym t first => exact decode_clSym_sees h hs
  | litLen t =>
    rw [encode_litLen hw hr] at h
    exact decodeCoded_sees h hs (litLen_parts hw hr)
  | dist t =>
    rw [encode_dist hw hr] at h
    exact decodeCoded_sees h hs (dist_parts hw hr)

end Sees

/-- Two fields of one width, one after the other, are known from their bits. -/
theorem fieldBits_append_inj {m n : Nat} {v v' : BitVec m} {w w' : BitVec n}
    (h : fieldBits v ++ fieldBits w = fieldBits v' ++ fieldBits w') : v = v' ∧ w = w' := by
  obtain ⟨hv, hw⟩ := List.append_inj h (by simp)
  exact ⟨fieldBits_inj hv, fieldBits_inj hw⟩

/-- The header's two bytes are CMF and FLG (30_encoding.md R93). -/
theorem decode_zlibHdr_bytes {i : Instr} {bits : List Bool} {r : Reader} (h : encode .zlibHdr i = some bits)
    (hn : 2 ≤ r.n) (hb : fieldBits (r.mem.read 0) ++ fieldBits (r.mem.read 1) = bits) : decode .zlibHdr r = .ok i r := by
  obtain ⟨cmf, flg, rfl⟩ := row_zlibHdr (encode_eq_some h).2
  cases h
  obtain ⟨hcmf, hflg⟩ := fieldBits_append_inj hb
  rw [decode, if_neg (by omega), hcmf, hflg]

/-- A word is its four bytes, the first the most significant (20_memory.md R70). -/
theorem extractLsb'_bytes (v : BitVec 32) :
    v.extractLsb' 24 8 ++ v.extractLsb' 16 8 ++ v.extractLsb' 8 8 ++ v.extractLsb' 0 8 = v := by
  have h3 : v.extractLsb' 24 8 ++ v.extractLsb' 16 8 = v.extractLsb' 16 16 :=
    BitVec.extractLsb'_append_extractLsb'_eq_extractLsb' rfl
  have h2 : v.extractLsb' 16 16 ++ v.extractLsb' 8 8 = v.extractLsb' 8 24 :=
    BitVec.extractLsb'_append_extractLsb'_eq_extractLsb' rfl
  have h1 : v.extractLsb' 8 24 ++ v.extractLsb' 0 8 = v.extractLsb' 0 32 :=
    BitVec.extractLsb'_append_extractLsb'_eq_extractLsb' rfl
  rw [h3, h2, h1, BitVec.extractLsb'_eq_self]

/-- The trailer's four bytes are the value, most significant first (30_encoding.md R100). -/
theorem decode_trailer_bytes {i : Instr} {bits : List Bool} {r : Reader} (h : encode .trailer i = some bits)
    (hb : fieldBits (r.mem.read (r.n - 4)) ++ fieldBits (r.mem.read (r.n - 3)) ++ fieldBits (r.mem.read (r.n - 2))
      ++ fieldBits (r.mem.read (r.n - 1)) = bits) : decode .trailer r = .ok i r := by
  obtain ⟨value, rfl⟩ := row_trailer (encode_eq_some h).2
  cases h
  obtain ⟨hb, h0⟩ := List.append_inj hb (by simp)
  obtain ⟨hb, h1⟩ := List.append_inj hb (by simp)
  obtain ⟨h3, h2⟩ := fieldBits_append_inj hb
  rw [decode, trailerValue, h3, h2, fieldBits_inj h1, fieldBits_inj h0, extractLsb'_bytes]

/-- Settles O2: a format in the bit region is read from the bits in sight, the header and the trailer from their bytes. -/
theorem encodeThenDecode : Obligations.EncodeThenDecode :=
  ⟨fun _ _ _ _ h hz ht ha hs => decode_sees_encode h hz ht ha hs, fun _ _ _ h hn hb => decode_zlibHdr_bytes h hn hb,
    fun _ _ _ h _ hb => decode_trailer_bytes h hb⟩

end Sys2Proof
end

section
/-! The codes of the fixed tables (30_encoding.md R101, R102). -/

namespace Sys2Proof.Machine

/-! ### Reading off a canonical code -/

/-- The code of the symbol at an index, where the symbol entries hold no symbol twice (41_huffman.md R145). -/
theorem codeOf_getElem {t : Huff} {idx sym : Nat} (hnd : t.symbols.Nodup) (hidx : idx < t.coded)
    (hsym : t.symbols[idx]? = some sym) : codeOf t sym = codeFrom ((t.counts.drop 1).take Config.maxBits) idx 0 1 := by
  have hfirst : (t.symbols.take t.coded).idxOf? sym = some idx := by
    obtain ⟨hlt, hget⟩ := List.getElem?_eq_some_iff.mp hsym
    refine List.idxOf?_eq_some_iff.mpr ⟨by rw [List.length_take]; omega, by rw [List.getElem_take, hget], fun j hj heq => ?_⟩
    rw [List.getElem_take, ← hget, hnd.getElem_inj_iff] at heq
    omega
  rw [codeOf, hfirst]

/-- An index below the count of the current length has a code of that length. -/
theorem codeFrom_lt {c idx first len : Nat} {counts : List Nat} (hidx : idx < c) (hfit : first + idx < 2 ^ len) :
    codeFrom (c :: counts) idx first len = some (codeBits len (first + idx)) := by
  rw [codeFrom, if_pos hidx, if_pos hfit]

/-- An index past the count of the current length has a longer code. -/
theorem codeFrom_le {c idx first len : Nat} {counts : List Nat} (hidx : c ≤ idx) :
    codeFrom (c :: counts) idx first len = codeFrom counts (idx - c) (2 * (first + c)) (len + 1) := by
  rw [codeFrom, if_neg (Nat.not_lt.mpr hidx)]

/-- Lengths with no code come before the first code, whose value is 0. -/
theorem codeFrom_replicate_zero (n : Nat) (counts : List Nat) (idx len : Nat) :
    codeFrom (List.replicate n 0 ++ counts) idx 0 len = codeFrom counts idx 0 (len + n) := by
  induction n generalizing len with
  | zero => rfl
  | succ n ih =>
    rw [List.replicate_succ, List.cons_append, codeFrom_le (Nat.zero_le idx), Nat.sub_zero, ih, Nat.add_right_comm]
    rfl

/-! ### The fixed literal/length table -/

theorem fixedLit_coded : fixedLit.coded = 288 := rfl

theorem fixedLit_counts : (fixedLit.counts.drop 1).take Config.maxBits
    = List.replicate 6 0 ++ [24, 152, 112, 0, 0, 0, 0, 0, 0] := rfl

/-- The four ranges of the symbol entries share no symbol. -/
theorem fixedLit_nodup : fixedLit.symbols.Nodup := by
  simp only [fixedLit, List.nodup_append, List.mem_append, List.mem_range'_1]
  refine ⟨⟨⟨List.nodup_range', List.nodup_range', ?_⟩, List.nodup_range', ?_⟩, List.nodup_range', ?_⟩
  all_goals intro a ha b hb; omega

/-- Each range of symbols stands in its place among the symbol entries (41_huffman.md R150). -/
theorem fixedLit_symbols (k : Nat) :
    (k < 24 → fixedLit.symbols[k]? = some (256 + k))
    ∧ (k < 144 → fixedLit.symbols[24 + k]? = some k)
    ∧ (k < 8 → fixedLit.symbols[168 + k]? = some (280 + k))
    ∧ (k < 112 → fixedLit.symbols[176 + k]? = some (144 + k)) := by
  have len3 : (List.range' 256 24 ++ List.range' 0 144 ++ List.range' 280 8).length = 176 := rfl
  have len2 : (List.range' 256 24 ++ List.range' 0 144).length = 168 := rfl
  have len1 : (List.range' 256 24).length = 24 := rfl
  refine ⟨fun h => ?_, fun h => ?_, fun h => ?_, fun h => ?_⟩ <;> rw [fixedLit]
  · rw [List.getElem?_append_left (by omega), List.getElem?_append_left (by omega),
      List.getElem?_append_left (by omega), List.getElem?_range' h, Nat.one_mul]
  · rw [List.getElem?_append_left (by omega), List.getElem?_append_left (by omega),
      List.getElem?_append_right (by omega), len1, Nat.add_sub_cancel_left, List.getElem?_range' h, Nat.one_mul,
      Nat.zero_add]
  · rw [List.getElem?_append_left (by omega), List.getElem?_append_right (by omega), len2, Nat.add_sub_cancel_left,
      List.getElem?_range' h, Nat.one_mul]
  · rw [List.getElem?_append_right (by omega), len3, Nat.add_sub_cancel_left, List.getElem?_range' h, Nat.one_mul]

/-- The code of the symbol at an index, from length 7 on. -/
theorem codeOf_fixedLit_index {idx sym : Nat} (hidx : idx < 288) (hsym : fixedLit.symbols[idx]? = some sym) :
    codeOf fixedLit sym = codeFrom [24, 152, 112, 0, 0, 0, 0, 0, 0] idx 0 7 := by
  rw [codeOf_getElem fixedLit_nodup hidx hsym, fixedLit_counts, codeFrom_replicate_zero]

section Codes

variable {k : Nat}

/-- Symbols 256 to 279: the 7-bit codes (30_encoding.md R101). -/
theorem codeOf_fixedLit_length_low (h : k < 24) : codeOf fixedLit (256 + k) = some (codeBits 7 k) := by
  obtain ⟨hsym, -, -, -⟩ := fixedLit_symbols k
  rw [codeOf_fixedLit_index (by omega) (hsym h), codeFrom_lt h (by omega), Nat.zero_add]

/-- Symbols 0 to 143: the first 8-bit codes (30_encoding.md R101). -/
theorem codeOf_fixedLit_literal_low (h : k < 144) : codeOf fixedLit k = some (codeBits 8 (0x30 + k)) := by
  obtain ⟨-, hsym, -, -⟩ := fixedLit_symbols k
  rw [codeOf_fixedLit_index (by omega) (hsym h), codeFrom_le (by omega), Nat.add_sub_cancel_left,
    codeFrom_lt (by omega) (by omega)]

/-- Symbols 280 to 287: the last 8-bit codes (30_encoding.md R101). -/
theorem codeOf_fixedLit_length_high (h : k < 8) : codeOf fixedLit (280 + k) = some (codeBits 8 (0xC0 + k)) := by
  obtain ⟨-, -, hsym, -⟩ := fixedLit_symbols k
  rw [codeOf_fixedLit_index (by omega) (hsym h), codeFrom_le (by omega), codeFrom_lt (by omega) (by omega),
    show 2 * (0 + 24) + (168 + k - 24) = 0xC0 + k by omega]

/-- Symbols 144 to 255: the 9-bit codes (30_encoding.md R101). -/
theorem codeOf_fixedLit_literal_high (h : k < 112) : codeOf fixedLit (144 + k) = some (codeBits 9 (0x190 + k)) := by
  obtain ⟨-, -, -, hsym⟩ := fixedLit_symbols k
  rw [codeOf_fixedLit_index (by omega) (hsym h), codeFrom_le (by omega), codeFrom_le (by omega), Nat.sub_sub,
    Nat.add_sub_cancel_left, codeFrom_lt h (by omega)]

end Codes

/-- Every literal/length symbol has a fixed code (30_encoding.md R101). -/
theorem codeOf_fixedLit_isSome {sym : Nat} (h : sym < 288) : ∃ code, codeOf fixedLit sym = some code := by
  rcases Nat.lt_or_ge sym 144 with h0 | h144
  · exact ⟨_, codeOf_fixedLit_literal_low h0⟩
  rcases Nat.lt_or_ge sym 256 with h1 | h256
  · obtain ⟨k, rfl⟩ := Nat.exists_eq_add_of_le h144
    exact ⟨_, codeOf_fixedLit_literal_high (by omega)⟩
  rcases Nat.lt_or_ge sym 280 with h2 | h280
  · obtain ⟨k, rfl⟩ := Nat.exists_eq_add_of_le h256
    exact ⟨_, codeOf_fixedLit_length_low (by omega)⟩
  · obtain ⟨k, rfl⟩ := Nat.exists_eq_add_of_le h280
    exact ⟨_, codeOf_fixedLit_length_high (by omega)⟩

/-! ### Complete codes -/

/-- How many bit strings are no code yet after the lengths of `counts`, from `strings` of them before (41_huffman.md R145). -/
def openStrings (strings : Nat) (counts : List Nat) : Nat := counts.foldl (fun n c => 2 * n - c) strings

/-- Where symbol decode finds no code in a table whose entries cover its counts, a bit string is left that is none. -/
theorem decodeFrom_noCode_open {symbols counts : List Nat} {base offs strings : Nat} {r r1 : Reader}
    (ho : offs < strings) (hsym : base + counts.sum ≤ symbols.length)
    (h : decodeFrom symbols counts base offs r = .noCode r1) : 0 < openStrings strings counts := by
  induction counts generalizing base offs strings r with
  | nil => exact Nat.zero_lt_of_lt ho
  | cons c counts ih =>
    rw [List.sum_cons] at hsym
    simp only [decodeFrom] at h
    split at h
    · cases h
    · rename_i b r2 hb
      have hbit : b.toNat ≤ 1 := Bool.toNat_le b
      split at h
      · rw [List.getElem?_eq_getElem (by omega)] at h
        cases h
      · exact ih (strings := 2 * strings - c) (by omega) (by omega) h

/-- The fixed literal/length code is complete: no bit string fails to decode (30_encoding.md R101). -/
theorem decodeSym_fixedLit_ne_noCode (r r1 : Reader) : decodeSym fixedLit r ≠ .noCode r1 := by
  intro h
  have hopen : openStrings 1 ((fixedLit.counts.drop 1).take Config.maxBits) = 0 := rfl
  have hlen : fixedLit.symbols.length = 288 := by simp [fixedLit]
  have := decodeFrom_noCode_open Nat.one_pos (by rw [hlen, Nat.zero_add]; exact Nat.le_of_eq fixedLit_coded) h
  omega

/-! ### Codes of five bits -/

/-- A table in which every symbol below `n` has the 5-bit code of its value. -/
def fiveBitCode (n : Nat) : Huff :=
  { counts := [0, 0, 0, 0, 0, n, 0, 0, 0, 0, 0, 0, 0, 0, 0, 0], symbols := List.range' 0 n }

theorem fixedDist_eq : fixedDist = fiveBitCode 30 := rfl

theorem fiveBitCode_counts (n : Nat) : ((fiveBitCode n).counts.drop 1).take Config.maxBits
    = List.replicate 4 0 ++ n :: List.replicate 10 0 := rfl

theorem fiveBitCode_coded (n : Nat) : (fiveBitCode n).coded = n := by
  rw [Huff.coded, fiveBitCode_counts]
  simp

theorem codeOf_fiveBitCode {n sym : Nat} (hn : n ≤ 32) :
    codeOf (fiveBitCode n) sym = if sym < n then some (codeBits 5 sym) else none := by
  split
  · rename_i hlt
    have hsym : (fiveBitCode n).symbols[sym]? = some sym := by
      rw [fiveBitCode, List.getElem?_range' hlt, Nat.one_mul, Nat.zero_add]
    rw [codeOf_getElem List.nodup_range' (by rwa [fiveBitCode_coded]) hsym, fiveBitCode_counts, codeFrom_replicate_zero,
      codeFrom_lt hlt (by omega), Nat.zero_add]
  · rename_i hge
    have hnone : ((fiveBitCode n).symbols.take (fiveBitCode n).coded).idxOf? sym = none := by
      refine List.idxOf?_eq_none_iff.mpr fun hmem => hge ?_
      simpa [fiveBitCode] using List.mem_of_mem_take hmem
    rw [codeOf, hnone]

/-- The fixed distance table answers only the symbols 0 to 29 (30_encoding.md R102). -/
theorem decodeSym_fixedDist_lt {r r1 : Reader} {d : Nat} (h : decodeSym fixedDist r = .ok d r1) : d < 30 := by
  obtain ⟨j, -, hj⟩ := decodeFrom_index h
  simpa [fixedDist] using List.mem_of_getElem? hj

/-- Symbol decode past a length whose codes end before the running index. -/
theorem decodeFrom_le {symbols counts : List Nat} {c base offs : Nat} {b : Bool} {r : Reader}
    (hb : r.getBit = .ok b (r.skip 1)) (h : c ≤ 2 * offs + b.toNat) :
    decodeFrom symbols (c :: counts) base offs r
      = decodeFrom symbols counts (base + c) (2 * offs + b.toNat - c) (r.skip 1) := by
  simp only [decodeFrom, hb]
  rw [if_neg (Nat.not_lt.mpr h)]

/-- After four ones the running index is 15, so the fifth bit makes it 30 or 31, past the 30 codes of 5 bits; the other ten
lengths have none (30_encoding.md R102). -/
theorem decodeSym_fixedDist_noCode {r : Reader} {bits : List Bool} (hlen : bits.length = 11)
    (hs : r.sees ([true, true, true, true] ++ bits)) : decodeSym fixedDist r = .noCode (r.skip 15) := by
  cases bits with
  | nil => cases hlen
  | cons b bits =>
    obtain ⟨h1, h2, h3, h4, h5, hrest⟩ := hs
    have hcounts : (fixedDist.counts.drop 1).take Config.maxBits = 0 :: 0 :: 0 :: 0 :: 30 :: List.replicate 10 0 := rfl
    rw [decodeSym, hcounts, decodeFrom_le h1 (by decide), decodeFrom_le h2 (by decide), decodeFrom_le h3 (by decide),
      decodeFrom_le h4 (by decide), decodeFrom_le h5 (Nat.le_add_right 30 _),
      decodeFrom_zeros (Nat.succ_inj.mp hlen) hrest]
    simp only [Reader.skip_skip]

/-- Settles O5: the fixed codes by their ranges, and what symbol decode answers for them. -/
theorem fixedCodesAreCanonical : Obligations.FixedCodesAreCanonical := by
  refine ⟨fun s h => codeOf_fixedLit_literal_low (by omega), fun s h1 h2 => ?_, fun s h1 h2 => ?_, fun s h1 h2 => ?_,
    decodeSym_fixedLit_ne_noCode, fun d h => ?_, fun d h => ?_, fun _ _ _ h => decodeSym_fixedDist_lt h,
    fun _ _ hlen hs => decodeSym_fixedDist_noCode hlen hs⟩
  · obtain ⟨k, rfl⟩ := Nat.exists_eq_add_of_le h1
    rw [codeOf_fixedLit_literal_high (by omega), Nat.add_sub_cancel_left]
  · obtain ⟨k, rfl⟩ := Nat.exists_eq_add_of_le h1
    rw [codeOf_fixedLit_length_low (by omega), Nat.add_sub_cancel_left]
  · obtain ⟨k, rfl⟩ := Nat.exists_eq_add_of_le h1
    rw [codeOf_fixedLit_length_high (by omega), Nat.add_sub_cancel_left]
  · rw [fixedDist_eq, codeOf_fiveBitCode (by decide), if_pos h]
  · rw [fixedDist_eq, codeOf_fiveBitCode (by decide), if_neg (Nat.not_lt.mpr h)]

end Sys2Proof.Machine
end

section
/-! Which instructions have an encoding (30_encoding.md R98 to R103). -/

namespace Sys2Proof

open Sys2Proof.Machine

/-- A symbol with a code gives an encoding. -/
theorem encodeCoded_isSome {t : Huff} {p : Parts} (h : ∃ code, codeOf t p.sym = some code) :
    ∃ bits, encodeCoded t p = some bits := by
  obtain ⟨code, hc⟩ := h
  exact ⟨code ++ p.bits, by rw [encodeCoded, hc]⟩

/-- Every symbol of a 5-bit table has a code, and no other. -/
theorem encodeCoded_fiveBitCode_iff {n : Nat} {p : Parts} (hn : n ≤ 32) :
    (∃ bits, encodeCoded (fiveBitCode n) p = some bits) ↔ p.sym < n := by
  constructor
  · rintro ⟨bits, h⟩
    obtain ⟨code, hc, -⟩ := encodeCoded_eq_some h
    by_contra hge
    rw [codeOf_fiveBitCode hn, if_neg hge] at hc
    cases hc
  · intro hlt
    exact encodeCoded_isSome ⟨_, by rw [codeOf_fiveBitCode hn, if_pos hlt]⟩

/-- The code-length symbols are 0 to 18 (30_encoding.md R97). -/
theorem clSym_sym_lt {i : Instr} (hr : i.parts.row = .clSym) : i.parts.sym < 19 := by
  cases i <;> simp only [Instr.parts, reduceCtorEq] at hr ⊢
  case clLen sym => exact Nat.lt_of_lt_of_le sym.isLt (by decide)
  all_goals decide

/-- The literal/length symbols are 0 to 287 (30_encoding.md R98). -/
theorem litLen_sym_lt {i : Instr} (hw : i.wf = true) (hr : i.parts.row = .litLen) : i.parts.sym < 288 := by
  cases i <;> simp only [Instr.parts, reduceCtorEq] at hr ⊢
  case lit sym => exact Nat.lt_of_lt_of_le sym.isLt (by decide)
  case llReserved sym =>
    simp only [Instr.wf, Bool.or_eq_true, beq_iff_eq] at hw
    rcases hw with rfl | rfl <;> decide
  all_goals decide

/-- The distance symbols are 0 to 31 (30_encoding.md R99). -/
theorem dist_sym_lt {i : Instr} (hr : i.parts.row = .dist) : i.parts.sym < 32 := by
  cases i <;> simp only [Instr.parts, reduceCtorEq] at hr ⊢
  case distReserved sym => exact sym.isLt
  all_goals decide

/-- A literal/length instruction has an encoding in the fixed table (30_encoding.md R101). -/
theorem encode_fixedLit {i : Instr} (hw : i.wf = true) (hr : i.parts.row = .litLen) :
    ∃ bits, encode (.litLen fixedLit) i = some bits := by
  rw [encode_litLen hw hr]
  exact encodeCoded_isSome (codeOf_fixedLit_isSome (litLen_sym_lt hw hr))

/-- The fixed distance table encodes the symbols 0 to 29 (30_encoding.md R102). -/
theorem encode_fixedDist_iff {i : Instr} (hw : i.wf = true) (hr : i.parts.row = .dist) :
    (∃ bits, encode (.dist fixedDist) i = some bits) ↔ i.parts.sym < 30 := by
  rw [encode_dist hw hr, fixedDist_eq, encodeCoded_fiveBitCode_iff (by decide)]

/-- Every well-formed instruction of the stream has an encoding: a plain one its bits, a coded one in a table that has a
code for its symbol. -/
theorem encode_isSome {i : Instr} (hw : i.wf = true) (hh : i.parts.row ≠ .host) : ∃ f bits, encode f i = some bits := by
  cases hr : i.parts.row with
  | zlibHdr => exact ⟨.zlibHdr, _, encode_plain hw hr nofun nofun nofun⟩
  | blkHdr => exact ⟨.blkHdr, _, encode_plain hw hr nofun nofun nofun⟩
  | storedLen => exact ⟨.storedLen false, _, encode_plain hw hr nofun nofun nofun⟩
  | storedByte => exact ⟨.storedByte, _, encode_plain hw hr nofun nofun nofun⟩
  | dynHdr => exact ⟨.dynHdr, _, encode_plain hw hr nofun nofun nofun⟩
  | clCodelen => exact ⟨.clCodelen, _, encode_plain hw hr nofun nofun nofun⟩
  | trailer => exact ⟨.trailer, _, encode_plain hw hr nofun nofun nofun⟩
  | clSym =>
    refine ⟨.clSym (fiveBitCode 19) false, ?_⟩
    rw [encode_clSym hw hr, if_neg (fun h => nomatch h.1)]
    exact (encodeCoded_fiveBitCode_iff (by decide)).mpr (clSym_sym_lt hr)
  | litLen => exact ⟨.litLen fixedLit, encode_fixedLit hw hr⟩
  | dist =>
    refine ⟨.dist (fiveBitCode 32), ?_⟩
    rw [encode_dist hw hr]
    exact (encodeCoded_fiveBitCode_iff le_rfl).mpr (dist_sym_lt hr)
  | host => exact absurd hr hh

/-- Settles O3: HOST_START is its word, and every other instruction has an encoding. -/
theorem everyInstructionHasAnEncoding : Obligations.EveryInstructionHasAnEncoding := by
  intro i hw
  by_cases hh : i.parts.row = .host
  · obtain ⟨word, rfl⟩ := row_host hh
    exact .inl ⟨word, rfl, if_pos hw⟩
  · exact .inr ⟨encode_isSome hw hh, encode_fixedLit hw, encode_fixedDist_iff hw⟩

end Sys2Proof
end

section
/-! The lengths and distances a match is spelled with (30_encoding.md R107, 43_lz77_window_emitter.md R279, R280). -/

namespace Sys2Proof.Machine

/-! ### The tables of bases -/

theorem lbase_succ : ∀ i, i < 27 → lbase (i + 1) = lbase i + 2 ^ lengthExtras.getD i 0 := by decide

theorem dbase_succ : ∀ i, i < 29 → dbase (i + 1) = dbase i + 2 ^ distanceExtras.getD i 0 := by decide

/-- Where each base is the one before plus what its extra bits reach, every value from the first base on is a base and
an extra. -/
theorem exists_base_add_extra {base width : Nat → Nat} {n x : Nat} (hsucc : ∀ i, i < n → base (i + 1) = base i + 2 ^ width i)
    (hlo : base 0 ≤ x) (hhi : x < base n + 2 ^ width n) : ∃ i, i ≤ n ∧ ∃ e : BitVec (width i), x = base i + e.toNat := by
  induction n with
  | zero => exact ⟨0, le_rfl, BitVec.ofNatLT (x - base 0) (by omega), by rw [BitVec.toNat_ofNatLT]; omega⟩
  | succ n ih =>
    rcases Nat.lt_or_ge x (base (n + 1)) with h | h
    · obtain ⟨i, hi, e, he⟩ := ih (fun i hi => hsucc i (by omega)) (by rwa [hsucc n (by omega)] at h)
      exact ⟨i, by omega, e, he⟩
    · exact ⟨n + 1, le_rfl, BitVec.ofNatLT (x - base (n + 1)) (by omega), by rw [BitVec.toNat_ofNatLT]; omega⟩

/-! ### The instruction of a symbol and its extra bits -/

section Symbol

variable {instr : Reader → DecodeResult} {value : Instr → Option Nat} {base n : Nat}

/-- A symbol with no extra bits stands for its base. -/
theorem symbol_of_base {ins : Instr} (hd : ∀ r, instr r = .ok ins r) (hv : value ins = some base) (e : BitVec 0) :
    ∃ ins, value ins = some (base + e.toNat) ∧ ∀ r1 r2, r1.getBits 0 = .ok e r2 → instr r1 = .ok ins r2 := by
  refine ⟨ins, by rw [hv, BitVec.eq_nil e]; rfl, fun r1 r2 h => ?_⟩
  cases h
  exact hd r1

/-- A symbol with extra bits stands for its base plus them. -/
theorem symbol_of_extra {make : BitVec n → Instr} (hd : ∀ r, instr r = withExtra n make r)
    (hv : ∀ e, value (make e) = some (base + e.toNat)) (e : BitVec n) :
    ∃ ins, value ins = some (base + e.toNat) ∧ ∀ r1 r2, r1.getBits n = .ok e r2 → instr r1 = .ok ins r2 :=
  ⟨make e, hv e, fun r1 r2 h => by rw [hd, withExtra, h]⟩

end Symbol

/-- Literal/length symbol 257 + i and its extra bits are the length code of LBASE[i] plus them: the symbols 257 to 264 and 285
have no extra bits (43_lz77_window_emitter.md R279). -/
theorem litLenInstr_length {i : Nat} (hi : i < 29) (e : BitVec (lengthExtras.getD i 0)) :
    ∃ ins, matchLength ins = some (lbase i + e.toNat)
      ∧ ∀ r1 r2, r1.getBits (lengthExtras.getD i 0) = .ok e r2 → litLenInstr (257 + i) r1 = .ok ins r2 := by
  rcases (by omega : i < 8 ∨ (8 ≤ i ∧ i < 28) ∨ i = 28) with h | ⟨h1, h2⟩ | rfl
  · interval_cases i <;> exact symbol_of_base (fun _ => rfl) rfl e
  · interval_cases i <;> exact symbol_of_extra (fun _ => rfl) (fun _ => rfl) e
  · exact symbol_of_base (fun _ => rfl) rfl e

/-- Distance symbol i and its extra bits are the distance code of DBASE[i] plus them: the symbols 0 to 3 have no extra bits
(43_lz77_window_emitter.md R280). -/
theorem distInstr_distance {i : Nat} (hi : i < 30) (e : BitVec (distanceExtras.getD i 0)) :
    ∃ ins, matchDistance ins = some (dbase i + e.toNat)
      ∧ ∀ r1 r2, r1.getBits (distanceExtras.getD i 0) = .ok e r2 → distInstr i r1 = .ok ins r2 := by
  rcases Nat.lt_or_ge i 4 with h | h
  · interval_cases i <;> exact symbol_of_base (fun _ => rfl) rfl e
  · interval_cases i <;> exact symbol_of_extra (fun _ => rfl) (fun _ => rfl) e

/-! ### What a match latches -/

/-- A length code latches its length and awaits the distance (43_lz77_window_emitter.md R214). -/
theorem exec_length {i : Instr} {n : Nat} (h : matchLength i = some n) (s : State) :
    exec i s = .next { s with length := BitVec.ofNat 9 n, expect := .dist } :=
  (matchLength_exec h).2.2 s

/-- A distance step latches its distance, whether the match fits, overflows OUT or reaches too far back. -/
theorem distanceStep_latches (d : Nat) (s : State) :
    ∃ t, (distanceStep d s).outcome = .next t ∧ t.distance = BitVec.ofNat 16 d := by
  simp only [distanceStep]
  split
  · exact ⟨_, rfl, rfl⟩
  · obtain ⟨u, hu, hc | hc⟩ := copy_frame s.length.toNat { s with distance := BitVec.ofNat 16 d }
    all_goals rw [hc]; exact ⟨_, rfl, sameButOutput_distance hu⟩

/-- A distance code latches its distance (43_lz77_window_emitter.md R214). -/
theorem exec_distance {i : Instr} {d : Nat} (h : matchDistance i = some d) (s : State) :
    ∃ t, exec i s = .next t ∧ t.distance.toNat = d := by
  obtain ⟨-, hle, hexec⟩ := matchDistance_bounds h
  obtain ⟨t, ht, hd⟩ := distanceStep_latches d s
  exact ⟨t, (hexec s).trans ht, by rw [hd, BitVec.toNat_ofNat]; omega⟩

/-- Every length 3 to 258 is that of some length code (30_encoding.md R107). -/
theorem exists_matchLength {L : Nat} (h3 : 3 ≤ L) (h258 : L ≤ 258) : ∃ i, matchLength i = some L := by
  obtain ⟨i, hi, e, rfl⟩ := exists_base_add_extra lbase_succ (h3 : lbase 0 ≤ L)
    (Nat.lt_succ_of_le h258 : L < lbase 27 + 2 ^ lengthExtras.getD 27 0)
  obtain ⟨ins, hm, -⟩ := litLenInstr_length (by omega) e
  exact ⟨ins, hm⟩

/-- Every distance 1 to 32768 is that of some distance code (30_encoding.md R107). -/
theorem exists_matchDistance {D : Nat} (h1 : 1 ≤ D) (hmax : D ≤ 32768) : ∃ i, matchDistance i = some D := by
  obtain ⟨i, hi, e, rfl⟩ := exists_base_add_extra dbase_succ (h1 : dbase 0 ≤ D)
    (Nat.lt_succ_of_le hmax : D < dbase 29 + 2 ^ distanceExtras.getD 29 0)
  obtain ⟨ins, hm, -⟩ := distInstr_distance (by omega) e
  exact ⟨ins, hm⟩

/-- A decoded symbol is followed by what it stands for. -/
theorem decodeCoded_of_symbol {t : Huff} {instr : Nat → Reader → DecodeResult} {r r1 : Reader} {sym : Nat}
    (h : decodeSym t r = .ok sym r1) : decodeCoded t instr r = instr sym r1 := by
  rw [decodeCoded, h]

/-- Settles O36: a value lies between two bases by the recurrences, and a decoded symbol is its base plus its extra bits. -/
theorem everyMatchHasItsCodes : Obligations.EveryMatchHasItsCodes := by
  refine ⟨fun L h1 h2 => ?_, fun D h1 h2 => ?_, fun i d h => ?_, fun i hi t r r1 r2 e hsym hbits => ?_,
    fun i hi t r r1 r2 e hsym hbits => ?_, lbase_succ, dbase_succ⟩
  · obtain ⟨i, hm⟩ := exists_matchLength h1 h2
    exact ⟨i, exec_length hm⟩
  · obtain ⟨i, hm⟩ := exists_matchDistance h1 h2
    exact ⟨i, hm, exec_distance hm⟩
  · obtain ⟨h1, h2, -⟩ := matchDistance_bounds h
    exact ⟨h1, h2, exec_distance h⟩
  · obtain ⟨ins, hm, hread⟩ := litLenInstr_length hi e
    exact ⟨ins, (decodeCoded_of_symbol hsym).trans (hread r1 r2 hbits), exec_length hm⟩
  · obtain ⟨ins, hm, hread⟩ := distInstr_distance hi e
    exact ⟨ins, (decodeCoded_of_symbol hsym).trans (hread r1 r2 hbits), exec_distance hm⟩

end Sys2Proof.Machine
end

section
/-! Instruction words written out from the spec (30_encoding.md R93 to R101). -/

namespace Sys2Proof

/-- Settles O1: each clause is one run of the decoder on the bytes of its word. -/
theorem specWordsDecode : Obligations.SpecWordsDecode := by
  refine ⟨?_, ?_, ?_, ?_, ?_, ?_, ?_, ?_, ?_, ?_, ?_, ?_, ?_, ?_, ?_⟩ <;> decide +kernel

end Sys2Proof
end

section
/-! The bit reader as R120 to R127 state it: `get_bit`, `get_bits`, `align`, and the cursor along a job
(40_bitstream_reader.md). -/

namespace Sys2Proof.Machine

/-! ### One bit (R122) -/

/-- The bit under the cursor, written as R122 does. -/
theorem bitAt_eq_shiftRight (mem : Memory) (pos : Word) :
    bitAt mem pos = ((mem.read (byteOff pos)).toNat >>> bitOff pos % 2 == 1) := by
  rw [bitAt, ← BitVec.testBit_toNat, Nat.testBit_eq_decide_div_mod_eq, Nat.shiftRight_eq_div_pow]
  rfl

/-- Inside a byte the next cursor is one bit on in the same byte. -/
theorem cursor_succ_inside {pos : Word} (h : bitOff pos ≠ 7) :
    byteOff (pos + 1) = byteOff pos ∧ bitOff (pos + 1) = bitOff pos + 1 := by
  simp only [byteOff, bitOff] at h ⊢
  have hnext : (pos + 1).toNat = pos.toNat + 1 := BitVec.toNat_add_of_lt (show pos.toNat + 1 < 2 ^ 32 by omega)
  omega

/-- From the last bit of a byte the next cursor is the first bit of the next byte. -/
theorem cursor_succ_carry {pos : Word} (h : bitOff pos = 7) (hp : pos.toNat + 1 < 2 ^ 32) :
    byteOff (pos + 1) = byteOff pos + 1 ∧ bitOff (pos + 1) = 0 := by
  have hnext : (pos + 1).toNat = pos.toNat + 1 := BitVec.toNat_add_of_lt hp
  simp only [byteOff, bitOff] at h ⊢
  omega

/-- Settles O9: the bit is the one R122 shifts out, and the cursor's next word is one bit on in its byte, or carries into
the next byte. -/
theorem getBitReadsAndAdvances : Obligations.GetBitReadsAndAdvances := by
  intro r _
  refine ⟨fun hend => if_pos hend, fun hin => ⟨r.pos + 1, ?_, cursor_succ_inside, cursor_succ_carry⟩⟩
  rw [← bitAt_eq_shiftRight]
  exact if_neg (Nat.not_le.mpr hin)

/-! ### A field of bits (R123) -/

/-- Settles O10: with `n` bits left the read answers them in order; with fewer it stops at the end of the region. -/
theorem getBitsAssemblesLowBitFirst : Obligations.GetBitsAssemblesLowBitFirst := by
  intro n r hstop hpos
  have hs : 8 * r.stop < 2 ^ 32 := by omega
  obtain ⟨enough, short⟩ := Reader.getBits_total (n := n) hs hpos
  refine ⟨fun hn => ?_, fun hn => ?_⟩
  · obtain ⟨v, hv⟩ := enough hn
    refine ⟨v, hv, Reader.skip_toNat hs hn, fun i hi => ?_⟩
    rw [Reader.getBits_value hv i hi, bitAt_skip hstop (by omega)]
  · obtain ⟨r1, hr⟩ := short hn
    obtain ⟨k, -, rfl, hk⟩ := Reader.getBits_eq_exhausted hs hpos hr
    exact ⟨_, hr, (Reader.skip_toNat hs hk.le).trans hk, rfl, rfl, rfl⟩

/-! ### The byte boundary (R125, R177) -/

/-- A cursor on a byte boundary is aligned. -/
theorem alignPos_aligned {pos : Word} (h : bitOff pos = 0) : alignPos pos = pos := if_pos h

/-- Off a byte boundary the aligned cursor is the next byte's first bit. -/
theorem alignPos_unaligned {pos : Word} (h : bitOff pos ≠ 0) (hp : pos.toNat + 8 < 2 ^ 32) :
    byteOff (alignPos pos) = byteOff pos + 1 ∧ bitOff (alignPos pos) = 0 := by
  rw [alignPos, if_neg h]
  simp only [byteOff, bitOff, cursorAt, BitVec.toNat_ofNat]
  omega

/-- A job about to read LEN decodes it with its latch ALIGN. -/
theorem format_storedLen {s : State} (h : s.expect = .storedLen) : s.format = .storedLen s.align := by
  rw [State.format, h]

/-- Settles O11: the two cases of the cursor, and LEN's decode with each value of ALIGN. -/
theorem alignSkipsToByteBoundary : Obligations.AlignSkipsToByteBoundary := by
  refine ⟨fun r hp => ⟨fun h => ?_, fun h => alignPos_unaligned h hp, rfl⟩, fun s he => ?_⟩
  · rw [Reader.align, alignPos_aligned h]
  · rw [format_storedLen he]
    exact ⟨fun h => by rw [h]; rfl, fun h => by rw [h]⟩

/-! ### The cursor along a job (R126, R127) -/

/-- The region of a running job ends past the two header bytes. -/
theorem State.Inv.two_le_e {s : State} (h : s.Inv) (hb : s.busy = true) : 2 ≤ s.e.toNat := by
  obtain ⟨-, -, -, he, -⟩ := h.latches hb
  rw [he]
  exact Nat.le_max_left ..

/-- From the accepted header on the cursor is past the two header bytes. -/
theorem State.Inv.cursor_ge {s : State} (h : s.Inv) (hb : s.busy = true) (hz : s.expect ≠ .zlibHdr) :
    16 ≤ s.inPos.toNat := by
  have hc := h.cursor hb
  rw [State.cursorInRegion, if_neg hz] at hc
  split at hc
  · exact hc.1
  · exact hc.1.le

/-- Before the header is accepted the cursor is at the start of the input. -/
theorem State.Inv.cursor_start {s : State} (h : s.Inv) (hb : s.busy = true) (hz : s.expect = .zlibHdr) :
    s.inPos = 0 := by
  have hc := h.cursor hb
  rw [State.cursorInRegion, if_pos hz] at hc
  exact hc.1

/-- An action of the engine in a running job moves the cursor forward within the region: a fetch by the bits it reads, an
accepted header to the first block. -/
theorem engineAction_cursor {s t : State} (h : s.Inv) (hb : s.busy = true) (hx : (engineAction s).outcome = .next t) :
    s.inPos.toNat ≤ t.inPos.toNat ∧ t.inPos.toNat ≤ 8 * s.e.toNat
    ∧ (s.expect ≠ .zlibHdr → s.expect ≠ .trailer → t.busy = true → s.inPos.toNat < t.inPos.toNat) := by
  rcases engine_run h hb hx with ⟨i, p, -, -, -, ⟨hle, hstop, hlt, -, -⟩, -, hpos, -⟩ | ⟨x, -, -, hle, hstop, hidle, -⟩
  · rcases hpos with hpos | ⟨hz, hpos⟩
    · rw [hpos]
      exact ⟨hle, hstop, fun hz ht _ => hlt hz ht⟩
    · have he := h.two_le_e hb
      have h16 : t.inPos.toNat = 16 := congrArg BitVec.toNat hpos
      rw [h.cursor_start hb hz, h16]
      exact ⟨Nat.zero_le _, by omega, fun hn => absurd hz hn⟩
  · exact ⟨hle, hstop, fun _ _ hbt => absurd (hidle.symm.trans hbt) (by decide)⟩

/-- Settles O12: the engine's action moves the cursor forward in the region, and from the header on it starts past the
header's two bytes. -/
theorem cursorOnlyMovesForward : Obligations.CursorOnlyMovesForward := by
  intro s t h hb hturn hx
  obtain ⟨moves, hstep⟩ := step_engine hturn
  obtain ⟨hle, hstop, hlt⟩ := engineAction_cursor (h.with_moves moves) hb (hstep.symm.trans hx)
  refine ⟨hle, fun _ => hstop, fun hz => ?_, hlt⟩
  have hge : 16 ≤ t.inPos.toNat := (h.cursor_ge hb hz).trans hle
  simp only [byteOff]
  omega

end Sys2Proof.Machine
end

section
/-! What `build` leaves in a table, and what symbol decode answers for a built one (41_huffman.md R142 to R152). -/

namespace Sys2Proof.Machine

section Built

variable {old : HuffTable} {lengths : List Nat} (h : ∀ l ∈ lengths, l ≤ 15)

/-! ### What build leaves (R142, R144, R145) -/

include h in
theorem buildTable_counts_length : (buildTable old lengths).counts.length = 16 := by
  rw [buildTable, List.length_map, lengthCounts_length h]

include h in
/-- Each count is the number of symbols of its length. -/
theorem buildTable_counts_getD (hn : lengths.length ≤ 288) (len : Nat) :
    (buildTable old lengths).code.counts.getD len 0 = lenCount lengths len := by
  rw [buildTable_counts h hn, lengthCounts_getD h]

variable (hn : lengths.length ≤ old.symbols.length)

include h hn in
/-- The entries past the coded symbols are stale. -/
theorem buildTable_symbols_drop : (buildTable old lengths).symbols.drop (codedSymbols lengths).length
    = old.symbols.drop (codedSymbols lengths).length := by
  refine List.ext_getElem? fun j => ?_
  rw [List.getElem?_drop, List.getElem?_drop, codedSymbols_length]
  exact (buildTable_symbols h hn).2 _ (Nat.le_add_right _ _)

variable (ho : old.symbols.length ≤ 288)

include h hn ho in
/-- Where every entry belongs to a coded symbol, nothing of the old table is left. -/
theorem buildTable_code_full (hfull : (codedSymbols lengths).length = old.symbols.length) :
    (buildTable old lengths).code = { counts := lengthCounts lengths, symbols := codedSymbols lengths } := by
  have hlen : (buildTable old lengths).code.symbols.length = (codedSymbols lengths).length := by
    rw [HuffTable.code, List.length_map, buildTable_symbols_length, hfull]
  have hsym := buildTable_code_symbols h hn ho
  rw [List.take_of_length_le hlen.le] at hsym
  exact congrArg₂ Huff.mk (buildTable_counts h (hn.trans ho)) hsym

/-! ### The canonical codes (R145, R152) -/

variable {s : Nat}

include h in
/-- With a Kraft sum at most 1 the code value of a symbol fits its length. -/
theorem canonicalValue_lt (hk : kraftSum lengths ≤ 2 ^ 15) (hs : s < lengths.length) (h0 : lengths.getD s 0 ≠ 0) :
    firstCode lengths (lengths.getD s 0) + (lengths.take s).count (lengths.getD s 0) < 2 ^ lengths.getD s 0 := by
  have h15 : lengths.getD s 0 ≤ 15 := by rw [List.getD_eq_getElem _ _ hs]; exact h _ (List.getElem_mem hs)
  have hfits := firstCode_fits h hk h15
  rw [lenCount, if_neg h0] at hfits
  exact (Nat.add_lt_add_left (count_take_lt hs) _).trans_le hfits

include h hn ho in
/-- A symbol whose code value fits its length has the canonical code. -/
theorem codeOf_built_fits (hs : s < lengths.length) (h0 : lengths.getD s 0 ≠ 0)
    (hv : firstCode lengths (lengths.getD s 0) + (lengths.take s).count (lengths.getD s 0) < 2 ^ lengths.getD s 0) :
    codeOf (buildTable old lengths).code s = some (codeBits (lengths.getD s 0)
      (firstCode lengths (lengths.getD s 0) + (lengths.take s).count (lengths.getD s 0))) :=
  (codeOf_built h hn ho hs h0).trans (if_pos hv)

/-- A symbol with a code stands among the filled entries. -/
theorem mem_of_codeOf {t : Huff} {sym : Nat} {code : List Bool} (hc : codeOf t sym = some code) :
    sym ∈ t.symbols.take t.coded := by
  by_contra hmem
  rw [codeOf, List.idxOf?_eq_none_iff.mpr hmem] at hc
  cases hc

include h hn ho in
/-- Only symbols of nonzero length have a code. -/
theorem coded_of_codeOf_built {code : List Bool} (hc : codeOf (buildTable old lengths).code s = some code) :
    s < lengths.length ∧ lengths.getD s 0 ≠ 0 := by
  have hmem := mem_of_codeOf hc
  rw [buildTable_coded h (hn.trans ho), buildTable_code_symbols h hn ho] at hmem
  obtain ⟨hs, h0, -⟩ := mem_codedSymbols hmem
  exact ⟨hs, h0⟩

end Built

/-- Settles O7: the canonical code is the one `codeOf` gives, and the code of a symbol decodes to it. -/
theorem canonicalCodesDecode : Obligations.CanonicalCodesDecode := by
  intro old lengths h hn ho hk
  refine ⟨rfl, fun len hlen => ?_, fun len _ => buildTable_counts_getD h (hn.trans ho) len,
    buildTable_code_symbols h hn ho, buildTable_symbols_drop h hn, fun s hs h0 => ?_⟩
  · obtain ⟨k, rfl⟩ := Nat.exists_eq_add_of_le' (Nat.one_le_of_lt hlen)
    rw [firstCode, Nat.add_sub_cancel, Nat.shiftLeft_eq, Nat.pow_one, Nat.mul_comm]
  · have hv := canonicalValue_lt h hk hs h0
    have hcode := codeOf_built_fits h hn ho hs h0 hv
    refine ⟨hv, codeBits_length _ _, hcode, fun r hr => ?_⟩
    rw [codeOf_decodes hcode hr, codeBits_length]

/-- Settles O6: the laws of the three steps of build. -/
theorem buildResult : Obligations.BuildResult := fun _ _ h hn ho =>
  ⟨buildTable_counts_length h, fun len _ => buildTable_counts_getD h (hn.trans ho) len,
    buildTable_coded h (hn.trans ho), buildTable_symbols_length _ _, buildTable_code_symbols h hn ho,
    buildTable_symbols_drop h hn⟩

/-! ### The fixed tables (R150, R151) -/

theorem fixedLitLengths_le : ∀ l ∈ fixedLitLengths, l ≤ 15 := by decide +kernel

theorem fixedLitLengths_length : fixedLitLengths.length = 288 := by
  simp only [fixedLitLengths, List.length_append, List.length_replicate]

theorem lengthCounts_fixedLitLengths : lengthCounts fixedLitLengths = fixedLit.counts := by decide +kernel

theorem codedSymbols_fixedLitLengths : codedSymbols fixedLitLengths = fixedLit.symbols := by decide +kernel

/-- FIXED_LIT is built from its lengths: every one of the 288 symbols has a code. -/
theorem buildTable_fixedLitLengths : (buildTable (HuffTable.zero 288) fixedLitLengths).code = fixedLit := by
  have hcap : (HuffTable.zero 288).symbols.length = 288 := List.length_replicate
  have hcoded : (codedSymbols fixedLitLengths).length = 288 := by
    rw [codedSymbols_fixedLitLengths]
    simp [fixedLit]
  rw [buildTable_code_full fixedLitLengths_le (fixedLitLengths_length.trans hcap.symm).le hcap.le
    (hcoded.trans hcap.symm), lengthCounts_fixedLitLengths, codedSymbols_fixedLitLengths]

/-- FIXED_DIST is built from thirty lengths of 5. -/
theorem buildTable_replicate_five : (buildTable (HuffTable.zero 30) (List.replicate 30 5)).code = fixedDist :=
  buildTable_code_full (by decide) (by decide) (by decide) (by decide)

/-- Settles O4: build is evaluated through its laws, and each range of symbols is read off the constant. -/
theorem fixedTablesAreBuilt : Obligations.FixedTablesAreBuilt := by
  refine ⟨fixedLitLengths_length, by decide +kernel, buildTable_fixedLitLengths, rfl, fun j hj => ?_,
    buildTable_replicate_five, rfl, rfl, by decide⟩
  have hget : ∀ {k sym}, fixedLit.symbols[k]? = some sym → fixedLit.symbols.getD k 0 = sym :=
    fun h => by rw [List.getD_eq_getElem?_getD, h]; rfl
  split_ifs with h1 h2 h3
  · exact hget ((fixedLit_symbols j).1 (by omega))
  · obtain ⟨k, rfl⟩ := Nat.exists_eq_add_of_le (show 24 ≤ j by omega)
    rw [Nat.add_sub_cancel_left]
    exact hget ((fixedLit_symbols k).2.1 (by omega))
  · obtain ⟨k, rfl⟩ := Nat.exists_eq_add_of_le (show 168 ≤ j by omega)
    rw [Nat.add_sub_cancel_left]
    exact hget ((fixedLit_symbols k).2.2.1 (by omega))
  · obtain ⟨k, rfl⟩ := Nat.exists_eq_add_of_le (show 176 ≤ j by omega)
    rw [Nat.add_sub_cancel_left]
    exact hget ((fixedLit_symbols k).2.2.2 (by omega))

/-! ### The outcomes of symbol decode (R146 to R148) -/

/-- Bits in sight lie within the region. -/
theorem Reader.sees_le {bits : List Bool} {r : Reader} (hs : 8 * r.stop < 2 ^ 32) (hp : r.pos.toNat ≤ 8 * r.stop)
    (hr : r.sees bits) : r.pos.toNat + bits.length ≤ 8 * r.stop := by
  induction bits generalizing r with
  | nil => exact hp
  | cons b bits ih =>
    obtain ⟨hbit, hrest⟩ := hr
    obtain ⟨-, -, hle⟩ := Reader.getBit_eq_ok hbit
    have hnext := Reader.skip_toNat hs hle
    have := ih (r := r.skip 1) hs (hnext.trans_le hle) hrest
    rw [hnext, Reader.skip_stop] at this
    rw [List.length_cons]
    omega

/-- Where symbol decode answers no symbol, no code is in sight. -/
theorem not_sees_code {t : Huff} {r : Reader} (hne : ∀ sym r1, decodeSym t r ≠ .ok sym r1) (sym : Nat)
    (code : List Bool) (hc : codeOf t sym = some code) : ¬ r.sees code :=
  fun hr => hne _ _ (codeOf_decodes hc hr)

/-- With no symbol of nonzero length every count is 0. -/
theorem buildTable_counts_zeros {old : HuffTable} {lengths : List Nat} (h : ∀ l ∈ lengths, l = 0) :
    (buildTable old lengths).code.counts = List.replicate 16 0 := by
  have h15 : ∀ l ∈ lengths, l ≤ 15 := fun l hl => (h l hl).trans_le (Nat.zero_le 15)
  have hzero : lengthCounts lengths = List.replicate 16 0 := by
    refine List.eq_replicate_iff.mpr ⟨lengthCounts_length h15, fun c hc => ?_⟩
    obtain ⟨len, hlen, rfl⟩ := List.getElem_of_mem hc
    rw [← List.getD_eq_getElem _ 0 hlen, lengthCounts_getD h15, lenCount]
    split
    · rfl
    · rename_i h0
      exact List.count_eq_zero.mpr fun hmem => h0 (h len hmem)
  rw [HuffTable.code, buildTable, hzero]
  rfl

/-- With every count 0 symbol decode consumes 15 bits and answers nothing. -/
theorem decodeSym_zeros {t : Huff} {r : Reader} {bits : List Bool} (hc : t.counts = List.replicate 16 0)
    (hb : bits.length = 15) (hr : r.sees bits) : decodeSym t r = .noCode (r.skip 15) := by
  rw [decodeSym, hc]
  exact decodeFrom_zeros hb hr

section OneSymbol

variable {old : HuffTable} {n s : Nat}

/-- Among `n` symbols symbol `s` alone has a code, of length 1. -/
theorem oneSymbol_getD (hs : s < n) (sym : Nat) :
    ((List.replicate n 0).set s 1).getD sym 0 = if sym = s then 1 else 0 := by
  rw [List.getD_eq_getElem?_getD, List.getElem?_set, List.length_replicate, List.getElem?_replicate]
  by_cases h : s = sym
  · rw [if_pos h, if_pos hs, if_pos h.symm]; rfl
  · rw [if_neg h, if_neg (Ne.symm h)]; split <;> rfl

theorem oneSymbol_length : ((List.replicate n 0).set s 1).length = n := by
  rw [List.length_set, List.length_replicate]

theorem oneSymbol_le : ∀ l ∈ (List.replicate n 0).set s 1, l ≤ 15 := by
  intro l hl
  rcases List.mem_or_eq_of_mem_set hl with h | rfl
  · rw [List.eq_of_mem_replicate h]; decide
  · decide

variable (hs : s < n) (hn : n ≤ old.symbols.length) (ho : old.symbols.length ≤ 288)

include hs hn ho

/-- The one symbol has code 0. -/
theorem codeOf_oneSymbol : codeOf (buildTable old ((List.replicate n 0).set s 1)).code s = some [false] := by
  have h1 : ((List.replicate n 0).set s 1).getD s 0 = 1 := (oneSymbol_getD hs s).trans (if_pos rfl)
  have hk : (((List.replicate n 0).set s 1).take s).count 1 = 0 := by
    rw [List.take_set_of_le le_rfl, List.take_replicate]
    exact List.count_eq_zero.mpr fun hmem => nomatch List.eq_of_mem_replicate hmem
  have hcode := codeOf_built oneSymbol_le (oneSymbol_length.trans_le hn) ho (hs.trans_eq oneSymbol_length.symm)
    (by rw [h1]; exact Nat.one_ne_zero)
  rw [hcode]
  simp only [h1, hk]
  rfl

/-- There is no code but 0. -/
theorem eq_of_codeOf_oneSymbol {sym : Nat} {code : List Bool}
    (hc : codeOf (buildTable old ((List.replicate n 0).set s 1)).code sym = some code) : code = [false] := by
  obtain ⟨-, h0⟩ := coded_of_codeOf_built oneSymbol_le (oneSymbol_length.trans_le hn) ho hc
  have hsym : sym = s := by
    by_contra hne
    exact h0 ((oneSymbol_getD hs sym).trans (if_neg hne))
  rw [hsym, codeOf_oneSymbol hs hn ho] at hc
  exact (Option.some.inj hc).symm

end OneSymbol

theorem withExtra_ne_noClSymbol {n : Nat} {make : BitVec n → Instr} {r r1 : Reader} :
    withExtra n make r ≠ .noClSymbol r1 := by
  rw [withExtra]
  split <;> exact nofun

/-- Code-length symbols up to 18 have an instruction. -/
theorem clInstr_ne_noClSymbol {first : Bool} {sym : Nat} {r r1 : Reader} (h : sym ≤ 18) :
    clInstr first sym r ≠ .noClSymbol r1 := by
  rw [clInstr]
  split_ifs
  · exact nofun
  · exact nofun
  · exact withExtra_ne_noClSymbol
  · exact withExtra_ne_noClSymbol
  · exact withExtra_ne_noClSymbol
  · omega

/-- A table that answers no symbol above 18 reads code lengths only (42_block_dispatch.md R190). -/
theorem decode_clSym_ne_noClSymbol {t : Huff} {first : Bool} {r r1 : Reader}
    (h : ∀ sym r2, decodeSym t r = .ok sym r2 → sym ≤ 18) : decode (.clSym t first) r ≠ .noClSymbol r1 := by
  rw [decode, decodeCoded]
  cases hd : decodeSym t r with
  | ok sym r2 => exact clInstr_ne_noClSymbol (h sym r2 hd)
  | exhausted r2 => exact nofun
  | noCode r2 => exact nofun

/-- Settles O8: a built table answers a symbol exactly from the bits of its code, and otherwise runs out of codes or of
input. -/
theorem symbolDecodeOutcomes : Obligations.SymbolDecodeOutcomes := by
  refine ⟨fun old lengths r h hn ho hs hp => ?_, fun _ _ _ _ h hn ho hb hr hno => decodeSym_built_noCode h hn ho hb hr hno,
    fun _ _ _ _ h hb hr => decodeSym_zeros (buildTable_counts_zeros h) hb hr,
    fun old n s r bits hs hn ho => ⟨fun hr => codeOf_decodes (codeOf_oneSymbol hs hn ho) hr, fun hb hr => ?_⟩,
    fun old lens first r r1 hlens hold => decode_clSym_ne_noClSymbol fun sym r2 hd => ?_⟩
  · have hout := decodeSym_built h hn ho hs hp
    cases hd : decodeSym (buildTable old lengths).code r with
    | ok s r1 =>
      rw [hd] at hout
      obtain ⟨hsym, h0, -⟩ := hout
      obtain ⟨code, hc, hlen, hr, hskip⟩ := decodeSym_built_code h hn ho hd
      have hle := Reader.sees_le hs hp hr
      rw [hlen] at hskip hle
      exact ⟨hsym, h0, hskip, hle, code, hc, hlen, hr⟩
    | exhausted r1 =>
      rw [hd] at hout
      exact ⟨hout, not_sees_code (by rw [hd]; exact nofun)⟩
    | noCode r1 =>
      rw [hd] at hout
      obtain ⟨hskip, hle⟩ := hout
      exact ⟨hskip, hle, not_sees_code (by rw [hd]; exact nofun)⟩
  · refine decodeSym_built_noCode (bits := true :: bits) oneSymbol_le (oneSymbol_length.trans_le hn) ho
      (congrArg Nat.succ hb) hr fun sym code hc hpre => ?_
    rw [eq_of_codeOf_oneSymbol hs hn ho hc] at hpre
    exact Bool.false_ne_true (List.cons_prefix_cons.mp hpre).1
  · have hlen : (lens.map BitVec.toNat).length = 19 := (List.length_map _).trans hlens
    have h15 : ∀ l ∈ lens.map BitVec.toNat, l ≤ 15 := by
      intro l hl
      obtain ⟨v, -, rfl⟩ := List.mem_map.mp hl
      exact v.isLt.le.trans (by decide)
    obtain ⟨hsym, -⟩ := decodeSym_built_ok h15 (by omega) (by omega) hd
    omega

end Sys2Proof.Machine
end

section
/-! Plain fields and extra bits as the rules of a block read them (40_bitstream_reader.md R123, 42_block_dispatch.md R178,
R181, R182). -/

namespace Sys2Proof.Machine

/-- `v` is the field that starts `j` bits past the cursor, its first bit bit 0 (40_bitstream_reader.md R123). -/
def Reader.FieldAt {n : Nat} (r : Reader) (j : Nat) (v : BitVec n) : Prop :=
  ∀ k, k < n → v.getLsbD k = (r.mem.read ((r.pos.toNat + j + k) / 8)).getLsbD ((r.pos.toNat + j + k) % 8)

section Fields

variable {r : Reader} {j n : Nat} (hs : r.stop < 2 ^ 29)

include hs in
/-- A field that lies in the region is read whole. -/
theorem Reader.getBits_fieldAt (h : r.pos.toNat + j + n ≤ 8 * r.stop) :
    ∃ v : BitVec n, (r.skip j).getBits n = .ok v (r.skip (j + n)) ∧ r.FieldAt j v := by
  have hpos : (r.skip j).pos.toNat = r.pos.toNat + j := Reader.skip_toNat (by omega) (by omega)
  obtain ⟨enough, -⟩ := Reader.getBits_total (r := r.skip j) (n := n) (by rw [Reader.skip_stop]; omega)
    (by rw [hpos, Reader.skip_stop]; omega)
  obtain ⟨v, hv⟩ := enough (by rwa [hpos, Reader.skip_stop])
  refine ⟨v, by rw [hv, Reader.skip_skip], fun k hk => ?_⟩
  rw [Reader.getBits_value hv k hk, bitAt_skip (r := r.skip j) hs (by rw [hpos, Reader.skip_stop]; omega), hpos,
    Reader.skip_mem]

include hs in
/-- A field that the region ends in stops the read at the end of the region. -/
theorem Reader.getBits_cut (hj : r.pos.toNat + j ≤ 8 * r.stop) (h : 8 * r.stop < r.pos.toNat + j + n) :
    ∃ r1, (r.skip j).getBits n = .exhausted r1 ∧ r1.pos.toNat = 8 * r.stop := by
  have hpos : (r.skip j).pos.toNat = r.pos.toNat + j := Reader.skip_toNat (by omega) hj
  have hs' : 8 * (r.skip j).stop < 2 ^ 32 := by rw [Reader.skip_stop]; omega
  have hp' : (r.skip j).pos.toNat ≤ 8 * (r.skip j).stop := by rwa [hpos]
  obtain ⟨-, short⟩ := Reader.getBits_total (n := n) hs' hp'
  obtain ⟨r1, hr⟩ := short (by rwa [hpos])
  obtain ⟨k, -, rfl, hk⟩ := Reader.getBits_eq_exhausted hs' hp' hr
  exact ⟨_, hr, (Reader.skip_toNat hs' hk.le).trans hk⟩

end Fields

/-- Extra bits are answered as `get_bits` answers them. -/
theorem withExtra_answers {n : Nat} (make : BitVec n → Instr) (r : Reader) :
    (∀ v r1, r.getBits n = .ok v r1 → withExtra n make r = .ok (make v) r1)
    ∧ (∀ r1, r.getBits n = .exhausted r1 → withExtra n make r = .exhausted [] r1) :=
  ⟨fun _ _ h => by rw [withExtra, h], fun _ h => by rw [withExtra, h]⟩

end Sys2Proof.Machine
end

section
/-! Block headers and stored blocks (42_block_dispatch.md R170 to R179). -/

namespace Sys2Proof.Machine

/-- Settles O18: each header latches its two fields and goes to its body; the reserved one takes the error entry. -/
theorem blockHeadersDispatch : Obligations.BlockHeadersDispatch := fun _ _ => ⟨rfl, rfl, rfl, rfl⟩

section Body

variable {s : State}

/-- After a final block the trailer follows (R176). -/
theorem endOfBody_final (h : s.bfinal = true) : endOfBody s = { s with fsm := .trailer, expect := .trailer } :=
  if_pos h

/-- After any other block the next header follows (R176). -/
theorem endOfBody_more (h : s.bfinal = false) : endOfBody s = { s with fsm := .blockHeader, expect := .blkHdr } :=
  if_neg (by rw [h]; decide)

end Body

/-! ### LEN and NLEN (R178) -/

section StoredLen

variable {len nlen : BitVec 16} {s : State}

/-- STORED_LEN raises LengthMismatch where NLEN is not the complement. -/
theorem exec_storedLen_mismatch (h : nlen.toNat ≠ 0xFFFF - len.toNat) :
    exec (.storedLen len nlen) s = .next (raise .lengthMismatch { s with len := len, nlen := nlen }) :=
  if_pos h

/-- STORED_LEN with data bytes: the first one is next. -/
theorem exec_storedLen_data (h : nlen.toNat = 0xFFFF - len.toNat) (h0 : len ≠ 0) :
    exec (.storedLen len nlen) s
      = .next { s with len := len, nlen := nlen, storedLeft := len.toNat, expect := .storedByte } :=
  (if_neg (not_not.mpr h)).trans (if_neg h0)

/-- STORED_LEN without data bytes ends the body. -/
theorem exec_storedLen_empty (h : nlen.toNat = 0xFFFF - len.toNat) (h0 : len = 0) :
    exec (.storedLen len nlen) s = .next (endOfBody { s with len := len, nlen := nlen, storedLeft := 0 }) :=
  (if_neg (not_not.mpr h)).trans (if_pos h0)

variable {r : Reader} (hs : r.stop < 2 ^ 29)

include hs in
/-- With 32 bits left LEN and NLEN are read whole. -/
theorem decodeStoredLen_whole (h : r.pos.toNat + 32 ≤ 8 * r.stop) :
    ∃ len nlen : BitVec 16, decodeStoredLen r = .ok (.storedLen len nlen) (r.skip 32)
      ∧ r.FieldAt 0 len ∧ r.FieldAt 16 nlen := by
  obtain ⟨len, hlen, lenAt⟩ := Reader.getBits_fieldAt (j := 0) (n := 16) hs (by omega)
  obtain ⟨nlen, hnlen, nlenAt⟩ := Reader.getBits_fieldAt (j := 16) (n := 16) hs (by omega)
  rw [Reader.skip_zero] at hlen
  exact ⟨len, nlen, by rw [decodeStoredLen, hlen]; simp only [Nat.zero_add, hnlen], lenAt, nlenAt⟩

include hs in
/-- With fewer the region ends in one of the two. -/
theorem decodeStoredLen_cut (hp : r.pos.toNat ≤ 8 * r.stop) (h : 8 * r.stop < r.pos.toNat + 32) :
    ∃ got r1, decodeStoredLen r = .exhausted got r1 := by
  rcases Nat.lt_or_ge (8 * r.stop) (r.pos.toNat + 16) with h16 | h16
  · obtain ⟨r1, hr, -⟩ := Reader.getBits_cut (j := 0) (n := 16) hs hp h16
    rw [Reader.skip_zero] at hr
    exact ⟨_, _, by rw [decodeStoredLen, hr]⟩
  · obtain ⟨len, hlen, -⟩ := Reader.getBits_fieldAt (j := 0) (n := 16) hs h16
    obtain ⟨r1, hr, -⟩ := Reader.getBits_cut (j := 16) (n := 16) hs h16 h
    rw [Reader.skip_zero] at hlen
    exact ⟨[len.toNat], r1, by rw [decodeStoredLen, hlen]; simp only [Nat.zero_add, hr]⟩

end StoredLen

/-- Settles O20: the four outcomes of STORED_LEN, and its two fields. -/
theorem storedLengthIsChecked : Obligations.StoredLengthIsChecked := by
  intro len nlen s
  refine ⟨exec_storedLen_mismatch, exec_storedLen_data, fun h h0 hf => ?_, fun h h0 hf => ?_, fun r hs hp =>
    ⟨decodeStoredLen_cut hs hp, fun h => ?_⟩⟩
  · rw [exec_storedLen_empty h h0, endOfBody_final]
    exact hf
  · rw [exec_storedLen_empty h h0, endOfBody_more]
    exact hf
  · obtain ⟨len1, nlen1, hd, lenAt, nlenAt⟩ := decodeStoredLen_whole hs h
    exact ⟨len1, nlen1, hd, fun k hk => ⟨lenAt k hk, nlenAt k hk⟩⟩

/-! ### One data byte (R179) -/

section StoredByte

variable {v : BitVec 8} {s u : State}

/-- Once its byte is emitted STORED_BYTE counts it, and the last one ends the body. -/
theorem exec_storedByte_go (h : emit v s = .go u) :
    exec (.storedByte v) s = .next
      (if u.storedLeft ≤ 1 then endOfBody { u with storedLeft := 0 } else { u with storedLeft := u.storedLeft - 1 }) := by
  simp only [exec, execStoredByte, h]
  split <;> rfl

/-- Without room STORED_BYTE takes the error entry of `emit`. -/
theorem exec_storedByte_full (h : s.cap.toNat ≤ s.outLen.toNat) :
    exec (.storedByte v) s = .next (raise .outputOverflow s) := by
  simp only [exec, execStoredByte, emit_full h]
  rfl

end StoredByte

/-- Settles O21: `emit` appends the byte; whether it was the last, and then `bfinal`, says what follows. -/
theorem storedByteIsEmitted : Obligations.StoredByteIsEmitted := by
  intro v s ho hw
  refine ⟨fun hroom => ?_, exec_storedByte_full⟩
  obtain ⟨u, hemit, happ, hu, -⟩ := emit_room ho hw hroom
  have hleft := sameButOutput_storedLeft hu
  have hfinal := sameButOutput_bfinal hu
  rw [exec_storedByte_go hemit, hleft]
  rcases Nat.lt_or_ge 1 s.storedLeft with hmore | hlast
  · rw [if_neg (by omega)]
    exact ⟨_, rfl, happ, fun _ => by rw [hu]; rfl, fun h => by omega, fun h => by omega⟩
  · rw [if_pos hlast]
    refine ⟨_, rfl, ?_, fun h => by omega, fun _ hf => ?_, fun _ hf => ?_⟩
    · rcases endOfBody_cases { u with storedLeft := 0 } with h | h <;> rw [h] <;> exact happ
    · rw [endOfBody_final (s := { u with storedLeft := 0 }) (hfinal.trans hf), hu]; rfl
    · rw [endOfBody_more (s := { u with storedLeft := 0 }) (hfinal.trans hf), hu]; rfl

end Sys2Proof.Machine
end

section
/-! The dynamic header: the three counts, the code-length code and the code-length loop (42_block_dispatch.md R181 to
R191). -/

namespace Sys2Proof.Machine

/-! ### The three counts (R181) -/

/-- The three latches hold their bases plus the fields read (10_state.md R38). -/
theorem countLatches_toNat (hl hd : BitVec 5) (hc : BitVec 4) :
    (BitVec.ofNat 9 (257 + hl.toNat)).toNat = 257 + hl.toNat
    ∧ (BitVec.ofNat 6 (1 + hd.toNat)).toNat = 1 + hd.toNat
    ∧ (BitVec.ofNat 5 (4 + hc.toNat)).toNat = 4 + hc.toNat := by
  simp only [BitVec.toNat_ofNat]
  omega

/-- Counts read from a header are in their ranges (10_state.md R38). -/
theorem State.countsLegal_of_fields {t : State} {hl hd : BitVec 5} {hc : BitVec 4} (hhl : t.hlit.toNat = 257 + hl.toNat)
    (hhd : t.hdist.toNat = 1 + hd.toNat) (hhc : t.hclen.toNat = 4 + hc.toNat) : t.countsLegal := by
  rw [State.countsLegal]
  omega

section Counts

variable {r : Reader} (hs : r.stop < 2 ^ 29)

include hs in
/-- With 14 bits left the three counts are read whole. -/
theorem decodeDynHdr_whole (h : r.pos.toNat + 14 ≤ 8 * r.stop) :
    ∃ (a b : BitVec 5) (c : BitVec 4), decodeDynHdr r = .ok (.dynHdr a b c) (r.skip 14)
      ∧ r.FieldAt 0 a ∧ r.FieldAt 5 b ∧ r.FieldAt 10 c := by
  obtain ⟨a, ha, aAt⟩ := Reader.getBits_fieldAt (j := 0) (n := 5) hs (by omega)
  obtain ⟨b, hb, bAt⟩ := Reader.getBits_fieldAt (j := 5) (n := 5) hs (by omega)
  obtain ⟨c, hc, cAt⟩ := Reader.getBits_fieldAt (j := 10) (n := 4) hs (by omega)
  rw [Reader.skip_zero] at ha
  exact ⟨a, b, c, by rw [decodeDynHdr, ha]; simp only [Nat.zero_add, hb, hc, Nat.reduceAdd], aAt, bAt, cAt⟩

/-- What the decoder has read of the three counts when the region ends in one of them. -/
def Reader.CountsRead (r : Reader) (got : List Nat) : Prop :=
  (got = [] ∧ 8 * r.stop < r.pos.toNat + 5)
  ∨ (∃ a : BitVec 5, got = [a.toNat] ∧ r.FieldAt 0 a ∧ r.pos.toNat + 5 ≤ 8 * r.stop
      ∧ 8 * r.stop < r.pos.toNat + 10)
  ∨ (∃ a b : BitVec 5, got = [a.toNat, b.toNat] ∧ r.FieldAt 0 a ∧ r.FieldAt 5 b ∧ r.pos.toNat + 10 ≤ 8 * r.stop)

include hs in
/-- With fewer than 14 bits left the region ends in the first count, the second or the third. -/
theorem decodeDynHdr_cut (hp : r.pos.toNat ≤ 8 * r.stop) (h : 8 * r.stop < r.pos.toNat + 14) :
    ∃ got r1, decodeDynHdr r = .exhausted got r1 ∧ r1.pos.toNat = 8 * r.stop ∧ r.CountsRead got := by
  rcases Nat.lt_or_ge (8 * r.stop) (r.pos.toNat + 5) with h5 | h5
  · obtain ⟨r1, hr, hend⟩ := Reader.getBits_cut (j := 0) (n := 5) hs hp h5
    rw [Reader.skip_zero] at hr
    exact ⟨_, _, by rw [decodeDynHdr, hr], hend, .inl ⟨rfl, h5⟩⟩
  obtain ⟨a, ha, aAt⟩ := Reader.getBits_fieldAt (j := 0) (n := 5) hs h5
  rw [Reader.skip_zero] at ha
  rcases Nat.lt_or_ge (8 * r.stop) (r.pos.toNat + 10) with h10 | h10
  · obtain ⟨r1, hr, hend⟩ := Reader.getBits_cut (j := 5) (n := 5) hs h5 h10
    exact ⟨[a.toNat], r1, by rw [decodeDynHdr, ha]; simp only [Nat.zero_add, hr], hend, .inr (.inl ⟨a, rfl, aAt, h5, h10⟩)⟩
  · obtain ⟨b, hb, bAt⟩ := Reader.getBits_fieldAt (j := 5) (n := 5) hs h10
    obtain ⟨r1, hr, hend⟩ := Reader.getBits_cut (j := 10) (n := 4) hs h10 h
    exact ⟨[a.toNat, b.toNat], r1, by rw [decodeDynHdr, ha]; simp only [Nat.zero_add, hb, hr, Nat.reduceAdd], hend,
      .inr (.inr ⟨a, b, rfl, aAt, bAt, h10⟩)⟩

end Counts

/-- A job about to read the three counts decodes them; where the input ends the step takes the error entry with what was
latched by then. -/
theorem step_dynHdr_exhausted {s : State} {got : List Nat} {r1 : Reader} (hb : s.busy = true) (hm : s.hostMoves = [])
    (he : s.expect = .dynHdr) (hd : decodeDynHdr s.reader = .exhausted got r1) :
    step s = .next (raise .inputExhausted (latchPart .dynHdr got { s with inPos := r1.pos })) := by
  have hf : s.format = .dynHdr := by rw [State.format, he]
  rw [step_nil hm, engineAction_exhausted hb (by rw [hf]; exact hd), Action.outcome_settled, hf]

/-- Settles O22: the counts latched, the step where the input ends in one of them, and the three fields. -/
theorem dynamicHeaderCounts : Obligations.DynamicHeaderCounts := by
  intro hl hd hc s
  refine ⟨?_, fun hb hm he hs hp hcut => ?_, fun r hs hp => ⟨fun h => ?_, fun h => ?_⟩⟩
  · obtain ⟨hhl, hhd, hhc⟩ := countLatches_toNat hl hd hc
    exact ⟨_, rfl, rfl, hhl, hhd, hhc, State.countsLegal_of_fields hhl hhd hhc⟩
  · obtain ⟨got, r1, hdec, hend, hgot⟩ := decodeDynHdr_cut (r := s.reader) hs hp hcut
    refine ⟨_, step_dynHdr_exhausted hb hm he hdec, ?_⟩
    simp only [Reader.CountsRead, State.reader] at hgot hend
    rcases hgot with ⟨rfl, h5⟩ | ⟨a, rfl, aAt, h5, h10⟩ | ⟨a, b, rfl, aAt, bAt, h10⟩
    · exact ⟨rfl, hend, fun _ => rfl, fun h => by omega, fun _ => rfl, fun h => by omega⟩
    · obtain ⟨ha, -⟩ := countLatches_toNat a 0 0
      exact ⟨rfl, hend, fun h => by omega, fun _ => ⟨a, ha, aAt⟩, fun _ => rfl, fun h => by omega⟩
    · obtain ⟨ha, hb, -⟩ := countLatches_toNat a b 0
      exact ⟨rfl, hend, fun h => by omega, fun _ => ⟨a, ha, aAt⟩, fun h => by omega, fun _ => ⟨b, hb, bAt⟩⟩
  · obtain ⟨got, r1, hdec, -⟩ := decodeDynHdr_cut hs hp h
    exact ⟨got, r1, hdec⟩
  · obtain ⟨a, b, c, hdec, aAt, bAt, cAt⟩ := decodeDynHdr_whole hs h
    exact ⟨a, b, c, hdec, fun k hk => ⟨aAt k hk, bAt k hk, cAt k⟩⟩

/-! ### The code-length code (R182, R183) -/

/-- Settles O23: the entry is the one CL_ORDER names for the loop index; the loop's last entry builds the table. -/
theorem codeLengthCodeLengthsArePlaced : Obligations.CodeLengthCodeLengthsArePlaced := by
  intro v s j hj
  have hj : clOrder.getD s.clIndex Config.clN = j := by rw [List.getD, clOrder, hj, Option.getD_some]
  refine ⟨fun h => ?_, fun h => ?_, fun r => withExtra_answers .clCodelen r⟩
  · simp only [exec, execClCodelen, hj, if_pos h]
    rfl
  · simp only [exec, execClCodelen, hj, if_neg (Nat.not_lt.mpr h)]
    rfl

/-! ### The code-length loop (R184 to R192) -/

/-- Settles O24: the symbol is one copy written at `num`, then the loop's test. -/
theorem codeLengthSymbolIsWritten : Obligations.CodeLengthSymbolIsWritten :=
  ⟨fun _ _ _ _ _ hsym hd => (decodeCoded_of_symbol hd).trans (if_pos hsym),
    fun _ _ hc h320 hnum => ⟨_, rfl, nextClSym_writeLens hc h320 hnum⟩⟩

section Repeat

variable {rep : Nat} {v : BitVec 4} {s : State}

/-- A repeat within HLIT + HDIST writes its copies, then the loop's test follows (R186 to R188). -/
theorem repeatLens_fits (hc : s.countsLegal) (h320 : s.lens.length = 320)
    (h : s.num.toNat + rep ≤ s.hlit.toNat + s.hdist.toNat) :
    ∃ t, (repeatLens rep v s).outcome = .next t ∧ s.lengthsWritten t rep v := by
  rw [repeatLens, State.lensTotal, if_neg (Nat.not_lt.mpr h)]
  exact ⟨_, rfl, nextClSym_writeLens hc h320 h⟩

/-- A repeat past HLIT + HDIST writes nothing (R189). -/
theorem repeatLens_overrun (h : s.hlit.toNat + s.hdist.toNat < s.num.toNat + rep) :
    (repeatLens rep v s).outcome = .next (raise .codeLengthOverrun s) := by
  rw [repeatLens, State.lensTotal, if_pos h]
  rfl

/-- CL_REP_PREV with no prior length raises before anything else (R186). -/
theorem exec_clRepPrev_first {e : BitVec 2} (h : s.num = 0) :
    exec (.clRepPrev e) s = .next (raise .repeatWithNoPrior s) :=
  if_pos h

/-- CL_REP_PREV after a prior length repeats it (R186). -/
theorem exec_clRepPrev_repeats {e : BitVec 2} (h : s.num ≠ 0) :
    exec (.clRepPrev e) s = (repeatLens (3 + e.toNat) (s.lens.getD (s.num.toNat - 1) 0) s).outcome :=
  if_neg h

end Repeat

/-- Settles O25: symbols 16 to 18 with their extra bits, the first CL_REP_PREV, and the three repeats as one operation. -/
theorem codeLengthRepeatsAreWritten : Obligations.CodeLengthRepeatsAreWritten := by
  refine ⟨fun t first r r1 => ⟨fun h => ?_, fun h => ?_, fun h => ?_⟩, fun e s => exec_clRepPrev_first,
    fun s hc h320 _ i rep v hi => ?_⟩
  · have decoded (first : Bool) : decode (.clSym t first) r = clInstr first 16 r1 := decodeCoded_of_symbol h
    rw [decoded, decoded]
    exact ⟨rfl, withExtra_answers .clRepPrev r1⟩
  · rw [show decode (.clSym t first) r = clInstr first 17 r1 from decodeCoded_of_symbol h]
    exact withExtra_answers .clRepZero3 r1
  · rw [show decode (.clSym t first) r = clInstr first 18 r1 from decodeCoded_of_symbol h]
    exact withExtra_answers .clRepZero11 r1
  · have hexec : exec i s = (repeatLens rep v s).outcome := by
      rcases hi with ⟨hnum, e, rfl, rfl, rfl⟩ | ⟨e, rfl, rfl, rfl⟩ | ⟨e, rfl, rfl, rfl⟩
      · exact exec_clRepPrev_repeats hnum
      · rfl
      · rfl
    rw [hexec]
    exact ⟨repeatLens_fits hc h320, repeatLens_overrun⟩

end Sys2Proof.Machine
end

section
/-! The engine never stops: whatever the stream holds, its turn answers a next state (42_block_dispatch.md R190,
60_exceptions.md R332). -/

namespace Sys2Proof.Machine

/-- The engine's action answers a next state: idle it changes nothing, every instruction has a meaning, an exhausted input
and a missing code are errors, and the invariant's tables hold no code-length symbol above 18. -/
theorem engineAction_next {s : State} (h : s.Inv) : ∃ t, (engineAction s).outcome = .next t := by
  cases hb : s.busy with
  | false => exact ⟨s, by rw [engineAction_idle hb, Action.outcome_settled]⟩
  | true =>
    cases hd : decode s.format s.reader with
    | ok i r => rw [engineAction_ok hb hd]; exact exec_next i _
    | exhausted got r => rw [engineAction_exhausted hb hd]; exact ⟨_, rfl⟩
    | noCode r => rw [engineAction_noCode hb hd]; exact ⟨_, rfl⟩
    | noClSymbol r => exact absurd hd (decode_ne_noClSymbol h hb)

/-- Settles O52: the engine's turn is its action on a state of the invariant. -/
theorem engineNeverStops : Obligations.EngineNeverStops := by
  intro s h hturn
  obtain ⟨moves, hstep⟩ := step_engine hturn
  rw [hstep]
  exact engineAction_next (h.with_moves moves)

end Sys2Proof.Machine
end

section
/-! Literals, the end of a block and matches (43_lz77_window_emitter.md R211 to R280). -/

namespace Sys2Proof.Machine

/-! ### EOB and the reserved symbols (R213, R244, R275) -/

/-- Settles O19: EOB is the end of a body, whose two cases `bfinal` tells apart. -/
theorem endOfBlockBody : Obligations.EndOfBlockBody := by
  obtain ⟨-, -, code7, -⟩ := fixedCodesAreCanonical
  exact fun s => ⟨fun h => congrArg Host.Outcome.next (endOfBody_final h),
    fun h => congrArg Host.Outcome.next (endOfBody_more h), code7 256 (by decide) (by decide),
    fun t r r1 h => decodeCoded_of_symbol h⟩

/-- Settles O27: the two instructions take the error entry, and their symbols decode to them alone. -/
theorem reservedSymbolsRaise : Obligations.ReservedSymbolsRaise := by
  obtain ⟨-, -, -, code8, -, -, codeNone, -⟩ := fixedCodesAreCanonical
  exact ⟨fun _ _ => rfl, fun _ _ => rfl,
    fun t r r1 => ⟨decodeCoded_of_symbol, decodeCoded_of_symbol, decodeCoded_of_symbol, decodeCoded_of_symbol⟩,
    code8 286 (by decide) (by decide), code8 287 (by decide) (by decide), codeNone 30 (by decide),
    codeNone 31 (by decide)⟩

/-! ### LIT (R211) -/

section Literal

variable {v : BitVec 8} {s : State}

/-- Once its byte is emitted LIT awaits the next literal/length symbol. -/
theorem exec_lit_go {u : State} (h : emit v s = .go u) : exec (.lit v) s = .next { u with expect := .litLen } := by
  simp only [exec, execLit, h]
  rfl

/-- Without room LIT takes the error entry of `emit`. -/
theorem exec_lit_full (h : s.cap.toNat ≤ s.outLen.toNat) : exec (.lit v) s = .next (raise .outputOverflow s) := by
  simp only [exec, execLit, emit_full h]
  rfl

end Literal

/-- The sums after one appended byte (44_stream_driver_adler32.md R310). -/
theorem State.appended.sums_singleton {s t : State} {v : Byte} (h : s.appended t [v]) :
    t.adlerA.toNat = (s.adlerA.toNat + v.toNat) % 65521
    ∧ t.adlerB.toNat = (s.adlerB.toNat + t.adlerA.toNat) % 65521 := by
  obtain ⟨-, -, -, -, -, -, hsums⟩ := h
  obtain ⟨ha, hb⟩ := Prod.mk.inj hsums
  exact ⟨ha, by rw [hb, ha]⟩

/-- Settles O26: a symbol below 256 is its literal, and LIT appends what `emit` appends. -/
theorem literalIsEmitted : Obligations.LiteralIsEmitted := by
  refine ⟨fun t r r1 sym hsym h => (decodeCoded_of_symbol h).trans (if_pos (by omega)), fun v s ho hw =>
    ⟨fun hroom => ?_, exec_lit_full⟩⟩
  obtain ⟨u, hemit, happ, hu, -⟩ := emit_room (v := v) ho hw hroom
  exact ⟨{ u with expect := .litLen }, exec_lit_go hemit, happ, by rw [hu]; rfl, happ.sums_singleton⟩

/-! ### The rules of the length and distance codes (R215 to R274) -/

/-- A code with no extra bits stands for its base. -/
theorem value_add_noExtra {value : Instr → Option Nat} {ins : Instr} {base : Nat} (hv : value ins = some base)
    (e : BitVec 0) : value ins = some (base + e.toNat) := by
  rw [hv, BitVec.eq_nil e]
  rfl

section Rules

variable {sym n base : Nat} {make : BitVec n → Instr} {code : List Bool}

/-- A decoded symbol is followed by its extra bits, answered as `get_bits` answers them. -/
theorem decodeCoded_extra {t : Huff} {instr : Nat → Reader → DecodeResult} {r r1 : Reader}
    (hd : ∀ r, instr sym r = withExtra n make r) (h : decodeSym t r = .ok sym r1) :
    (∀ e r2, r1.getBits n = .ok e r2 → decodeCoded t instr r = .ok (make e) r2)
    ∧ (∀ r2, r1.getBits n = .exhausted r2 → decodeCoded t instr r = .exhausted [] r2) := by
  rw [decodeCoded_of_symbol h, hd]
  exact withExtra_answers make r1

/-- A symbol that reads as a length code of `base` plus `n` extra bits follows the rule of the length codes. -/
theorem lengthCodeRule_of (hcode : codeOf fixedLit sym = some code) (hd : ∀ r, litLenInstr sym r = withExtra n make r)
    (hv : ∀ e, matchLength (make e) = some (base + e.toNat)) : lengthCodeRule sym n base make code := by
  refine ⟨hcode, fun _ _ _ => decodeCoded_extra hd, fun e s => ⟨_, ?_, exec_length (hv e) s⟩⟩
  obtain ⟨-, hle, -⟩ := matchLength_exec (hv e)
  rw [BitVec.toNat_ofNat]
  omega

/-- A symbol that reads as a distance code of `base` plus `n` extra bits follows the rule of the distance codes. -/
theorem distanceCodeRule_of (hcode : codeOf fixedDist sym = some code) (hd : ∀ r, distInstr sym r = withExtra n make r)
    (hv : ∀ e, matchDistance (make e) = some (base + e.toNat)) : distanceCodeRule sym n base make code := by
  refine ⟨hcode, fun _ _ _ => decodeCoded_extra hd, fun e s => ?_⟩
  obtain ⟨h1, hmax, hexec⟩ := matchDistance_bounds (hv e)
  rw [hexec]
  refine ⟨BitVec.ofNat 16 (base + e.toNat), ?_, distanceStep_far (by omega), distanceStep_room h1 hmax⟩
  rw [BitVec.toNat_ofNat]
  omega

end Rules

/-- Settles O28: the eight codes 257 to 264 have no extra bits, the other two have one. -/
theorem lengthCodes257To266 : Obligations.LengthCodes257To266 := by
  obtain ⟨-, -, code7, -⟩ := fixedCodesAreCanonical
  refine ⟨?_, ?_, ?_, ?_, ?_, ?_, ?_, ?_, ?_, ?_⟩
  iterate 8 exact lengthCodeRule_of (code7 _ (by decide) (by decide)) (fun _ => rfl) (value_add_noExtra rfl)
  iterate 2 exact lengthCodeRule_of (code7 _ (by decide) (by decide)) (fun _ => rfl) fun _ => rfl

/-- Settles O29: all ten codes have a 7-bit fixed code and extra bits. -/
theorem lengthCodes267To276 : Obligations.LengthCodes267To276 := by
  obtain ⟨-, -, code7, -⟩ := fixedCodesAreCanonical
  refine ⟨?_, ?_, ?_, ?_, ?_, ?_, ?_, ?_, ?_, ?_⟩
  iterate 10 exact lengthCodeRule_of (code7 _ (by decide) (by decide)) (fun _ => rfl) fun _ => rfl

/-- Settles O30: from 280 on the fixed codes have 8 bits, and 285 has no extra bits. -/
theorem lengthCodes277To285 : Obligations.LengthCodes277To285 := by
  obtain ⟨-, -, code7, code8, -⟩ := fixedCodesAreCanonical
  refine ⟨?_, ?_, ?_, ?_, ?_, ?_, ?_, ?_, ?_⟩
  iterate 3 exact lengthCodeRule_of (code7 _ (by decide) (by decide)) (fun _ => rfl) fun _ => rfl
  iterate 5 exact lengthCodeRule_of (code8 _ (by decide) (by decide)) (fun _ => rfl) fun _ => rfl
  exact lengthCodeRule_of (code8 _ (by decide) (by decide)) (fun _ => rfl) (value_add_noExtra rfl)

/-- Settles O31: the four codes 0 to 3 have no extra bits, the other six have some. -/
theorem distanceCodes0To9 : Obligations.DistanceCodes0To9 := by
  obtain ⟨-, -, -, -, -, code5, -⟩ := fixedCodesAreCanonical
  refine ⟨?_, ?_, ?_, ?_, ?_, ?_, ?_, ?_, ?_, ?_⟩
  iterate 4 exact distanceCodeRule_of (code5 _ (by decide)) (fun _ => rfl) (value_add_noExtra rfl)
  iterate 6 exact distanceCodeRule_of (code5 _ (by decide)) (fun _ => rfl) fun _ => rfl

/-- Settles O32: all ten codes have extra bits. -/
theorem distanceCodes10To19 : Obligations.DistanceCodes10To19 := by
  obtain ⟨-, -, -, -, -, code5, -⟩ := fixedCodesAreCanonical
  refine ⟨?_, ?_, ?_, ?_, ?_, ?_, ?_, ?_, ?_, ?_⟩
  iterate 10 exact distanceCodeRule_of (code5 _ (by decide)) (fun _ => rfl) fun _ => rfl

/-- Settles O33: all ten codes have extra bits. -/
theorem distanceCodes20To29 : Obligations.DistanceCodes20To29 := by
  obtain ⟨-, -, -, -, -, code5, -⟩ := fixedCodesAreCanonical
  refine ⟨?_, ?_, ?_, ?_, ?_, ?_, ?_, ?_, ?_, ?_⟩
  iterate 10 exact distanceCodeRule_of (code5 _ (by decide)) (fun _ => rfl) fun _ => rfl

/-! ### The replay of a match (R277, R278) -/

/-- Settles O34: every distance code is a distance step, which stops at the capacity. -/
theorem copyStopsAtCapacity : Obligations.CopyStopsAtCapacity := by
  intro i d s hm ho hw hnear hle hfull
  obtain ⟨h1, hmax, hexec⟩ := matchDistance_bounds hm
  rw [hexec]
  exact distanceStep_full h1 hmax ho hw hnear hle hfull

/-- Byte `k` of a replay stands `d - k mod d` bytes back in the window. -/
theorem State.replay_getD {s : State} {d k : Nat} (h1 : 1 ≤ d) (hmax : d ≤ 32768) (hk : k < s.length.toNat) :
    (s.replay d).getD k 0 = s.window.read ((s.wp.toNat + Config.wsize - (d - k % d)) % Config.wsize) := by
  have hmod : k % d < d := Nat.mod_lt _ h1
  rw [State.replay, List.getD_eq_getElem _ _ (by simpa using hk), List.getElem_map, List.getElem_range, Config.wsize,
    show s.wp.toNat + 32768 - d + k % d = s.wp.toNat + 32768 - (d - k % d) by omega]

/-- Where the window mirrors the output, that is the byte as far back in the output. -/
theorem State.windowMirrors.replay_getD {s : State} {d k : Nat} (hs : s.windowMirrors) (h1 : 1 ≤ d) (hmax : d ≤ 32768)
    (hnear : d ≤ s.outLen.toNat) (hk : k < s.length.toNat) :
    (s.replay d).getD k 0 = s.outMem.read (s.outLen.toNat - d + k % d) := by
  have hmod : k % d < d := Nat.mod_lt _ h1
  rw [State.replay_getD h1 hmax hk, hs (d - k % d) (by omega) (by rw [Config.wsize]; omega) (by omega),
    show s.outLen.toNat - (d - k % d) = s.outLen.toNat - d + k % d by omega]

/-- Settles O35: the match appends the replay, whose bytes the window mirrors from the output. -/
theorem matchCopiesEarlierOutput : Obligations.MatchCopiesEarlierOutput := by
  intro i d s hm ho hw hs _ hnear hroom
  obtain ⟨h1, hmax, hexec⟩ := matchDistance_bounds hm
  obtain ⟨t, ht, ⟨hcount, -, hnew, hold, -⟩, -⟩ := distanceStep_room h1 hmax ho hw hnear hroom
  have hlen : (s.replay d).length = s.length.toNat := replayBytes_length s d _
  rw [hlen] at hcount hnew
  exact ⟨t, (hexec s).trans ht, hcount, fun k hk => (hnew k hk).trans (hs.replay_getD h1 hmax hnear hk),
    fun a ha => hold a (.inl ha)⟩

end Sys2Proof.Machine
end

section
/-! The stream driver: the start of a job, its header and its trailer (44_stream_driver_adler32.md R300 to R314). -/

namespace Sys2Proof.Machine

/-! ### HOST_START (R300, R301) -/

/-- Settles O14: while busy the guard answers the same state; while idle E, at most N or 2, fits in its word. -/
theorem hostStartInitialisesTheJob : Obligations.HostStartInitialisesTheJob := by
  refine fun w s => ⟨fun hb => if_pos hb, fun hb => ⟨BitVec.ofNat 32 (max 2 (s.inLen.toNat - 4)), ?_, ?_⟩⟩
  · have hlt := s.inLen.isLt
    exact Nat.mod_eq_of_lt (by omega)
  · exact if_neg (by rw [hb]; decide)

/-! ### ZLIB_HDR (R302 to R308) -/

section Header

variable {cmf flg : BitVec 8} {s : State}

/-- A header that fails a check raises that check's error. -/
theorem exec_zlibHdr_rejected {x : JobError} (h : headerCheck cmf flg = some x) :
    exec (.zlibHdr cmf flg) s = .next (raise x s) := by
  simp only [exec, execZlibHdr, h, Run.outcome_raised]

/-- A header that passes puts the cursor at (2, 0), where the block loop begins. -/
theorem exec_zlibHdr_accepted (h : headerCheck cmf flg = none) :
    exec (.zlibHdr cmf flg) s = .next { s with inPos := 16, fsm := .blockHeader, expect := .blkHdr } := by
  simp only [exec, execZlibHdr, h, Run.outcome_go]
  rfl

variable (hb : s.busy = true) (hz : s.expect = .zlibHdr)
include hb hz

/-- Fewer than two bytes hold no header. -/
theorem engineAction_zlibHdr_short (hn : s.n.toNat < 2) :
    engineAction s = .settled (.next (raise .inputExhausted s)) := by
  have hf : s.format = .zlibHdr := by rw [State.format, hz]
  have hd : decode s.format s.reader = .exhausted [] s.reader := by rw [hf]; exact if_pos hn
  rw [engineAction_exhausted hb hd, hf]
  rfl

/-- The header is the first two bytes of the input. -/
theorem engineAction_zlibHdr (hn : 2 ≤ s.n.toNat) :
    engineAction s = .run (.zlibHdr (s.inMem.read 0) (s.inMem.read 1)) s := by
  have hf : s.format = .zlibHdr := by rw [State.format, hz]
  exact engineAction_ok (r := s.reader) hb (by rw [hf]; exact if_neg (Nat.not_lt.mpr hn))

end Header

/-- Settles O16: each clause is one outcome of the header check, and the step fetches the header's two bytes. -/
theorem headerChecksInOrder : Obligations.HeaderChecksInOrder := by
  intro cmf flg s
  refine ⟨fun hcm => exec_zlibHdr_rejected ?_, fun hcm hinfo => exec_zlibHdr_rejected ?_,
    fun hcm hinfo hdict => exec_zlibHdr_rejected ?_, fun hcm hinfo hdict hcheck => exec_zlibHdr_rejected ?_,
    fun hcm hinfo hdict hcheck => exec_zlibHdr_accepted ?_, fun hb hm hz => ⟨fun hn => ?_, fun hn => ?_⟩⟩
  · simp [headerCheck, hcm]
  · simp [headerCheck, hcm, hinfo]
  · simp [headerCheck, hcm, hinfo.not_gt, hdict]
  · simp [headerCheck, hcm, hinfo.not_gt, hdict, hcheck, -BitVec.getLsbD_eq_getElem]
  · simp [headerCheck, hcm, hinfo.not_gt, hdict, hcheck, -BitVec.getLsbD_eq_getElem]
  · rw [step_nil hm, engineAction_zlibHdr_short hb hz hn, Action.outcome_settled]
  · rw [step_nil hm, engineAction_zlibHdr hb hz hn, Action.outcome_run]

/-! ### ADLER_TRAILER (R312 to R314) -/

section Trailer

variable {T : Word} {s : State}

/-- ADLER as a number (10_state.md R28). -/
theorem adlerWord_toNat (s : State) : s.adlerWord.toNat = s.adlerB.toNat * 2 ^ 16 + s.adlerA.toNat :=
  append_toNat ..

/-- The trailer as a number (30_encoding.md R100). -/
theorem trailerValue_toNat (mem : Memory) (n : Nat) :
    (trailerValue mem n).toNat = (mem.read (n - 4)).toNat * 2 ^ 24 + (mem.read (n - 3)).toNat * 2 ^ 16
      + (mem.read (n - 2)).toNat * 2 ^ 8 + (mem.read (n - 1)).toNat := by
  simp only [trailerValue, append_toNat]
  omega

/-- A trailer other than ADLER ends the job in ChecksumMismatch. -/
theorem exec_adlerTrailer_mismatch (h : T ≠ s.adlerWord) :
    exec (.adlerTrailer T) s = .next (raise .checksumMismatch { s with trailer := T }) :=
  if_pos h

/-- A trailer equal to ADLER ends the job in DONE. -/
theorem exec_adlerTrailer_match (h : T = s.adlerWord) :
    exec (.adlerTrailer T) s = .next { s with trailer := T, busy := false, done := true, fsm := .done } :=
  if_neg (not_not.mpr h)

/-- The trailer is the last four bytes of the input. -/
theorem engineAction_trailer (hb : s.busy = true) (ht : s.expect = .trailer) :
    engineAction s = .run (.adlerTrailer (trailerValue s.inMem s.n.toNat)) s := by
  have hf : s.format = .trailer := by rw [State.format, ht]
  exact engineAction_ok (r := s.reader) hb (by rw [hf]; rfl)

/-- A job at its trailer has read past the header, so its bit region is longer than the two header bytes. -/
theorem State.Inv.seven_le_n (h : s.Inv) (hb : s.busy = true) (ht : s.expect = .trailer) : 7 ≤ s.n.toNat := by
  obtain ⟨-, -, -, he, -⟩ := h.latches hb
  have hcursor := h.cursor hb
  rw [State.cursorInRegion, if_neg (by rw [ht]; decide), if_neg (by rw [ht]; decide)] at hcursor
  omega

end Trailer

/-- Settles O17: the step fetches the trailer's four bytes, and the word is ADLER exactly when the numbers agree. -/
theorem trailerDecidesTheJob : Obligations.TrailerDecidesTheJob := by
  refine ⟨fun s h hb ht => h.seven_le_n hb ht, fun s hb hm ht _ => ⟨_, trailerValue_toNat .., ?_⟩,
    fun T s => ⟨fun hne => exec_adlerTrailer_mismatch ?_, fun heq => exec_adlerTrailer_match ?_⟩⟩
  · rw [step_nil hm, engineAction_trailer hb ht, Action.outcome_run]
  · rintro rfl
    exact hne (adlerWord_toNat s)
  · exact BitVec.eq_of_toNat_eq (heq.trans (adlerWord_toNat s).symm)

end Sys2Proof.Machine
end

section
/-! The checksum along a job (44_stream_driver_adler32.md R311). -/

namespace Sys2Proof.Machine

/-- Settles O54: a started job has the sums of no bytes, and a step appends output, which the sums follow. -/
theorem checksumIsAdlerOfOutput : Obligations.ChecksumIsAdlerOfOutput := by
  refine ⟨fun w s t hb hx => ?_, fun s t h hb hs hx hr => ?_⟩
  · rw [exec_hostStart_idle hb hx]
    rfl
  · rcases step_busy h hb hx hr with ⟨moves, hi, he⟩ | ⟨moves, ht⟩
    · obtain ⟨bs, happ, -⟩ := engine_appends hi hb he
      exact State.checksum_appended happ hs
    · rw [ht]
      exact hs

end Sys2Proof.Machine
end

section
/-! Every job ends: each step of the engine ends the job or moves the cursor forward, and the cursor stays in the bit
region (44_stream_driver_adler32.md R315). -/

namespace Sys2Proof.Machine

section Engine

variable {s t : State}

/-- A job whose header does not end it is past the start of the input. -/
theorem engineAction_zlibHdr_progress (h : s.Inv) (hb : s.busy = true) (hz : s.expect = .zlibHdr)
    (hx : (engineAction s).outcome = .next t) (hbt : t.busy = true) : s.inPos.toNat < t.inPos.toNat := by
  rcases Nat.lt_or_ge s.n.toNat 2 with hn | hn
  · rw [engineAction_zlibHdr_short hb hz hn] at hx
    cases hx
    cases hbt
  · rw [engineAction_zlibHdr hb hz hn, Action.outcome_run] at hx
    cases hc : headerCheck (s.inMem.read 0) (s.inMem.read 1) with
    | some x =>
      rw [exec_zlibHdr_rejected hc] at hx
      cases hx
      cases hbt
    | none =>
      rw [exec_zlibHdr_accepted hc] at hx
      cases hx
      rw [h.cursor_start hb hz]
      exact (by decide : (0 : Word).toNat < (16 : Word).toNat)

/-- The trailer ends the job. -/
theorem engineAction_trailer_ends (hb : s.busy = true) (ht : s.expect = .trailer)
    (hx : (engineAction s).outcome = .next t) : t.busy = false := by
  rw [engineAction_trailer hb ht, Action.outcome_run] at hx
  by_cases hT : trailerValue s.inMem s.n.toNat = s.adlerWord
  · rw [exec_adlerTrailer_match hT] at hx
    cases hx
    rfl
  · rw [exec_adlerTrailer_mismatch hT] at hx
    cases hx
    rfl

/-- An action of the engine that does not end the job moves the cursor forward. -/
theorem engineAction_progress (h : s.Inv) (hb : s.busy = true) (hx : (engineAction s).outcome = .next t)
    (hbt : t.busy = true) : s.inPos.toNat < t.inPos.toNat := by
  by_cases hz : s.expect = .zlibHdr
  · exact engineAction_zlibHdr_progress h hb hz hx hbt
  · by_cases ht : s.expect = .trailer
    · exact absurd ((engineAction_trailer_ends hb ht hx).symm.trans hbt) (by decide)
    · obtain ⟨-, -, hlt⟩ := engineAction_cursor h hb hx
      exact hlt hz ht hbt

/-- An action of the engine that ends the job ends it in DONE or in ERROR, not in both. -/
theorem engineAction_result (h : s.Inv) (hb : s.busy = true) (hx : (engineAction s).outcome = .next t)
    (hbt : t.busy = false) : t.done = !t.error := by
  obtain ⟨-, herr, -⟩ := h.running hb
  rcases engine_run h hb hx with ⟨i, p, -, -, -, -, -, -, hstatus, -⟩ | ⟨x, -, -, -, -, -, hd, he, -⟩
  · rcases hstatus with ⟨hbusy, -⟩ | ⟨-, hd, he, -⟩ | ⟨-, -, hd, he, -⟩
    · exact absurd (hbt.symm.trans (hbusy.trans hb)) (by decide)
    · rw [hd, he]; rfl
    · rw [hd, he.trans herr]; rfl
  · rw [hd, he]; rfl

/-- An action of the engine emits at most one match, of at most 258 bytes (43_lz77_window_emitter.md R279). -/
theorem engineAction_emits_le (h : s.Inv) (hb : s.busy = true) (hx : (engineAction s).outcome = .next t) :
    t.outLen.toNat ≤ s.outLen.toNat + 258 := by
  rcases engine_run h hb hx with ⟨i, p, -, -, -, -, -, -, -, bs, happ, hlen, -⟩ | ⟨x, -, hout, -⟩
  · have hgrow : t.outLen.toNat = s.outLen.toNat + bs.length := happ.1
    rcases hlen with hone | ⟨hdist, hmatch⟩
    · omega
    · have hcontrol := h.control hb
      rw [State.controlLegal, hdist] at hcontrol
      obtain ⟨-, -, hmax⟩ := hcontrol
      omega
  · rw [hout.outLen]
    exact Nat.le_add_right ..

/-- While no job runs the engine's turns change nothing (60_exceptions.md R352). -/
theorem run_idle (hb : s.busy = false) (hm : s.hostMoves = []) (k : Nat) : core.run k s = .next s := by
  induction k with
  | zero => rfl
  | succ k ih =>
    have hstep : step s = .next s := by rw [step_nil hm, engineAction_idle hb, Action.outcome_settled]
    rw [run_succ hstep, ih]

/-- More steps than bits are left in the region end the job, since each step that does not end it consumes a bit. -/
theorem run_ends {k : Nat} (h : s.Inv) (hb : s.busy = true) (hm : s.hostMoves = [])
    (hk : 8 * s.e.toNat < s.inPos.toNat + k) :
    ∃ t, core.run k s = .next t ∧ t.busy = false ∧ t.done = !t.error := by
  induction k generalizing s with
  | zero =>
    have hin : s.inPos.toNat ≤ 8 * s.e.toNat := h.cursor_le hb
    omega
  | succ k ih =>
    obtain ⟨t, hx⟩ := engineAction_next h
    have hkeep : s.SameInputs t := (engine_appends_fitting h hb hx).1
    have hmt : t.hostMoves = [] := hkeep.hostMoves.trans hm
    rw [run_succ ((step_nil hm).trans hx)]
    cases hbt : t.busy with
    | false => exact ⟨t, run_idle hbt hmt k, hbt, engineAction_result h hb hx hbt⟩
    | true =>
      have hlt := engineAction_progress h hb hx hbt
      exact ih (engineAction_inv h hx) hbt hmt (by rw [hkeep.e]; omega)

end Engine

/-- Settles O53: the region holds at most 8*E bits, and a step emits at most one match. -/
theorem everyJobEnds : Obligations.EveryJobEnds := by
  refine fun s h hb hm => ⟨run_ends h hb hm (by omega), fun t hx => ?_⟩
  exact engineAction_emits_le h hb ((step_nil hm).symm.trans hx)

end Sys2Proof.Machine
end

section
/-! The error entry and the engine outside a job (60_exceptions.md R330, R331, R352), and where an exhausted input leaves
the cursor (R341). -/

namespace Sys2Proof.Machine

/-- Settles O37: `raise` is that entry and `JobError.code` that table, by definition. -/
theorem errorEntry : Obligations.ErrorEntry :=
  ⟨fun _ _ => rfl, rfl, rfl, rfl, rfl, rfl, rfl, rfl, rfl, rfl, rfl, rfl, rfl, rfl⟩

/-- Settles O39: with no host move a step is the engine's action, which is none while no job runs. -/
theorem noStepOutsideAJob : Obligations.NoStepOutsideAJob :=
  fun _ hb hm => ⟨by rw [step_nil hm, engineAction_idle hb, Action.outcome_settled], run_idle hb hm⟩

/-! ### InputExhausted (R341) -/

section Exhausted

variable {s t : State}

/-- ERRCODE 9 is InputExhausted's alone. -/
theorem JobError.code_eq_nine_iff (x : JobError) : x.code = 9 ↔ x = .inputExhausted := by
  cases x <;> decide

/-- The latches written part-way do not move the cursor. -/
@[simp] theorem latchPart_inPos (f : Format) (got : List Nat) (s : State) : (latchPart f got s).inPos = s.inPos := by
  unfold latchPart
  split <;> rfl

/-- STATUS after an instruction of the stream, of output or not. -/
theorem exec_status {i : Instr} (hi : ∀ w, i ≠ .hostStart w) (hx : exec i s = .next t) : StatusAfter i s t := by
  cases he : emitsOutput i with
  | true =>
    obtain ⟨-, -, hstatus⟩ := exec_output_inputs he hx
    exact hstatus
  | false =>
    obtain ⟨-, -, -, hstatus⟩ := exec_quiet he hi hx
    exact hstatus

/-- No instruction raises InputExhausted: only its fetch does. -/
theorem StatusAfter.errcode_ne_nine {i : Instr} (h : StatusAfter i s t) (hs : s.error = false) (ht : t.error = true) :
    t.errcode ≠ 9 := by
  rcases h with ⟨-, -, herr, -⟩ | ⟨-, -, -, -, x, hcode, hne⟩ | ⟨-, -, -, herr, -⟩
  · exact absurd (ht.symm.trans (herr.trans hs)) (by decide)
  · exact fun h9 => hne (x.code_eq_nine_iff.mp (hcode.symm.trans h9))
  · exact absurd (ht.symm.trans (herr.trans hs)) (by decide)

/-- An action of the engine that ends in InputExhausted has met a header of fewer than two bytes, with the cursor still at
0, or has read the region to its end. -/
theorem engineAction_inputExhausted (h : s.Inv) (hb : s.busy = true) (hx : (engineAction s).outcome = .next t)
    (ht : t.error = true) (h9 : t.errcode = 9) :
    (s.expect = .zlibHdr ∧ s.n.toNat < 2 ∧ t.inPos = 0)
    ∨ (s.expect ≠ .zlibHdr ∧ s.expect ≠ .trailer ∧ t.inPos.toNat = 8 * s.e.toNat) := by
  obtain ⟨-, herr, -⟩ := h.running hb
  rcases engineAction_cases h hb with ⟨i, p, hrun, -, ⟨-, hi⟩, -⟩ | ⟨got, p, hend, htr, hshort, hstop⟩ | ⟨p, hend, -⟩
  · rw [hrun, Action.outcome_run] at hx
    exact absurd h9 ((exec_status hi hx).errcode_ne_nine herr ht)
  · rw [hend] at hx
    cases hx
    rw [raise_inPos, latchPart_inPos]
    by_cases hz : s.expect = .zlibHdr
    · obtain ⟨hpos, hn⟩ := hshort hz
      exact .inl ⟨hz, hn, hpos.trans (h.cursor_start hb hz)⟩
    · exact .inr ⟨hz, htr, hstop hz⟩
  · rw [hend] at hx
    cases hx
    exact absurd ((JobError.code_eq_nine_iff .huffmanDecodeOutOfRange).mp h9) (by decide)

/-- At the end of the region an action of the engine that has bits to read ends in InputExhausted. -/
theorem engineAction_end_raises (h : s.Inv) (hb : s.busy = true) (hx : (engineAction s).outcome = .next t)
    (hz : s.expect ≠ .zlibHdr) (htr : s.expect ≠ .trailer) (hp : s.inPos.toNat = 8 * s.e.toNat) :
    t.error = true ∧ t.errcode = 9 := by
  obtain ⟨got, hend⟩ := engineAction_end h hb hz htr hp
  rw [hend] at hx
  cases hx
  exact ⟨rfl, rfl⟩

/-- A header of fewer than two bytes ends the job in InputExhausted. -/
theorem engineAction_short_raises (hb : s.busy = true) (hx : (engineAction s).outcome = .next t)
    (hz : s.expect = .zlibHdr) (hn : s.n.toNat < 2) : t.error = true ∧ t.errcode = 9 := by
  rw [engineAction_zlibHdr_short hb hz hn] at hx
  cases hx
  exact ⟨rfl, rfl⟩

end Exhausted

/-- Settles O38: the engine's turn is its action, which raises InputExhausted exactly where a fetch finds no bits left. -/
theorem inputExhaustedLeavesCursorAtEnd : Obligations.InputExhaustedLeavesCursorAtEnd := by
  intro s t h hb hturn hx
  obtain ⟨moves, hstep⟩ := step_engine hturn
  have hact := hstep.symm.trans hx
  have hinv := h.with_moves moves
  have hcursor := engineAction_inputExhausted hinv hb hact
  have hend := engineAction_end_raises hinv hb hact
  have hshort := engineAction_short_raises (s := { s with hostMoves := moves }) hb hact
  exact ⟨hcursor, hend, hshort⟩

end Sys2Proof.Machine
end

section
/-! Reset, and what a running job ignores of its host (70_reset_and_hazards.md R360, R361, R365). -/

namespace Sys2Proof.Machine

/-- During a job every register write is ignored, a START among them (70_reset_and_hazards.md R365). -/
theorem writeReg_busy {s : State} (hb : s.busy = true) (o : Nat) (v : Word) : (writeReg o v s).outcome = .next s := by
  by_cases ho : o = 0x00
  · subst ho
    cases hv : v.getLsbD 0 with
    | true => rw [writeReg_start hv]; exact if_pos hb
    | false => rw [writeReg_ctrl hv, if_pos hb]; rfl
  · rw [writeReg, if_neg ho, if_pos hb]
    rfl

/-- Settles O43: the access is a register write, and a running job ignores it. -/
theorem registerWritesWhileBusyAreIgnored : Obligations.RegisterWritesWhileBusyAreIgnored := by
  intro s o v rest hm hb ho h4
  rw [step_busWrite_reg hm ho h4]
  exact writeReg_busy (s := { s with hostMoves := rest }) hb o v

/-- Settles O50: no job runs, the lengths and the sums are their reset values, and the RAMs have their sizes. -/
theorem invariantAtReset : Obligations.InvariantAtReset := by
  have hsums : State.reset.sumsReduced :=
    ⟨(by decide : (1 : Half).toNat < Config.adlerMod), (by decide : (0 : Half).toNat < Config.adlerMod)⟩
  have hdata : State.reset.Data :=
    ⟨by decide, ⟨rfl, rfl, rfl⟩, ⟨rfl, rfl, rfl⟩, reset_rams, ⟨Nat.zero_le _, Nat.zero_le _⟩, hsums, rfl⟩
  exact .of_idle hdata rfl (.inl ⟨rfl, rfl, rfl, rfl, rfl⟩)

/-- A host reset is the reset of the block (70_reset_and_hazards.md R361). -/
theorem step_reset {s : State} {rest : List HostMove} (hm : s.hostMoves = .reset :: rest) :
    step s = .next (resetBlock { s with hostMoves := rest }) :=
  step_cons hm

/-- Settles O46: the registers hold their reset values, no job runs so the engine's turns change nothing, and a host
reset writes the same values. -/
theorem resetState : Obligations.ResetState := by
  have hadler : State.reset.adlerWord = 1 := rfl
  exact ⟨rfl, rfl, rfl, rfl, rfl, hadler, rfl, rfl, rfl, rfl, run_idle rfl rfl, fun s rest hm =>
    ⟨_, step_reset hm, rfl, rfl, rfl, rfl, rfl, hadler, rfl, rfl, rfl, rfl, fun _ => rfl, rfl, rfl⟩⟩

/-- An action of the engine that ends a job leaves DONE, the trailer found equal to ADLER, or an error of
60_exceptions.md R330. -/
theorem engineAction_ends {s t : State} (h : s.Inv) (hb : s.busy = true) (hx : (engineAction s).outcome = .next t)
    (hbt : t.busy = false) :
    (t.done = true ∧ t.error = false ∧ t.errcode = 0 ∧ t.fsm = .done ∧ t.trailer = t.adlerWord)
    ∨ (t.done = false ∧ t.error = true ∧ 1 ≤ t.errcode.toNat ∧ t.errcode.toNat ≤ 13 ∧ t.fsm = .error) := by
  obtain ⟨-, herr, hcode, -⟩ := h.running hb
  rcases engine_run h hb hx with ⟨i, p, -, -, -, -, -, -, hstatus, -⟩ | ⟨x, -, -, -, -, -, hd, he, hc, hf, -⟩
  · rcases hstatus with ⟨hbusy, -⟩ | ⟨-, hd, he, hf, x, hc, -⟩ | ⟨-, -, hd, he, hc, hf, htrailer⟩
    · exact absurd (hbt.symm.trans (hbusy.trans hb)) (by decide)
    · exact .inr ⟨hd, he, hc ▸ x.code_bounds.1, hc ▸ x.code_bounds.2, hf⟩
    · exact .inl ⟨hd, he.trans herr, hc.trans hcode, hf, htrailer⟩
  · exact .inr ⟨hd, he, hc ▸ x.code_bounds.1, hc ▸ x.code_bounds.2, hf⟩

/-- Settles O57: in a step that is no reset the engine's action ends the job, for the host's other moves keep BUSY. -/
theorem jobsEndOnlyInDoneErrorOrReset : Obligations.JobsEndOnlyInDoneErrorOrReset := by
  intro s t h hx hb hbt
  by_cases hreset : ∃ rest, s.hostMoves = .reset :: rest
  · exact .inr (.inr hreset)
  · rcases step_busy h hb hx (not_exists.mp hreset) with ⟨moves, hi, he⟩ | ⟨moves, ht⟩
    · exact (engineAction_ends hi hb he hbt).imp_right .inl
    · rw [ht] at hbt
      exact absurd (hbt.symm.trans hb) (by decide)

end Sys2Proof.Machine
end

section
/-! Nothing a job computes influences the next one (70_reset_and_hazards.md R362): two runs of one job agree, at every
step, in what the job reads, in its results, and in the latches and tables that are live at its control point. What
else their states hold is never read before the job has written it. -/

namespace Sys2Proof.Machine

/-! ### Two runs of one job -/

/-- What a job rests on at every control point: its inputs, its position and its results but for OUT. All else is
erased. -/
def State.shared (s : State) : State :=
  { State.reset with
    busy := s.busy
    done := s.done
    error := s.error
    errcode := s.errcode
    outLen := s.outLen
    adlerA := s.adlerA
    adlerB := s.adlerB
    trailer := s.trailer
    inPos := s.inPos
    fsm := s.fsm
    n := s.n
    cap := s.cap
    align := s.align
    e := s.e
    wp := s.wp
    inMem := s.inMem
    expect := s.expect }

/-- Two tables that decode every input alike: the entries past the coded symbols may differ (41_huffman.md R145). -/
def Huff.DecodesAs (t u : Huff) : Prop := ∀ r, decodeSym t r = decodeSym u r

/-- The body of a block is coded alike: `bfinal` and the tables in use (42_block_dispatch.md R176, R180, R192). -/
def State.SameBody (s t : State) : Prop := s.bfinal = t.bfinal ∧ s.lt.DecodesAs t.lt ∧ s.dt.DecodesAs t.dt

/-- The latches and tables that are live at a control point: those the instructions from there on may read before they
write them. -/
def State.LiveAgree (s t : State) : Expect → Prop
  | .zlibHdr => True
  | .blkHdr => True
  | .storedLen => s.bfinal = t.bfinal
  | .storedByte => s.bfinal = t.bfinal ∧ s.storedLeft = t.storedLeft
  | .dynHdr => s.bfinal = t.bfinal
  | .clCodelen => s.bfinal = t.bfinal ∧ s.hlit = t.hlit ∧ s.hdist = t.hdist ∧ s.lens = t.lens
      ∧ s.hclen = t.hclen ∧ s.clIndex = t.clIndex ∧ s.clLens = t.clLens
  | .clSym => s.bfinal = t.bfinal ∧ s.hlit = t.hlit ∧ s.hdist = t.hdist ∧ s.lens = t.lens
      ∧ s.num = t.num ∧ s.clT.code.DecodesAs t.clT.code
  | .litLen => s.SameBody t
  | .dist => s.SameBody t ∧ s.length = t.length
  | .trailer => True

/-- Two states of one job, or of its result. -/
structure State.SameJob (s t : State) : Prop where
  shared : s.shared = t.shared
  output : s.output = t.output
  live : s.busy = true → s.LiveAgree t s.expect

/-- Two meanings that answer two states of one job. -/
def SameAnswer (o o' : Outcome) : Prop := ∃ s t, o = .next s ∧ o' = .next t ∧ s.SameJob t

section SameJob

variable {s t : State}

/-- The host sees the same of both. -/
theorem State.SameJob.observed (h : s.SameJob t) : s.observed = t.observed := by
  have hs : ∀ u : State, u.observed = { u.shared.observed with output := u.output } := fun _ => rfl
  rw [hs s, hs t, h.shared, h.output]

theorem State.SameJob.outLen (h : s.SameJob t) : s.outLen = t.outLen := (congrArg State.outLen h.shared :)
theorem State.SameJob.wp (h : s.SameJob t) : s.wp = t.wp := (congrArg State.wp h.shared :)
theorem State.SameJob.cap (h : s.SameJob t) : s.cap = t.cap := (congrArg State.cap h.shared :)
theorem State.SameJob.busy (h : s.SameJob t) : s.busy = t.busy := (congrArg State.busy h.shared :)
theorem State.SameJob.expect (h : s.SameJob t) : s.expect = t.expect := (congrArg State.expect h.shared :)
theorem State.SameJob.reader (h : s.SameJob t) : s.reader = t.reader := (congrArg State.reader h.shared :)
theorem State.SameJob.adlerA (h : s.SameJob t) : s.adlerA = t.adlerA := (congrArg State.adlerA h.shared :)
theorem State.SameJob.adlerB (h : s.SameJob t) : s.adlerB = t.adlerB := (congrArg State.adlerB h.shared :)
theorem State.SameJob.adlerWord (h : s.SameJob t) : s.adlerWord = t.adlerWord := (congrArg State.adlerWord h.shared :)

/-- The bytes emitted so far agree. -/
theorem State.SameJob.read_eq (h : s.SameJob t) {a : Nat} (ha : a < s.outLen.toNat) :
    s.outMem.read a = t.outMem.read a := by
  have hout := h.output
  rw [State.output, State.output, ← h.outLen] at hout
  exact List.map_inj_left.mp hout a (List.mem_range.mpr ha)

/-- There is room for a byte in both or in neither. -/
theorem State.SameJob.room_iff (h : s.SameJob t) : s.outLen.toNat < s.cap.toNat ↔ t.outLen.toNat < t.cap.toNat := by
  rw [h.outLen, h.cap]

/-- An error ends both jobs alike. -/
theorem State.SameJob.of_raise (x : JobError) (hs : s.shared = t.shared) (ho : s.output = t.output) :
    (raise x s).SameJob (raise x t) :=
  ⟨(congrArg (fun u => (raise x u).shared) hs :), ho, fun hb => nomatch hb⟩

/-- The cursor moved to the same place. -/
theorem State.SameJob.with_inPos (h : s.SameJob t) (p : Word) :
    State.SameJob { s with inPos := p } { t with inPos := p } :=
  ⟨congrArg (fun u => { u with inPos := p }) h.shared, h.output, h.live⟩

/-- The end of a block's body: whether the trailer follows is `bfinal`'s. -/
theorem State.SameJob.of_endOfBody (hs : s.shared = t.shared) (ho : s.output = t.output) (hf : s.bfinal = t.bfinal) :
    (endOfBody s).SameJob (endOfBody t) := by
  cases hfinal : s.bfinal with
  | true =>
    rw [endOfBody_final hfinal, endOfBody_final (hf.symm.trans hfinal)]
    exact ⟨congrArg (fun u => { u with fsm := .trailer, expect := .trailer }) hs, ho, fun _ => trivial⟩
  | false =>
    rw [endOfBody_more hfinal, endOfBody_more (hf.symm.trans hfinal)]
    exact ⟨congrArg (fun u => { u with fsm := .blockHeader, expect := .blkHdr }) hs, ho, fun _ => trivial⟩

/-- What output leaves of the shared part. -/
theorem State.sameButOutput.shared (h : State.sameButOutput s t) :
    t.shared = { s.shared with wp := t.wp, outLen := t.outLen, adlerA := t.adlerA, adlerB := t.adlerB } := by
  rw [h]
  rfl

/-- The same bytes appended to both. -/
theorem State.SameJob.of_appended {s' t' : State} {bs : List Byte} (hs : State.sameButOutput s s')
    (ht : State.sameButOutput t t') (has : s.appended s' bs) (hat : t.appended t' bs) (h : s.SameJob t) :
    s'.SameJob t' := by
  have hout : s'.output = t'.output := by
    rw [State.output_appended has, State.output_appended hat, h.output]
  obtain ⟨slen, swp, -, -, -, -, ssums⟩ := has
  obtain ⟨tlen, twp, -, -, -, -, tsums⟩ := hat
  have hlen : s'.outLen = t'.outLen := BitVec.eq_of_toNat_eq (by rw [slen, tlen, h.outLen])
  have hwp : s'.wp = t'.wp := BitVec.eq_of_toNat_eq (by rw [swp, twp, h.wp])
  have hsums : (s'.adlerA.toNat, s'.adlerB.toNat) = (t'.adlerA.toNat, t'.adlerB.toNat) := by
    rw [ssums, tsums, h.adlerA, h.adlerB]
  obtain ⟨ha, hb⟩ := Prod.mk.inj hsums
  refine ⟨?_, hout, fun hbusy => ?_⟩
  · rw [hs.shared, ht.shared, h.shared, hlen, hwp, BitVec.eq_of_toNat_eq ha, BitVec.eq_of_toNat_eq hb]
  · have hlive := h.live ((sameButOutput_busy hs).symm.trans hbusy)
    rw [hs, ht]
    exact hlive

end SameJob

/-! ### The decoder -/

/-- Tables built from the same lengths decode alike, whatever they held before. -/
theorem buildTable_decodesAs {old old' : HuffTable} {lengths : List Nat} {cap : Nat} (h : ∀ l ∈ lengths, l ≤ 15)
    (ho : old.symbols.length = cap) (ho' : old'.symbols.length = cap) (hn : lengths.length ≤ cap) (hcap : cap ≤ 288) :
    (buildTable old lengths).code.DecodesAs (buildTable old' lengths).code := by
  refine fun r => decodeSym_congr ?_ ?_
  · rw [buildTable_counts h (hn.trans hcap), buildTable_counts h (hn.trans hcap)]
  · rw [buildTable_coded h (hn.trans hcap), buildTable_code_symbols h (hn.trans ho.ge) (ho.trans_le hcap),
      buildTable_code_symbols h (hn.trans ho'.ge) (ho'.trans_le hcap)]

theorem Huff.DecodesAs.decodeCoded {t u : Huff} (h : t.DecodesAs u) (instr : Nat → Reader → DecodeResult)
    (r : Reader) : decodeCoded t instr r = decodeCoded u instr r := by
  rw [Sys2Proof.decodeCoded, h r, Sys2Proof.decodeCoded]

/-- Both jobs fetch the same. -/
theorem State.SameJob.decode_eq {s t : State} (h : s.SameJob t) (hb : s.busy = true) :
    decode s.format s.reader = decode t.format t.reader := by
  have hlive := h.live hb
  have halign : s.align = t.align := (congrArg State.align h.shared :)
  rw [State.format, State.format, ← h.expect, ← h.reader]
  cases he : s.expect <;> rw [he] at hlive
  case storedLen => rw [halign]
  case clSym =>
    obtain ⟨-, -, -, -, hnum, hcl⟩ := hlive
    rw [hnum]
    exact hcl.decodeCoded _ _
  case litLen =>
    obtain ⟨-, hlt, -⟩ := hlive
    exact hlt.decodeCoded _ _
  case dist =>
    obtain ⟨⟨-, -, hdt⟩, -⟩ := hlive
    exact hdt.decodeCoded _ _

/-! ### The instructions of a coded row -/

/-- A code-length symbol is one length or a repeat (30_encoding.md R97). -/
theorem row_clSym {i : Instr} (h : i.parts.row = .clSym) :
    (∃ sym, i = .clLen sym) ∨ (∃ e, i = .clRepPrev e) ∨ (∃ e, i = .clRepZero3 e) ∨ ∃ e, i = .clRepZero11 e := by
  cases i
  case clLen sym => exact .inl ⟨sym, rfl⟩
  case clRepPrev e => exact .inr (.inl ⟨e, rfl⟩)
  case clRepZero3 e => exact .inr (.inr (.inl ⟨e, rfl⟩))
  case clRepZero11 e => exact .inr (.inr (.inr ⟨e, rfl⟩))
  all_goals exact nomatch h

/-- A literal/length symbol is a literal, the end of the block, a reserved symbol or a length code (30_encoding.md
R98). -/
theorem row_litLen {i : Instr} (h : i.parts.row = .litLen) :
    (∃ v, i = .lit v) ∨ i = .eob ∨ (∃ sym, i = .llReserved sym) ∨ ∃ n, matchLength i = some n := by
  cases i
  case lit v => exact .inl ⟨v, rfl⟩
  case eob => exact .inr (.inl rfl)
  case llReserved sym => exact .inr (.inr (.inl ⟨sym, rfl⟩))
  all_goals first
    | exact .inr (.inr (.inr ⟨_, rfl⟩))
    | exact nomatch h

/-- A distance symbol is a reserved symbol or a distance code (30_encoding.md R99). -/
theorem row_dist {i : Instr} (h : i.parts.row = .dist) :
    (∃ sym, i = .distReserved sym) ∨ ∃ d, matchDistance i = some d := by
  cases i
  case distReserved sym => exact .inl ⟨sym, rfl⟩
  all_goals first
    | exact .inr ⟨_, rfl⟩
    | exact nomatch h

/-! ### The code-length loop -/

section CodeLengths

variable {s t : State} (hlive : s.LiveAgree t .clSym)
include hlive

/-- A write of code lengths leaves the same entries in both (R185 to R188). -/
theorem writeLens_liveAgree (rep : Nat) (v : BitVec 4) : (writeLens rep v s).LiveAgree (writeLens rep v t) .clSym := by
  obtain ⟨hf, hhlit, hhdist, hlens, hnum, hcl⟩ := hlive
  refine ⟨hf, hhlit, hhdist, ?_, ?_, hcl⟩
  · rw [writeLens, writeLens, hlens, hnum]
  · rw [writeLens, writeLens, hnum]

theorem lensTotal_eq : s.lensTotal = t.lensTotal := by
  obtain ⟨-, hhlit, hhdist, -⟩ := hlive
  rw [State.lensTotal, State.lensTotal, hhlit, hhdist]

variable (hshared : s.shared = t.shared) (hout : s.output = t.output) (hc : s.countsLegal)
  (hs : s.litT.sized 288 288 ∧ s.distT.sized 288 32) (ht : t.litT.sized 288 288 ∧ t.distT.sized 288 32)
include hshared hout hc hs ht

/-- The test of the code-length loop; at its end both jobs build their tables from the same lengths (R184, R191,
R192). -/
theorem nextClSym_sameJob : (nextClSym s).SameJob (nextClSym t) := by
  have htotal := lensTotal_eq hlive
  obtain ⟨hf, hhlit, hhdist, hlens, hnum, hcl⟩ := hlive
  by_cases hmore : s.num.toNat < s.lensTotal
  · rw [nextClSym, nextClSym, if_pos hmore, if_pos (by rw [← hnum, ← htotal]; exact hmore)]
    exact ⟨congrArg (fun u => { u with expect := .clSym }) hshared, hout,
      fun _ => ⟨hf, hhlit, hhdist, hlens, hnum, hcl⟩⟩
  · rw [nextClSym, nextClSym, if_neg hmore, if_neg (by rw [← hnum, ← htotal]; exact hmore)]
    obtain ⟨-, hhlit_le, -, hhdist_le, -, -⟩ := hc
    obtain ⟨⟨-, hlit, -⟩, -, hdist, -⟩ := hs
    obtain ⟨⟨-, hlit', -⟩, -, hdist', -⟩ := ht
    refine ⟨congrArg (fun u => { u with fsm := .dynamic, expect := .litLen }) hshared, hout, fun _ => ⟨hf, ?_, ?_⟩⟩
    · show (buildTable _ _).code.DecodesAs (buildTable _ _).code
      rw [← hlens, ← hhlit]
      exact buildTable_decodesAs lens_le hlit hlit' (by rw [List.length_map, List.length_take]; omega) le_rfl
    · show (buildTable _ _).code.DecodesAs (buildTable _ _).code
      rw [← hlens, ← hhlit, ← hhdist]
      exact buildTable_decodesAs lens_le hdist hdist' (by rw [List.length_map, List.length_take]; omega) le_rfl

/-- One code length, or a repeat that fits, written in both. -/
theorem writeLens_sameJob (rep : Nat) (v : BitVec 4) :
    (nextClSym (writeLens rep v s)).SameJob (nextClSym (writeLens rep v t)) :=
  nextClSym_sameJob (writeLens_liveAgree hlive rep v) hshared hout hc hs ht

/-- A repeat of a code length overruns in both or is written in both (R186 to R189). -/
theorem repeatLens_sameJob (rep : Nat) (v : BitVec 4) :
    SameAnswer (repeatLens rep v s).outcome (repeatLens rep v t).outcome := by
  have hwrite := writeLens_sameJob hlive hshared hout hc hs ht rep v
  have htotal := lensTotal_eq hlive
  obtain ⟨-, -, -, -, hnum, -⟩ := hlive
  by_cases hover : s.lensTotal < s.num.toNat + rep
  · rw [repeatLens, repeatLens, if_pos hover, if_pos (by rw [← htotal, ← hnum]; exact hover)]
    exact ⟨_, _, rfl, rfl, .of_raise .codeLengthOverrun hshared hout⟩
  · rw [repeatLens, repeatLens, if_neg hover, if_neg (by rw [← htotal, ← hnum]; exact hover)]
    exact ⟨_, _, rfl, rfl, hwrite⟩

end CodeLengths

/-! ### The instructions, by control point -/

section Exec

variable {s t : State} {i : Instr} (h : s.SameJob t)
include h

/-- ZLIB_HDR: both headers pass or fail the same check (R302 to R308). -/
theorem exec_zlibHdr_sameJob (cmf flg : BitVec 8) :
    SameAnswer (exec (.zlibHdr cmf flg) s) (exec (.zlibHdr cmf flg) t) := by
  cases hc : headerCheck cmf flg with
  | some x => exact ⟨_, _, exec_zlibHdr_rejected hc, exec_zlibHdr_rejected hc, .of_raise x h.shared h.output⟩
  | none =>
    refine ⟨_, _, exec_zlibHdr_accepted hc, exec_zlibHdr_accepted hc, ?_, h.output, fun _ => trivial⟩
    exact congrArg (fun u => { u with inPos := 16, fsm := .blockHeader, expect := .blkHdr }) h.shared

/-- A block header latches `bfinal`, and BLK_FIXED selects the constant tables (R171 to R175). -/
theorem exec_blkHdr_sameJob (hrow : i.parts.row = .blkHdr) : SameAnswer (exec i s) (exec i t) := by
  cases i
  case blkStored f =>
    refine ⟨_, _, rfl, rfl, ?_, h.output, fun _ => rfl⟩
    exact congrArg (fun u => { u with fsm := .stored, expect := .storedLen }) h.shared
  case blkFixed f =>
    refine ⟨_, _, rfl, rfl, ?_, h.output, fun _ => ⟨rfl, fun _ => rfl, fun _ => rfl⟩⟩
    exact congrArg (fun u => { u with fsm := .fixed, expect := .litLen }) h.shared
  case blkDynamic f =>
    refine ⟨_, _, rfl, rfl, ?_, h.output, fun _ => rfl⟩
    exact congrArg (fun u => { u with fsm := .dynamicHeader, expect := .dynHdr }) h.shared
  case blkReserved f => exact ⟨_, _, rfl, rfl, .of_raise .invalidBlockType h.shared h.output⟩
  all_goals exact nomatch hrow

/-- STORED_LEN: its operands alone decide (R178). -/
theorem exec_storedLen_sameJob (hf : s.bfinal = t.bfinal) (len nlen : BitVec 16) :
    SameAnswer (exec (.storedLen len nlen) s) (exec (.storedLen len nlen) t) := by
  by_cases hlen : nlen.toNat = 0xFFFF - len.toNat
  · by_cases h0 : len = 0
    · exact ⟨_, _, exec_storedLen_empty hlen h0, exec_storedLen_empty hlen h0, .of_endOfBody h.shared h.output hf⟩
    · refine ⟨_, _, exec_storedLen_data hlen h0, exec_storedLen_data hlen h0, ?_, h.output, fun _ => ⟨hf, rfl⟩⟩
      exact congrArg (fun u => { u with expect := .storedByte }) h.shared
  · exact ⟨_, _, exec_storedLen_mismatch hlen, exec_storedLen_mismatch hlen, .of_raise _ h.shared h.output⟩

/-- DYN_HDR clears the arrays and latches the counts (R181). -/
theorem exec_dynHdr_sameJob (hf : s.bfinal = t.bfinal) (hlit hdist : BitVec 5) (hclen : BitVec 4) :
    SameAnswer (exec (.dynHdr hlit hdist hclen) s) (exec (.dynHdr hlit hdist hclen) t) := by
  refine ⟨_, _, rfl, rfl, ?_, h.output, fun _ => ⟨hf, rfl, rfl, rfl, rfl, rfl, rfl⟩⟩
  exact congrArg (fun u => { u with expect := .clCodelen }) h.shared

/-- ADLER_TRAILER compares with the checksum of the output (R312 to R314). -/
theorem exec_adlerTrailer_sameJob (T : Word) : SameAnswer (exec (.adlerTrailer T) s) (exec (.adlerTrailer T) t) := by
  by_cases hT : T = s.adlerWord
  · refine ⟨_, _, exec_adlerTrailer_match hT, exec_adlerTrailer_match (hT.trans h.adlerWord), ?_, h.output, nofun⟩
    exact congrArg (fun u => { u with trailer := T, busy := false, done := true, fsm := .done }) h.shared
  · refine ⟨_, _, exec_adlerTrailer_mismatch hT, exec_adlerTrailer_mismatch (h.adlerWord ▸ hT), .of_raise _ ?_ h.output⟩
    exact congrArg (fun u => { u with trailer := T }) h.shared

/-- CL_CODELEN places one code-length code length; after the last both jobs build `CL_T` from the same lengths (R182,
R183). -/
theorem exec_clCodelen_sameJob (he : s.expect = .clCodelen) (hlive : s.LiveAgree t .clCodelen) (hs : s.ramsSized)
    (ht : t.ramsSized) (v : BitVec 3) : SameAnswer (exec (.clCodelen v) s) (exec (.clCodelen v) t) := by
  obtain ⟨hf, hhlit, hhdist, hlens, hhclen, hidx, hcl⟩ := hlive
  have hset : s.clLens.set (clOrder.getD s.clIndex Config.clN) v
      = t.clLens.set (clOrder.getD t.clIndex Config.clN) v := by
    rw [hcl, hidx]
  by_cases hmore : s.clIndex + 1 < s.hclen.toNat
  · refine ⟨_, _, if_pos hmore, if_pos (by rw [← hidx, ← hhclen]; exact hmore), h.shared, h.output, fun _ => ?_⟩
    show State.LiveAgree _ _ s.expect
    rw [he]
    exact ⟨hf, hhlit, hhdist, hlens, hhclen, congrArg (· + 1) hidx, hset⟩
  · obtain ⟨⟨-, hcap, -⟩, -, -, hlen, -⟩ := hs
    obtain ⟨⟨-, hcap', -⟩, -⟩ := ht
    refine ⟨_, _, if_neg hmore, if_neg (by rw [← hidx, ← hhclen]; exact hmore), ?_, h.output,
      fun _ => ⟨hf, hhlit, hhdist, hlens, rfl, ?_⟩⟩
    · exact congrArg (fun u => { u with expect := .clSym }) h.shared
    · show (buildTable _ _).code.DecodesAs (buildTable _ _).code
      rw [← hset]
      exact buildTable_decodesAs clLens_le hcap hcap' (by rw [List.length_map, List.length_set, hlen]) (by decide)

/-- A code-length symbol: one length, or a repeat of the length before, or of zero (R185 to R188). -/
theorem exec_clSym_sameJob (hlive : s.LiveAgree t .clSym) (hs : s.ramsSized) (ht : t.ramsSized) (hc : s.countsLegal)
    (hrow : i.parts.row = .clSym) : SameAnswer (exec i s) (exec i t) := by
  obtain ⟨-, hlit, hdist, -⟩ := hs
  obtain ⟨-, hlit', hdist', -⟩ := ht
  have hrep := repeatLens_sameJob hlive h.shared h.output hc ⟨hlit, hdist⟩ ⟨hlit', hdist'⟩
  rcases row_clSym hrow with ⟨sym, rfl⟩ | ⟨e, rfl⟩ | ⟨e, rfl⟩ | ⟨e, rfl⟩
  · exact ⟨_, _, rfl, rfl, writeLens_sameJob hlive h.shared h.output hc ⟨hlit, hdist⟩ ⟨hlit', hdist'⟩ 1 sym⟩
  · obtain ⟨-, -, -, hlens, hnum, -⟩ := hlive
    by_cases h0 : s.num = 0
    · exact ⟨_, _, exec_clRepPrev_first h0, exec_clRepPrev_first (hnum.symm.trans h0), .of_raise _ h.shared h.output⟩
    · rw [exec_clRepPrev_repeats h0, exec_clRepPrev_repeats (hnum ▸ h0), ← hlens, ← hnum]
      exact hrep _ _
  · exact hrep _ _
  · exact hrep _ _

/-- STORED_BYTE: with room both emit the byte, and the last byte ends both bodies (R179). -/
theorem exec_storedByte_sameJob (he : s.expect = .storedByte) (hlive : s.LiveAgree t .storedByte)
    (hs : s.memoriesCanonical) (ht : t.memoriesCanonical) (v : BitVec 8) :
    SameAnswer (exec (.storedByte v) s) (exec (.storedByte v) t) := by
  obtain ⟨hf, hleft⟩ := hlive
  obtain ⟨-, wfOut, wfWin⟩ := hs
  obtain ⟨-, wfOut', wfWin'⟩ := ht
  rcases Nat.lt_or_ge s.outLen.toNat s.cap.toNat with hroom | hfull
  · have hroom' := h.room_iff.mp hroom
    obtain ⟨s', hs', has, hmore, hfinal, hlast⟩ := (storedByteIsEmitted v s wfOut wfWin).1 hroom
    obtain ⟨t', ht', hat, hmore', hfinal', hlast'⟩ := (storedByteIsEmitted v t wfOut' wfWin').1 hroom'
    refine ⟨s', t', hs', ht', ?_⟩
    rcases Nat.lt_or_ge 1 s.storedLeft with h2 | h1
    · refine .of_appended (hmore h2) (hmore' (hleft ▸ h2)) has hat ⟨h.shared, h.output, fun _ => ?_⟩
      show State.LiveAgree _ _ s.expect
      rw [he]
      exact ⟨hf, congrArg (· - 1) hleft⟩
    · have h1' : t.storedLeft ≤ 1 := hleft ▸ h1
      cases hb : s.bfinal with
      | true =>
        refine .of_appended (hfinal h1 hb) (hfinal' h1' (hf ▸ hb)) has hat ⟨?_, h.output, fun _ => trivial⟩
        exact congrArg (fun u => { u with fsm := .trailer, expect := .trailer }) h.shared
      | false =>
        refine .of_appended (hlast h1 hb) (hlast' h1' (hf ▸ hb)) has hat ⟨?_, h.output, fun _ => trivial⟩
        exact congrArg (fun u => { u with fsm := .blockHeader, expect := .blkHdr }) h.shared
  · have hfull' := Nat.not_lt.mp (mt h.room_iff.mpr (Nat.not_lt.mpr hfull))
    exact ⟨_, _, exec_storedByte_full hfull, exec_storedByte_full hfull', .of_raise _ h.shared h.output⟩

/-- A literal/length symbol: a literal emits its byte in both, EOB ends both bodies, a length code latches its length
(R211 to R214, R244). -/
theorem exec_litLen_sameJob (hbody : s.SameBody t) (hs : s.memoriesCanonical) (ht : t.memoriesCanonical)
    (hrow : i.parts.row = .litLen) : SameAnswer (exec i s) (exec i t) := by
  have hnext : State.SameJob { s with expect := .litLen } { t with expect := .litLen } :=
    ⟨congrArg (fun u => { u with expect := .litLen }) h.shared, h.output, fun _ => hbody⟩
  rcases row_litLen hrow with ⟨v, rfl⟩ | rfl | ⟨sym, rfl⟩ | ⟨n, hn⟩
  · obtain ⟨-, wfOut, wfWin⟩ := hs
    obtain ⟨-, wfOut', wfWin'⟩ := ht
    rcases Nat.lt_or_ge s.outLen.toNat s.cap.toNat with hroom | hfull
    · have hroom' := h.room_iff.mp hroom
      obtain ⟨s', hs', has, hsame, -⟩ := (literalIsEmitted.2 v s wfOut wfWin).1 hroom
      obtain ⟨t', ht', hat, hsame', -⟩ := (literalIsEmitted.2 v t wfOut' wfWin').1 hroom'
      exact ⟨s', t', hs', ht', hnext.of_appended hsame hsame' has hat⟩
    · have hfull' := Nat.not_lt.mp (mt h.room_iff.mpr (Nat.not_lt.mpr hfull))
      exact ⟨_, _, exec_lit_full hfull, exec_lit_full hfull', .of_raise _ h.shared h.output⟩
  · exact ⟨_, _, rfl, rfl, .of_endOfBody h.shared h.output hbody.1⟩
  · exact ⟨_, _, rfl, rfl, .of_raise .huffmanDecodeOutOfRange h.shared h.output⟩
  · refine ⟨_, _, exec_length hn s, exec_length hn t, ?_, h.output, fun _ => ⟨hbody, rfl⟩⟩
    exact congrArg (fun u => { u with expect := .dist }) h.shared

/-- The bytes a match replays are earlier output, whatever older bytes the windows hold (R277, R278). -/
theorem State.SameJob.replay_eq (hs : s.windowMirrors) (ht : t.windowMirrors) (hlen : s.length = t.length) {d : Nat}
    (h1 : 1 ≤ d) (hmax : d ≤ 32768) (hnear : d ≤ s.outLen.toNat) : s.replay d = t.replay d := by
  have hsize : ∀ u : State, (u.replay d).length = u.length.toNat := fun u => replayBytes_length u d _
  refine List.ext_getElem (by rw [hsize, hsize, hlen]) fun k hk hk' => ?_
  have hmod : k % d < d := Nat.mod_lt _ h1
  rw [← List.getD_eq_getElem _ 0 hk, ← List.getD_eq_getElem _ 0 hk',
    hs.replay_getD h1 hmax hnear (by rw [← hsize]; exact hk),
    ht.replay_getD h1 hmax (by rw [← h.outLen]; exact hnear) (by rw [← hsize]; exact hk'), ← h.outLen]
  exact h.read_eq (by omega)

/-- A distance symbol: the match is too far back for both, overflows both, or replays the same bytes (R275 to R277). -/
theorem exec_dist_sameJob (hlive : s.LiveAgree t .dist) (hs : s.memoriesCanonical) (ht : t.memoriesCanonical)
    (ms : s.windowMirrors) (mt : t.windowMirrors) (hle : s.outLen.toNat ≤ s.cap.toNat) (hrow : i.parts.row = .dist) :
    SameAnswer (exec i s) (exec i t) := by
  obtain ⟨hbody, hlen⟩ := hlive
  obtain ⟨-, wfOut, wfWin⟩ := hs
  obtain ⟨-, wfOut', wfWin'⟩ := ht
  rcases row_dist hrow with ⟨sym, rfl⟩ | ⟨d, hd⟩
  · exact ⟨_, _, rfl, rfl, .of_raise .huffmanDecodeOutOfRange h.shared h.output⟩
  · obtain ⟨h1, hmax, hexec⟩ := matchDistance_bounds hd
    rw [hexec, hexec]
    rcases Nat.lt_or_ge s.outLen.toNat d with hfar | hnear
    · exact ⟨_, _, distanceStep_far (by omega) hfar, distanceStep_far (by omega) (h.outLen ▸ hfar),
        .of_raise _ h.shared h.output⟩
    · have hreplay := h.replay_eq ms mt hlen h1 hmax hnear
      have hnear' : d ≤ t.outLen.toNat := h.outLen ▸ hnear
      rcases Nat.lt_or_ge s.cap.toNat (s.outLen.toNat + s.length.toNat) with hfull | hroom
      · obtain ⟨s', hs', -, has, hsame⟩ := distanceStep_full h1 hmax wfOut wfWin hnear hle hfull
        rw [h.outLen, h.cap] at hle
        rw [h.outLen, h.cap, hlen] at hfull
        obtain ⟨t', ht', -, hat, hsame'⟩ := distanceStep_full h1 hmax wfOut' wfWin' hnear' hle hfull
        rw [hreplay, h.outLen, h.cap] at has
        exact ⟨s', t', hs', ht', State.SameJob.of_appended hsame hsame' has hat (.of_raise _ h.shared h.output)⟩
      · obtain ⟨s', hs', has, hsame⟩ := distanceStep_room h1 hmax wfOut wfWin hnear hroom
        rw [h.outLen, h.cap, hlen] at hroom
        obtain ⟨t', ht', hat, hsame'⟩ := distanceStep_room h1 hmax wfOut' wfWin' hnear' hroom
        rw [hreplay] at has
        refine ⟨s', t', hs', ht', State.SameJob.of_appended hsame hsame' has hat ⟨?_, h.output, fun _ => hbody⟩⟩
        exact congrArg (fun u => { u with expect := .litLen }) h.shared

end Exec

/-! ### A step of both jobs -/

/-- The latches written part-way are none of the shared part. -/
theorem latchPart_shared (f : Format) (got : List Nat) (s : State) : (latchPart f got s).shared = s.shared := by
  unfold latchPart
  split <;> rfl

theorem latchPart_output (f : Format) (got : List Nat) (s : State) : (latchPart f got s).output = s.output := by
  unfold latchPart
  split <;> rfl

/-- What each of the two runs keeps by itself: the invariant, the window as a mirror of the output, and a silent
host. -/
structure State.RunsAlone (s : State) : Prop where
  inv : s.Inv
  mirrors : s.windowMirrors
  moves : s.hostMoves = []

/-- An action of the engine keeps it. -/
theorem State.RunsAlone.of_engineAction {s t : State} (h : s.RunsAlone) (hb : s.busy = true)
    (hx : (engineAction s).outcome = .next t) : t.RunsAlone := by
  obtain ⟨hsame, -⟩ := engine_appends_fitting h.inv hb hx
  obtain ⟨bs, happ, hlen⟩ := engine_appends h.inv hb hx
  exact ⟨engineAction_inv h.inv hx, State.mirrors_appended happ (by omega) h.inv.pointer h.mirrors,
    hsame.hostMoves.trans h.moves⟩

section Step

variable {s t : State} (h : s.SameJob t) (hs : s.RunsAlone) (ht : t.RunsAlone)
include h hs ht

section Busy

variable (hb : s.busy = true)
include hb

/-- The instruction both jobs have fetched, at the control point of both. -/
theorem exec_sameJob {i : Instr} (hrow : i.parts.row = s.format.row) (p : Word) :
    SameAnswer (exec i { s with inPos := p }) (exec i { t with inPos := p }) := by
  have hlive := h.live hb
  have hcontrol := hs.inv.control hb
  have hp := h.with_inPos p
  unfold State.controlLegal at hcontrol
  unfold State.format at hrow
  obtain ⟨c, he⟩ : ∃ c, s.expect = c := ⟨_, rfl⟩
  rw [he] at hlive hcontrol hrow
  cases c
  case zlibHdr =>
    obtain ⟨cmf, flg, rfl⟩ := row_zlibHdr hrow
    exact exec_zlibHdr_sameJob hp cmf flg
  case blkHdr => exact exec_blkHdr_sameJob hp hrow
  case storedLen =>
    obtain ⟨len, nlen, rfl⟩ := row_storedLen hrow
    exact exec_storedLen_sameJob hp hlive len nlen
  case storedByte =>
    obtain ⟨v, rfl⟩ := row_storedByte hrow
    exact exec_storedByte_sameJob hp he hlive hs.inv.canonical ht.inv.canonical v
  case dynHdr =>
    obtain ⟨hlit, hdist, hclen, rfl⟩ := row_dynHdr hrow
    exact exec_dynHdr_sameJob hp hlive hlit hdist hclen
  case clCodelen =>
    obtain ⟨v, rfl⟩ := row_clCodelen hrow
    exact exec_clCodelen_sameJob hp he hlive hs.inv.rams ht.inv.rams v
  case clSym =>
    obtain ⟨-, hcounts, -⟩ := hcontrol
    exact exec_clSym_sameJob hp hlive hs.inv.rams ht.inv.rams hcounts hrow
  case litLen => exact exec_litLen_sameJob hp hlive hs.inv.canonical ht.inv.canonical hrow
  case dist =>
    obtain ⟨-, -, -, -, hle⟩ := hs.inv.latches hb
    exact exec_dist_sameJob hp hlive hs.inv.canonical ht.inv.canonical hs.mirrors ht.mirrors hle hrow
  case trailer =>
    obtain ⟨T, rfl⟩ := row_trailer hrow
    exact exec_adlerTrailer_sameJob hp T

/-- Both engines take the same action: they run the instruction both fetched, or raise the same error where reading
stopped. -/
theorem engineAction_sameJob : SameAnswer (engineAction s).outcome (engineAction t).outcome := by
  have hbt : t.busy = true := h.busy.symm.trans hb
  have hdec := h.decode_eq hb
  cases hd : decode s.format s.reader with
  | ok i r =>
    rw [engineAction_ok hb hd, engineAction_ok hbt (hdec.symm.trans hd)]
    exact exec_sameJob h hs ht hb (decode_row hd).1 r.pos
  | exhausted got r =>
    rw [engineAction_exhausted hb hd, engineAction_exhausted hbt (hdec.symm.trans hd)]
    refine ⟨_, _, rfl, rfl, .of_raise .inputExhausted ?_ ?_⟩
    · rw [latchPart_shared, latchPart_shared]
      exact (h.with_inPos r.pos).shared
    · rw [latchPart_output, latchPart_output]
      exact h.output
  | noCode r =>
    rw [engineAction_noCode hb hd, engineAction_noCode hbt (hdec.symm.trans hd)]
    exact ⟨_, _, rfl, rfl, .of_raise .huffmanDecodeOutOfRange (h.with_inPos r.pos).shared h.output⟩
  | noClSymbol r => exact absurd hd (decode_ne_noClSymbol hs.inv hb)

end Busy

/-- The two jobs stay two runs of one job, and show the same at every step. -/
theorem run_sameJob (k : Nat) :
    ∃ u v, core.run k s = .next u ∧ core.run k t = .next v ∧ u.observed = v.observed := by
  induction k generalizing s t with
  | zero => exact ⟨s, t, rfl, rfl, h.observed⟩
  | succ k ih =>
    cases hb : s.busy with
    | false => exact ⟨s, t, run_idle hb hs.moves _, run_idle (h.busy.symm.trans hb) ht.moves _, h.observed⟩
    | true =>
      obtain ⟨s', t', hxs, hxt, h'⟩ := engineAction_sameJob h hs ht hb
      rw [run_succ ((step_nil hs.moves).trans hxs), run_succ ((step_nil ht.moves).trans hxt)]
      exact ih h' (hs.of_engineAction hb hxs) (ht.of_engineAction (h.busy.symm.trans hb) hxt)

end Step

/-- Two jobs with the same inputs start alike (44_stream_driver_adler32.md R301). -/
theorem jobInit_sameJob {s t : State} (w : BitVec 32) (hin : s.inMem = t.inMem) (hlen : s.inLen = t.inLen)
    (hcap : s.outCap = t.outCap) :
    (jobInit { s with storedAlign := w.getLsbD 1 }).SameJob (jobInit { t with storedAlign := w.getLsbD 1 }) := by
  refine ⟨?_, rfl, fun _ => trivial⟩
  simp only [State.shared, jobInit, State.setBusy, hin, hlen, hcap]

/-- HOST_START while no job runs starts one (44_stream_driver_adler32.md R300). -/
theorem exec_hostStart_started {s : State} (w : BitVec 32) (hb : s.busy = false) :
    exec (.hostStart w) s = .next (jobInit { s with storedAlign := w.getLsbD 1 }) :=
  if_neg (by rw [hb]; decide)

/-- A job just started has the engine to itself. -/
theorem jobInit_runsAlone {s : State} (w : BitVec 32) (h : s.Inv) (hb : s.busy = false) (hm : s.hostMoves = []) :
    (jobInit { s with storedAlign := w.getLsbD 1 }).RunsAlone :=
  have hx := exec_hostStart_started w hb
  ⟨execHostStart_inv h hx, windowMirrorsOutput.1 w s _ hb hx, hm⟩

/-- Settles O60: HOST_START begins two runs of one job, which show the same at every step. -/
theorem jobsAreIndependent : Obligations.JobsAreIndependent := by
  intro s1 s2 w k h1 h2 hb1 hb2 hm1 hm2 hin hlen hcap
  obtain ⟨u1, u2, hrun⟩ := run_sameJob (jobInit_sameJob w hin hlen hcap) (jobInit_runsAlone w h1 hb1 hm1)
    (jobInit_runsAlone w h2 hb2 hm2) k
  exact ⟨_, _, u1, u2, exec_hostStart_started w hb1, exec_hostStart_started w hb2, hrun⟩

end Sys2Proof.Machine
end
